-- ==== Sys2Proof/Word.lean ====
section
/-! DEFINITION. Word types of B39: bytes, byte strings, length operands and bit streams (00_scope.md R9 to R11). -/

namespace Sys2Proof

/-- One byte (00_scope.md R11). -/
abbrev Byte := BitVec 8

/-- A byte string, byte 0 first (00_scope.md R11, 20_memory.md R42). -/
abbrev Bytes := List Byte

/-- A 64-byte value: a PRF output, the running exclusive-or, the response data (10_state.md R20). -/
abbrev Bytes64 := Vector Byte 64

/-- A 32-bit command word, bit 0 least significant (00_scope.md R9, 30_encoding.md R60). -/
abbrev CommandWord := BitVec 32

/-- A 14-bit length operand of a command word (30_encoding.md R61, R62). -/
abbrev Operand := BitVec 14

/-- A bit stream: the list of its bits, stream position 0 first (00_scope.md R10). -/
abbrev Stream := List Bool

end Sys2Proof
end

