-- ==== Sys2Proof/Config.lean ====
section
/-! DEFINITION. What an implementation of B39 fixes (00_scope.md R6, R7, R8) and the constants of the source. -/

namespace Sys2Proof

/-- The implementation parameters B39 uses (00_scope.md R7). They are arguments of the step relation and never state
(10_state.md R30). The laws of R8 (total, a function of the operands alone, exact output width) hold by type. -/
structure Params where
  /-- `H256`, the ChecksumHasher: a 256-bit stream for every byte string. -/
  h256 : Bytes → Vector Bool 256
  /-- `PRF512`, key and message to 64 bytes. -/
  prf512 : Bytes → Bytes → Bytes64
  /-- `UTF8ok`, the well-formedness predicate that decides `InvalidEncoding`. -/
  utf8ok : Bytes → Bool
  /-- `PW_MAX`, the largest password length DERIVE accepts. -/
  pwMax : Nat
  /-- `PP_MAX`, the largest passphrase length DERIVE accepts. -/
  ppMax : Nat

namespace Config

/-- `H256` of the machine: a black box (R7, R8, D9), so no body. Log entry 3. -/
opaque h256 : Bytes → Vector Bool 256

/-- `PRF512` of the machine: a black box (R7, R8, D9), so no body. Log entry 3. -/
opaque prf512 : Bytes → Bytes → Bytes64

/-- `UTF8ok` of the machine on non-empty byte strings: a parameter (R7, D11), so no body. Log entry 3. -/
opaque utf8Nonempty : Bytes → Bool

/-- `PW_MAX` of the machine: open in [0, 16383] (R7, D17), so no body. Log entry 3. -/
opaque pwMax : BitVec 14

/-- `PP_MAX` of the machine: open in [0, 16383] (R7, D17), so no body. Log entry 3. -/
opaque ppMax : BitVec 14

/-- `UTF8ok` of the machine: any predicate that accepts the empty byte string (93_implementation_defined.md section 1 row 9,
42_derive.md R100, D26). -/
def utf8ok (bs : Bytes) : Bool := bs.isEmpty || utf8Nonempty bs

/-- The parameters of the machine that `exec` and `step` run. -/
def params : Params where
  h256 := h256
  prf512 := prf512
  utf8ok := utf8ok
  pwMax := pwMax.toNat
  ppMax := ppMax.toNat

/-! ## Constants fixed by the source (00_scope.md R6)

`WORD_BITS` 11 and `KDF_ITER` 2048 stand as literals where the rules write them. -/

/-- `ENT_BYTES`, the allowed entropy lengths in bytes. -/
def entLengths : List Nat := [16, 20, 24, 28, 32]

/-- `WORD_COUNTS`, the allowed mnemonic lengths in words. -/
def wordCounts : List Nat := [12, 15, 18, 21, 24]

/-- `SALT_PREFIX`, the 8 ASCII bytes of `mnemonic`. -/
def saltPrefix : Bytes := [0x6D, 0x6E, 0x65, 0x6D, 0x6F, 0x6E, 0x69, 0x63]

/-- The 4-byte big-endian block index 1 that the first PRF message ends with (42_derive.md R101, 20_memory.md R43). -/
def blockIndex : Bytes := [0x00, 0x00, 0x00, 0x01]

/-- `SPACE`, the word separator of the sentence. -/
def space : Byte := 0x20

/-! ## The standard instantiation of `UTF8ok` (93_implementation_defined.md section 3 item 4)

Used by tests and by statements about the named instantiation only. The machine's own predicate is the parameter above. -/

/-- A byte in an inclusive range. -/
def inRange (lo hi b : Byte) : Bool := lo ≤ b && b ≤ hi

/-- A continuation byte 80..BF. -/
def isCont (b : Byte) : Bool := inRange 0x80 0xBF b

/-- The second byte a first byte of a three-byte form admits. -/
def secondOfThree (b0 b1 : Byte) : Bool :=
  if b0 = 0xE0 then inRange 0xA0 0xBF b1
  else if b0 = 0xED then inRange 0x80 0x9F b1
  else isCont b1

/-- The second byte a first byte of a four-byte form admits. -/
def secondOfFour (b0 b1 : Byte) : Bool :=
  if b0 = 0xF0 then inRange 0x90 0xBF b1
  else if b0 = 0xF4 then inRange 0x80 0x8F b1
  else isCont b1

/-- Well-formed UTF-8 by the table, with one unit of fuel per byte (each form consumes at least one). -/
def utf8Loop : Nat → Bytes → Bool
  | _, [] => true
  | 0, _ :: _ => false
  | n + 1, b0 :: rest =>
    if inRange 0x00 0x7F b0 then utf8Loop n rest
    else if inRange 0xC2 0xDF b0 then
      match rest with
      | b1 :: r => isCont b1 && utf8Loop n r
      | _ => false
    else if inRange 0xE0 0xEF b0 then
      match rest with
      | b1 :: b2 :: r => secondOfThree b0 b1 && isCont b2 && utf8Loop n r
      | _ => false
    else if inRange 0xF0 0xF4 b0 then
      match rest with
      | b1 :: b2 :: b3 :: r => secondOfFour b0 b1 && isCont b2 && isCont b3 && utf8Loop n r
      | _ => false
    else false

/-- The standard `UTF8ok`. -/
def utf8Standard (bs : Bytes) : Bool := utf8Loop bs.length bs

end Config

end Sys2Proof
end

