-- ==== Sys2Proof/Syntax.lean ====
section
/-! DEFINITION. The command set B39-CMD version 1 (00_scope.md R1, 30_encoding.md R63) and the command message (R60). -/

namespace Sys2Proof

/-- The three commands of spec/opcode_table.json. The data operands are no part of the command word: they are the payload
of the command message (30_encoding.md R62). -/
inductive Instr where
  /-- `ENCODE a`: `a` is the entropy length L in bytes (R63, 40_encode.md R80). -/
  | encode (a : Operand)
  /-- `DECODE a`: `a` is the word count N (R63, 41_decode.md R90). -/
  | decode (a : Operand)
  /-- `DERIVE a, b`: `a` is the password length, `b` the passphrase length, in bytes (R63, 42_derive.md R100). -/
  | derive (a b : Operand)
deriving DecidableEq, Repr

/-- A command message: a command word and a payload (30_encoding.md R60). -/
structure Message where
  cw : CommandWord
  payload : Bytes
deriving DecidableEq, Repr

end Sys2Proof
end

