-- ==== Sys2Proof/WellFormed.lean ====
section
/-! DEFINITION. Which commands and messages are well formed: what 30_encoding.md R60 and R64 ask of a message beside the
opcode map. -/

namespace Sys2Proof

/-- The payload length a command announces (30_encoding.md R63, last columns). -/
def Instr.payloadLength : Instr → Nat
  | .encode a => a.toNat
  | .decode a => 2 * a.toNat
  | .derive a b => a.toNat + b.toNat

/-- A command is well formed when DERIVE's lengths are within `PW_MAX` and `PP_MAX` (R64); ENCODE and DECODE have no
check here: their `a` is checked by the first micro-step (R64, 40_encode.md R81, 41_decode.md R91). -/
def Instr.wellFormed (p : Params) : Instr → Bool
  | .encode _ => true
  | .decode _ => true
  | .derive a b => decide (a.toNat ≤ p.pwMax) && decide (b.toNat ≤ p.ppMax)

/-- The longest payload a command message carries (R60). -/
def maxPayload : Nat := 32766

/-- A message is within the port's format when its payload has at most 32766 bytes (R60). -/
def Message.wellFormed (m : Message) : Bool := decide (m.payload.length ≤ maxPayload)

/-- A message carries a command with the payload it announces. -/
def Message.carries (m : Message) (i : Instr) : Bool := decide (m.payload.length = i.payloadLength)

/-- The parameters keep the ranges and the contract 00_scope.md R7 and 93_implementation_defined.md section 1 give them. -/
def Params.wellFormed (p : Params) : Bool :=
  decide (p.pwMax ≤ 16383) && decide (p.ppMax ≤ 16383) && p.utf8ok []

end Sys2Proof
end

