-- ==== Sys2Proof/Decode.lean ====
section
/-! DEFINITION. The decoder and the encoder of command words (30_encoding.md R61 to R63, R68) and framing legality (R64). -/

namespace Sys2Proof

/-! ## Fields of format C (R61, R62) -/

/-- `op = cw[31:28]`. -/
def cwOp (w : CommandWord) : BitVec 4 := w.extractLsb' 28 4

/-- `b = cw[27:14]`. -/
def cwB (w : CommandWord) : Operand := w.extractLsb' 14 14

/-- `a = cw[13:0]`. -/
def cwA (w : CommandWord) : Operand := w.extractLsb' 0 14

/-- `{op, b, a}`: the command word of a line is `op << 28 | b << 14 | a` (R69). -/
def cwAssemble (op : BitVec 4) (b a : Operand) : CommandWord := op ++ b ++ a

/-! ## The opcode map (R63) -/

/-- Why a word selects no command. Both answer `IllegalCommand` (R65). -/
inductive DecodeError where
  /-- `op` is 0x0 or 0x4 to 0xF. -/
  | unknownOp (op : BitVec 4)
  /-- `b` is not 0 in ENCODE or DECODE. -/
  | operandBNotZero (b : Operand)
deriving DecidableEq, Repr

/-- The command a command word selects (R63). Total: every other word is rejected by name. -/
def decodeWord (w : CommandWord) : Except DecodeError Instr :=
  if cwOp w = 0x1#4 then
    if cwB w = 0 then .ok (.encode (cwA w)) else .error (.operandBNotZero (cwB w))
  else if cwOp w = 0x2#4 then
    if cwB w = 0 then .ok (.decode (cwA w)) else .error (.operandBNotZero (cwB w))
  else if cwOp w = 0x3#4 then .ok (.derive (cwA w) (cwB w))
  else .error (.unknownOp (cwOp w))

/-- The command word of a command (R63). -/
def encodeWord : Instr → CommandWord
  | .encode a => cwAssemble 0x1 0 a
  | .decode a => cwAssemble 0x2 0 a
  | .derive a b => cwAssemble 0x3 b a

/-- One row of the opcode map: a word selects it iff `w and mask = match` (R63). -/
structure OpcodeRow where
  mnemonic : String
  matchWord : CommandWord
  mask : CommandWord
deriving DecidableEq, Repr

/-- The table of R63. -/
def opcodeRows : List OpcodeRow :=
  [ { mnemonic := "ENCODE", matchWord := 0x10000000, mask := 0xFFFFC000 },
    { mnemonic := "DECODE", matchWord := 0x20000000, mask := 0xFFFFC000 },
    { mnemonic := "DERIVE", matchWord := 0x30000000, mask := 0xF0000000 } ]

/-- A word selects a row of the table. -/
def selectsRow (w : CommandWord) (r : OpcodeRow) : Bool := (w &&& r.mask) == r.matchWord

/-- The mnemonic of a command. -/
def mnemonicOf : Instr → String
  | .encode _ => "ENCODE"
  | .decode _ => "DECODE"
  | .derive _ _ => "DERIVE"

/-! ## Framing (R64) -/

/-- `n ≤ m`, written so that length 0 is within every bound without looking at the bound. -/
def lengthFits : Nat → Nat → Bool
  | 0, _ => true
  | n + 1, m => decide (n < m)

/-- R64: the message can be parsed. It does not say the operands are valid. -/
def framingLegal (p : Params) (m : Message) : Bool :=
  if cwOp m.cw = 0x1#4 then
    decide (cwB m.cw = 0) && decide (m.payload.length = (cwA m.cw).toNat)
  else if cwOp m.cw = 0x2#4 then
    decide (cwB m.cw = 0) && decide (m.payload.length = 2 * (cwA m.cw).toNat)
  else if cwOp m.cw = 0x3#4 then
    lengthFits (cwA m.cw).toNat p.pwMax && lengthFits (cwB m.cw).toNat p.ppMax
      && decide (m.payload.length = (cwA m.cw).toNat + (cwB m.cw).toNat)
  else false

/-! ## The host's probe -/

/-- The command the decoder reads from an instruction whose bits are `w`, numbered as spec/opcode_table.json numbers them.
A command word is one 32-bit word with bit 0 least significant and is never serialised into bytes (20_memory.md R43), so
the table's numbering is the word's own. Bits from `nbits` up count as 0. -/
def decodeTableWord (nbits w : Nat) : Option Instr :=
  match decodeWord (BitVec.ofNat 32 (w % 2 ^ nbits)) with
  | .ok i => some i
  | .error _ => none

end Sys2Proof
end

