-- ==== Sys2Proof/Machine/State.lean ====
section
/-! DEFINITION. The state of B39 (10_state.md R20), the host's side of its two ports, the ways a step can stop, and reset. -/

namespace Sys2Proof.Machine

open Sys2Proof

/-- The ten values of `ST` (10_state.md R21). The binary encoding is not specified. -/
inductive SeqState where
  | idle | encCheck | encHash | encChunk | decCheck | decGather | kdfCheck | kdfFirst | kdfIter | resp
deriving DecidableEq, Repr

/-- What the host can do to the block (60_exceptions.md R158, complete). -/
inductive HostInput where
  /-- The host does nothing for one step. -/
  | quiet
  /-- The host presents one whole command message (30_encoding.md R72, R73). -/
  | issue (m : Message)
  /-- The host takes the response (60_exceptions.md R147). -/
  | take
  /-- The reset input is asserted (70_reset_and_hazards.md R160). -/
  | reset
deriving DecidableEq, Repr

/-- A response message `(stat, info, data)` (30_encoding.md R67). -/
structure Response where
  stat : BitVec 8
  info : BitVec 8
  data : Bytes
deriving DecidableEq, Repr

/-- Why a step stops. -/
inductive Fault where
  /-- Raised by the sequencer in a state the transition table of 10_state.md R21 lists no step for: ENC_CHUNK or DEC_GATHER
  with `POS > CNT`, KDF_ITER with `ITER > 2048`. Safe: no reachable state is one (10_state.md R34 (e)). Log entry 8. -/
  | noStep
deriving DecidableEq, Repr

/-- Why a command is refused. -/
inductive Refusal where
  /-- Raised by an arm of `exec` whose command has no meaning yet; no arm does. Safe. -/
  | notModelled (mnemonic : String)
deriving DecidableEq, Repr

/-- The registers of 10_state.md R20 (`st` to `rdata`) and the host's side of the ports (`script`, `issued`, `obs`;
60_exceptions.md R157, R158; log entries 1 and 2). Counters are naturals with their ranges as invariants, as R20 allows. -/
structure State where
  /-- `ST`. -/
  st : SeqState
  /-- `CW`. -/
  cw : CommandWord
  /-- `A`. -/
  a : Operand
  /-- `B`. -/
  b : Operand
  /-- `PL`. -/
  pl : Bytes
  /-- `PLLEN`. -/
  pllen : Nat
  /-- `CBS`, stream position 0 first. -/
  cbs : Vector Bool 264
  /-- `NBITS`. -/
  nbits : Nat
  /-- `CUR`. -/
  cur : Nat
  /-- `POS`. -/
  pos : Nat
  /-- `CNT`. -/
  cnt : Nat
  /-- `IDX[0..23]`, miss flag in bit 11, WordIndex in bits 10:0. -/
  idx : Vector (BitVec 12) 24
  /-- `DIG`, stream position 0 first. -/
  dig : Vector Bool 256
  /-- `U`. -/
  u : Bytes64
  /-- `T`. -/
  t : Bytes64
  /-- `ITER`. -/
  iter : Nat
  /-- `RV`. -/
  rv : Bool
  /-- `RSTAT`. -/
  rstat : BitVec 8
  /-- `RINFO`. -/
  rinfo : BitVec 8
  /-- `RLEN`. -/
  rlen : Nat
  /-- `RDATA[0..63]`. -/
  rdata : Bytes64
  /-- The host's inputs still to come, in the order it offers them (`nextInput` in Ops.lean says which one is next). -/
  script : List HostInput
  /-- The command message whose response is owed to the host, if any. -/
  issued : Option Message
  /-- The observation of the run so far, oldest pair first. -/
  obs : List (Message × Response)
deriving DecidableEq, Repr

/-- Reset (10_state.md R32, 70_reset_and_hazards.md R160, R161): the last column of R20, with a quiet host that has
observed nothing (log entry 12). -/
def State.reset : State where
  st := .idle
  cw := 0
  a := 0
  b := 0
  pl := []
  pllen := 0
  cbs := Vector.replicate 264 false
  nbits := 0
  cur := 0
  pos := 0
  cnt := 0
  idx := Vector.replicate 24 0
  dig := Vector.replicate 256 false
  u := Vector.replicate 64 0
  t := Vector.replicate 64 0
  iter := 0
  rv := false
  rstat := 0
  rinfo := 0
  rlen := 0
  rdata := Vector.replicate 64 0
  script := []
  issued := none
  obs := []

end Sys2Proof.Machine
end

