-- ==== Sys2Proof/Machine/Stream.lean ====
section
/-! DEFINITION. Bit streams and byte strings (00_scope.md R10, R11; 20_memory.md R42 to R45) and fixed-size registers built
from lists. -/

namespace Sys2Proof.Machine

open Sys2Proof

/-! ## Streams (R10) -/

/-- `s{i +: n}`: the half-open window of `n` bits from stream position `i`. -/
def slice (s : Stream) (i n : Nat) : Stream := (s.drop i).take n

/-- `uint(t)`: the first bit is the most significant. -/
def uint (t : Stream) : Nat := t.foldl (fun n bit => 2 * n + bit.toNat) 0

/-- `stream_n(v)`: the `n`-bit stream `t` with `uint(t) = v`, for `v < 2^n`. -/
def streamOf (n v : Nat) : Stream := (List.range n).map fun j => v.testBit (n - 1 - j)

/-! ## Bytes as streams (R11): bytes in order, most significant bit first inside each byte -/

/-- The eight bits of a byte: stream position `t` is bit `7 - t`. -/
def byteBits (b : Byte) : Stream := (List.range 8).map fun t => b.getLsbD (7 - t)

/-- `bits(B)`. -/
def bits (bs : Bytes) : Stream := bs.flatMap byteBits

/-- `bytes(s)` (R11), for a stream whose length is a multiple of 8. DESIGN CHOICE: for any other length (no reachable state) the
spec defines none, and the last 1 to 7 bits are dropped. Log entry 21. -/
def bytes : Stream → Bytes
  | b0 :: b1 :: b2 :: b3 :: b4 :: b5 :: b6 :: b7 :: rest =>
    BitVec.ofNat 8 (uint [b0, b1, b2, b3, b4, b5, b6, b7]) :: bytes rest
  | _ => []

/-- Bytewise exclusive-or of two 64-byte values (00_scope.md R14). -/
def xorBytes (x y : Bytes64) : Bytes64 := Vector.zipWith (fun a b => a ^^^ b) x y

/-! ## Registers of a fixed number of cells -/

/-- The first `n` elements of a list, filled up with `d` to exactly `n`. DESIGN CHOICE: a list longer than the register (no
reachable state) has no meaning in the spec, and the elements from `n` on are dropped. Log entry 21. -/
def fill {α : Type} (n : Nat) (d : α) (l : List α) : Vector α n :=
  ⟨((l ++ List.replicate n d).take n).toArray, by simp⟩

/-- `CBS{i +: |t|} <- t`: every position outside the window keeps its bit. -/
def putBits (s : Vector Bool 264) (i : Nat) (t : Stream) : Vector Bool 264 :=
  fill 264 false (s.toList.take i ++ t ++ s.toList.drop (i + t.length))

/-- `CBS{i +: n}` of the register. -/
def cbsSlice (s : Vector Bool 264) (i n : Nat) : Stream := slice s.toList i n

/-- The 256-bit stream of a digest given as bytes (20_memory.md R44 (b)). -/
def digestOfBytes (bs : Bytes) : Vector Bool 256 := fill 256 false (bits bs)

/-! ## Byte-level form of the 11-bit window (40_encode.md R85, derived) -/

/-- Window `k` of CBS computed from two or three bytes: `((Bz[j]*65536 + Bz[j+1]*256 + Bz[j+2]) >> (13 - o)) mod 2048`
with `j = floor(11k / 8)` and `o = 11k mod 8`. -/
def windowOfBytes (s : Vector Bool 264) (k : Nat) : Nat :=
  let bz := bytes s.toList ++ [0]
  let j := 11 * k / 8
  let o := 11 * k % 8
  (((bz.getD j 0).toNat * 65536 + (bz.getD (j + 1) 0).toNat * 256 + (bz.getD (j + 2) 0).toNat) >>> (13 - o)) % 2048

end Sys2Proof.Machine
end

