-- ==== Sys2Proof/Machine/Flags.lean ====
section
/-! DEFINITION. The flag-like values of B39: status codes (60_exceptions.md R140), the miss flags (10_state.md R26) and the
checksum verdict (41_decode.md R94). RV is written by `respond` and `take` alone (Ops.lean). -/

namespace Sys2Proof.Machine

open Sys2Proof

/-- The eight outcomes of a command (R140). -/
inductive Status where
  | ok | invalidEntropyLength | invalidWordCount | unknownWord | checksumMismatch | invalidEncoding
  | internalInvariantViolation | illegalCommand
deriving DecidableEq, Repr

/-- The status code of an outcome (R140). -/
def statusCode : Status → BitVec 8
  | .ok => 0x00
  | .invalidEntropyLength => 0x01
  | .invalidWordCount => 0x02
  | .unknownWord => 0x03
  | .checksumMismatch => 0x04
  | .invalidEncoding => 0x05
  | .internalInvariantViolation => 0x06
  | .illegalCommand => 0x07

/-- The miss flag of an IDX entry, `IDX[k][11]` (10_state.md R26). -/
def missFlag (e : BitVec 12) : Bool := e.getLsbD 11

/-- The WordIndex of an IDX entry, `IDX[k][10:0]` (10_state.md R26). -/
def wordIndex (e : BitVec 12) : BitVec 11 := e.extractLsb' 0 11

/-- The number of checksum bits of `l` entropy bytes, `CS = L / 4` (00_scope.md R13, R14). DESIGN CHOICE: where the division is not
exact (outside R13's table, no reachable state uses it) the spec gives none, and it rounds down. Log entry 21. -/
def csOfBytes (l : Nat) : Nat := l / 4

/-- The number of checksum bits of `n` words, `CS = N / 3` (00_scope.md R13, R14). DESIGN CHOICE: where the division is not exact
(outside R13's table, no reachable state uses it) the spec gives none, and it rounds down. Log entry 21. -/
def csOfWords (n : Nat) : Nat := n / 3

/-- The number of entropy bits of `n` words, `ENT = NB - CS` with `NB = 11 N` (00_scope.md R13). -/
def entOfWords (n : Nat) : Nat := 11 * n - csOfWords n

/-- The checksum bits of a digest: its first `cs` bits (10_state.md R27). -/
def checksumBits (d : Vector Bool 256) (cs : Nat) : Stream := slice d.toList 0 cs

/-- The verdict of the comparison: the `cs` leading digest bits equal the claimed bits position by position (R94, C3). -/
def checksumEqual (d : Vector Bool 256) (cs : Nat) (claimed : Stream) : Bool := decide (checksumBits d cs = claimed)

end Sys2Proof.Machine
end

