-- ==== Sys2Proof/Machine/Operands.lean ====
section
/-! DEFINITION. The data operands: how the three commands read the payload (20_memory.md R41, R43), entries
(30_encoding.md R66), the salt (42_derive.md R102). -/

namespace Sys2Proof.Machine

open Sys2Proof

/-! ## Entries (R66, R43) -/

/-- The 16-bit entry at index `k` of a byte string, big-endian: `PL[2k] * 256 + PL[2k+1]` (R43). DESIGN CHOICE: a
byte past the end (no reachable state) is 0. Log entry 7. -/
def entryAt (bs : Bytes) (k : Nat) : BitVec 16 := bs.getD (2 * k) 0 ++ bs.getD (2 * k + 1) 0

/-- `miss = e[15]`. -/
def entryMiss (e : BitVec 16) : Bool := e.getLsbD 15

/-- `idx = e[10:0]`. Bits 14:11 are reserved and ignored. -/
def entryIndex (e : BitVec 16) : BitVec 11 := e.extractLsb' 0 11

/-- `{ e[15], e[10:0] }`, the IDX entry DEC_CHECK stores (41_decode.md R91). -/
def idxOfEntry (e : BitVec 16) : BitVec 12 := e.extractLsb' 15 1 ++ entryIndex e

/-- The two bytes of the output entry of an IDX entry: `IDX[k][11:8]`, `IDX[k][7:0]` (40_encode.md R84). -/
def entryBytes (e : BitVec 12) : Bytes := [(e.extractLsb' 8 4).setWidth 8, e.extractLsb' 0 8]

/-- The IDX entry of a WordIndex with miss bit 0: `zext_12` (40_encode.md R83). -/
def idxOfWindow (v : Nat) : BitVec 12 := BitVec.ofNat 12 v

/-! ## Payload operands of the command in progress (R41) -/

/-- ENCODE: `PL[0 .. A-1]`, the entropy. DESIGN CHOICE: where `PL` is shorter than `A` (no reachable state) the spec gives the
slice no meaning, and it is the whole of `PL`. Log entry 7. -/
def entropyOf (s : State) : Bytes := s.pl.take s.a.toNat

/-- DERIVE: `PW = PL[0 .. A-1]`, the password (R104). DESIGN CHOICE: where `PL` is shorter than `A` (no reachable state) the
spec gives the slice no meaning, and it is the whole of `PL`. Log entry 7. -/
def passwordOf (s : State) : Bytes := s.pl.take s.a.toNat

/-- DERIVE: `PP = PL[A .. A+B-1]`, the passphrase (R104). DESIGN CHOICE: where `PL` is shorter than `A + B` (no reachable
state) the spec gives the slice no meaning, and it is what `PL` holds from byte `A` on, nothing if `PL` is shorter than `A`.
Log entry 7. -/
def passphraseOf (s : State) : Bytes := (s.pl.drop s.a.toNat).take s.b.toNat

/-- DECODE: all 24 IDX entries from the payload, entries `A` and above 0 (R91). -/
def idxOfPayload (pl : Bytes) (n : Nat) : Vector (BitVec 12) 24 :=
  fill 24 0 ((List.range n).map fun k => idxOfEntry (entryAt pl k))

/-- `IDX[k]`. Out of range (no reachable state) it reads 0: log entry 7. -/
def idxAt (s : State) (k : Nat) : BitVec 12 := (s.idx[k]?).getD 0

/-- The salt `SALT_PREFIX ‖ PP` (42_derive.md R102). -/
def saltOf (pp : Bytes) : Bytes := Config.saltPrefix ++ pp

/-- The message of the first PRF call: the salt followed by the block index (42_derive.md R101, R105). -/
def firstMessage (salt : Bytes) : Bytes := salt ++ Config.blockIndex

end Sys2Proof.Machine
end

