-- ==== Sys2Proof/Machine/Ops.lean ====
section
/-! DEFINITION. The shared operations: `Clear` (10_state.md R31), `Respond` and failure entry (00_scope.md R12,
60_exceptions.md R149), the return from it, `take` (R147), reset (70_reset_and_hazards.md R160) and `issue`
(30_encoding.md R72, R73). -/

namespace Sys2Proof.Machine

open Sys2Proof

/-! ## Clear, Respond, failure -/

/-- `Clear()`: every working register to its reset value (R31). -/
def clearWorking (s : State) : State :=
  { s with
    cw := 0, a := 0, b := 0, pl := [], pllen := 0, cbs := Vector.replicate 264 false, nbits := 0, cur := 0, pos := 0,
    cnt := 0, idx := Vector.replicate 24 0, dig := Vector.replicate 256 false, u := Vector.replicate 64 0,
    t := Vector.replicate 64 0, iter := 0 }

/-- Every response register to its reset value (R147). -/
def clearResponse (s : State) : State :=
  { s with rv := false, rstat := 0, rinfo := 0, rlen := 0, rdata := Vector.replicate 64 0 }

/-- `Respond(stat, info, data)` (R12): the response registers, then `Clear()`, then RESP. -/
def respond (st : Status) (info : BitVec 8) (data : Bytes) (s : State) : State :=
  { clearWorking s with
    rstat := statusCode st, rinfo := info, rlen := data.length, rdata := fill 64 0 data, rv := true, st := .resp }

/-- Failure entry, `raise K(info)` (R149): `Respond(code(K), info, empty)`. Nothing is saved, and no other write of the
raising step stands. -/
def raiseError (k : Status) (info : BitVec 8) (s : State) : State := respond k info [] s

/-! ## The host's inputs

The script is the host's plan: its inputs in the order it offers them. An input that is not enabled waits in its place and
stands in no other input's way, so a message held at the command port (30_encoding.md R72) keeps neither a take nor a reset
back. Log entries 1 and 9. -/

/-- The column 'enabled when' of 60_exceptions.md R158: issue in IDLE (R72), take in RESP (R147), reset always (R160). Doing
nothing is always possible. -/
def enabled (st : SeqState) : HostInput → Bool
  | .quiet => true
  | .issue _ => decide (st = .idle)
  | .take => decide (st = .resp)
  | .reset => true

/-- The host's input in the next step: the first one that is enabled. -/
def nextInput (s : State) : Option HostInput := s.script.find? (enabled s.st)

/-- The inputs that remain when that one is used up: those held before it, and those after it. -/
def laterInputs (s : State) : List HostInput := s.script.eraseP (enabled s.st)

/-- The reset input is asserted. -/
def resetAsserted (s : State) : Bool :=
  match nextInput s with
  | some .reset => true
  | _ => false

/-- The command message the command port accepts in the next step, if any (R72). -/
def presented (s : State) : Option Message :=
  match nextInput s with
  | some (.issue m) => some m
  | _ => none

/-- The host takes the response in the next step (R147). -/
def takeReady (s : State) : Bool :=
  match nextInput s with
  | some .take => true
  | _ => false

/-- The host's next input is used up. -/
def advanceHost (s : State) : State := { s with script := laterInputs s }

/-- The host's input in a step it has no interaction in: `quiet` passes, inputs that are not enabled are held. -/
def passQuiet (s : State) : State :=
  match nextInput s with
  | some .quiet => advanceHost s
  | _ => s

/-! ## Reset, take -/

/-- Reset (R160): every register as after reset, in any state. The command in progress or the pending response is dropped
without an observation pair (R157). The host keeps what it has observed and what it will do next. -/
def hostReset (s : State) : State := { State.reset with script := laterInputs s, obs := s.obs }

/-- The response message the registers hold: `(RSTAT, RINFO, RDATA[0 .. RLEN-1])` (R29, R67). -/
def responseOf (s : State) : Response :=
  { stat := s.rstat, info := s.rinfo, data := s.rdata.toList.take s.rlen }

/-- The observation with the pair that a take delivers added at the end (R157). -/
def observe (s : State) : List (Message × Response) :=
  match s.issued with
  | some m => s.obs ++ [(m, responseOf s)]
  | none => s.obs

/-- `take()` (R147), the return: deliver the response, clear the response registers, back to IDLE. -/
def take (s : State) : State :=
  { clearResponse (advanceHost s) with st := .idle, obs := observe s, issued := none }

/-! ## Issue -/

/-- The state a legal command enters, by `cw[31:28]` (R73). Only a framing-legal word is latched, so `op` is 1, 2 or 3. -/
def entryState (w : CommandWord) : SeqState :=
  if cwOp w = 0x1#4 then .encCheck else if cwOp w = 0x2#4 then .decCheck else .kdfCheck

/-- The latches of `issue` for a framing-legal message (R73). -/
def latch (m : Message) (s : State) : State :=
  { s with
    cw := m.cw, a := cwA m.cw, b := cwB m.cw, pl := m.payload, pllen := m.payload.length, st := entryState m.cw }

/-- The host has handed over message `m` and is owed its response. -/
def handOver (m : Message) (s : State) : State := { advanceHost s with issued := some m }

/-- `issue(cw, PLin)` (R73), one atomic step: latch a framing-legal message, answer `IllegalCommand` to any other. -/
def issue (p : Params) (m : Message) (s : State) : State :=
  if framingLegal p m then latch m (handOver m s) else raiseError .illegalCommand 0 (handOver m s)

/-- The issue step of command `i`: taken when a message with the command word of `i` is presented, otherwise the port waits
(R72). -/
def issueAs (p : Params) (i : Instr) (s : State) : State :=
  match presented s with
  | some m => if m.cw = encodeWord i then issue p m s else s
  | none => s

/-! ## The next step's choice (10_state.md R21) -/

/-- The command whose step comes next: the one in progress, by `ST`; in IDLE the one whose word the host presents. None in
RESP, and none in IDLE when nothing is presented or the presented word selects no command. -/
def commandAt (s : State) : Option Instr :=
  match s.st with
  | .idle => (presented s).bind fun m => (decodeWord m.cw).toOption
  | .encCheck => some (.encode s.a)
  | .encHash => some (.encode s.a)
  | .encChunk => some (.encode s.a)
  | .decCheck => some (.decode s.a)
  | .decGather => some (.decode s.a)
  | .kdfCheck => some (.derive s.a s.b)
  | .kdfFirst => some (.derive s.a s.b)
  | .kdfIter => some (.derive s.a s.b)
  | .resp => none

/-- The step of a host state in which no command starts: IDLE answers a presented message whose word selects no command
(R73) and otherwise waits; RESP delivers to a ready host (R147) and otherwise waits. -/
def hostStep (p : Params) (s : State) : State :=
  if s.st = .resp then
    if takeReady s then take s else passQuiet s
  else
    match presented s with
    | some m => issue p m s
    | none => passQuiet s

end Sys2Proof.Machine
end

