-- ==== Sys2Proof/Machine/DecodeCommand.lean ====
section
/-! DEFINITION. DECODE: the micro-steps of the mnemonic-to-entropy bit-decoder (41_decode.md R91 to R93) and the command's
step. -/

namespace Sys2Proof.Machine

open Sys2Proof

/-- `DEC_CHECK` (R91): check the count, load the entries. -/
def decCheck (s : State) : State :=
  if s.a.toNat ∈ Config.wordCounts then
    { s with
      cnt := s.a.toNat, idx := idxOfPayload s.pl s.a.toNat, cbs := Vector.replicate 264 false, nbits := 0, cur := 0,
      pos := 0, st := .decGather }
  else raiseError .invalidWordCount 0 s

/-- `DEC_GATHER` (R92): the next WordIndex becomes the next 11 bits, or a miss ends the command. DESIGN CHOICE: a position above
255 (no reachable state) does not fit RINFO, and its low eight bits are reported. Log entry 21. -/
def decGather (s : State) : State :=
  if missFlag (idxAt s s.pos) then raiseError .unknownWord (BitVec.ofNat 8 s.pos) s
  else
    { s with
      cbs := putBits s.cbs s.cur (streamOf 11 (wordIndex (idxAt s s.pos)).toNat),
      cur := s.cur + 11, pos := s.pos + 1, nbits := s.cur + 11 }

/-- The candidate entropy of `DEC_VERIFY`: `bytes(CBS{0 +: ENT})` (R93). -/
def candidateOf (s : State) : Bytes := bytes (cbsSlice s.cbs 0 (entOfWords s.cnt))

/-- The claimed checksum bits of `DEC_VERIFY`: `CBS{ENT +: CS}` (R93). -/
def claimedOf (s : State) : Stream := cbsSlice s.cbs (entOfWords s.cnt) (csOfWords s.cnt)

/-- `DEC_VERIFY` (R93): one digest of the candidate entropy, compared with the claimed bits. Its write of DIG is cleared by
the response that the same step forms (00_scope.md R12). DESIGN CHOICE: with `CNT` outside R13's table (no reachable state) the
spec gives neither `CNT / 3` nor the bytes of `ENT` bits; `csOfWords` and `bytes` say what they are here. Log entry 21. -/
def decVerify (p : Params) (s : State) : State :=
  let s' := { s with dig := p.h256 (candidateOf s) }
  if checksumEqual s'.dig (csOfWords s.cnt) (claimedOf s) then respond .ok 0 (candidateOf s) s'
  else raiseError .checksumMismatch 0 s'

/-- One step of the command DECODE (10_state.md R21): its issue step in IDLE, its micro-steps in DEC_CHECK and DEC_GATHER.
In every other state the command port does not accept it and the host waits (30_encoding.md R72). -/
def decodeStep (p : Params) (a : Operand) (s : State) : Host.Outcome State Fault Refusal :=
  match s.st with
  | .idle => .next (issueAs p (.decode a) s)
  | .decCheck => .next (decCheck s)
  | .decGather =>
    if s.pos < s.cnt then .next (decGather s) else if s.pos = s.cnt then .next (decVerify p s) else .fault .noStep
  | .encCheck => .next s
  | .encHash => .next s
  | .encChunk => .next s
  | .kdfCheck => .next s
  | .kdfFirst => .next s
  | .kdfIter => .next s
  | .resp => .next s

/-- The meaning of `DECODE` (R90 to R93) with the machine's parameters. -/
def execDecode (a : Operand) (s : State) : Host.Outcome State Fault Refusal := decodeStep Config.params a s

end Sys2Proof.Machine
end

