-- ==== Sys2Proof/Machine/DeriveCommand.lean ====
section
/-! DEFINITION. DERIVE: the micro-steps of the key-stretching iteration controller (42_derive.md R104 to R107) and the
command's step. -/

namespace Sys2Proof.Machine

open Sys2Proof

/-- `KDF_CHECK` (R104): both strings well formed, each tested on its own. -/
def kdfCheck (p : Params) (s : State) : State :=
  if p.utf8ok (passwordOf s) && p.utf8ok (passphraseOf s) then { s with st := .kdfFirst }
  else raiseError .invalidEncoding 0 s

/-- `KDF_FIRST` (R105): the first PRF call. -/
def kdfFirst (p : Params) (s : State) : State :=
  let v := p.prf512 (passwordOf s) (firstMessage (saltOf (passphraseOf s)))
  { s with u := v, t := v, iter := 1, st := .kdfIter }

/-- `KDF_ITER` (R106): one further PRF call, added into T by exclusive-or. -/
def kdfIter (p : Params) (s : State) : State :=
  let v := p.prf512 (passwordOf s) s.u.toList
  { s with u := v, t := xorBytes s.t v, iter := s.iter + 1 }

/-- `KDF_DONE` (R107). -/
def kdfDone (s : State) : State := respond .ok 0 s.t.toList s

/-- One step of the command DERIVE (10_state.md R21): its issue step in IDLE, its micro-steps in KDF_CHECK, KDF_FIRST and
KDF_ITER. In every other state the command port does not accept it and the host waits (30_encoding.md R72). -/
def deriveStep (p : Params) (a b : Operand) (s : State) : Host.Outcome State Fault Refusal :=
  match s.st with
  | .idle => .next (issueAs p (.derive a b) s)
  | .kdfCheck => .next (kdfCheck p s)
  | .kdfFirst => .next (kdfFirst p s)
  | .kdfIter =>
    if s.iter < 2048 then .next (kdfIter p s)
    else if s.iter = 2048 then .next (kdfDone s)
    else .fault .noStep
  | .encCheck => .next s
  | .encHash => .next s
  | .encChunk => .next s
  | .decCheck => .next s
  | .decGather => .next s
  | .resp => .next s

/-- The meaning of `DERIVE` (R100 to R107) with the machine's parameters. -/
def execDerive (a b : Operand) (s : State) : Host.Outcome State Fault Refusal := deriveStep Config.params a b s

end Sys2Proof.Machine
end

