-- ==== Sys2Proof/Machine/EncodeCommand.lean ====
section
/-! DEFINITION. ENCODE: the micro-steps of the entropy-to-mnemonic bit-encoder (40_encode.md R81 to R84) and the command's
step. -/

namespace Sys2Proof.Machine

open Sys2Proof

/-- `ENC_CHECK` (R81): check the length, load the entropy. -/
def encCheck (s : State) : State :=
  if s.a.toNat ∈ Config.entLengths then
    { s with
      cbs := fill 264 false (bits (entropyOf s)), nbits := 8 * s.a.toNat, idx := Vector.replicate 24 0, st := .encHash }
  else raiseError .invalidEntropyLength 0 s

/-- `ENC_HASH` (R82): one digest of the entropy bytes, checksum insertion, the defensive check of the stream length. With `A`
outside R13's table (no reachable state) `A / 4` is what `csOfBytes` says: DESIGN CHOICE, log entry 21. -/
def encHash (p : Params) (s : State) : State :=
  let cs := csOfBytes s.a.toNat
  let d := p.h256 (entropyOf s)
  let nb := s.nbits + cs
  if nb % 11 = 0 then
    { s with
      dig := d, cbs := putBits s.cbs s.nbits (checksumBits d cs), nbits := nb, cnt := nb / 11, cur := 0,
      pos := 0, st := .encChunk }
  else raiseError .internalInvariantViolation 0 s

/-- `ENC_CHUNK` (R83): the next 11-bit window becomes the next WordIndex. -/
def encChunk (s : State) : State :=
  { s with
    idx := s.idx.setIfInBounds s.pos (idxOfWindow (uint (cbsSlice s.cbs s.cur 11))),
    cur := s.cur + 11, pos := s.pos + 1 }

/-- The data of `ENC_DONE`: `CNT` entries of two bytes (R84). -/
def encodeData (s : State) : Bytes := (List.range s.cnt).flatMap fun k => entryBytes (idxAt s k)

/-- `ENC_DONE` (R84). -/
def encDone (s : State) : State := respond .ok 0 (encodeData s) s

/-- One step of the command ENCODE (10_state.md R21): its issue step in IDLE, its micro-steps in ENC_CHECK, ENC_HASH and
ENC_CHUNK. In every other state the command port does not accept it and the host waits (30_encoding.md R72). -/
def encodeStep (p : Params) (a : Operand) (s : State) : Host.Outcome State Fault Refusal :=
  match s.st with
  | .idle => .next (issueAs p (.encode a) s)
  | .encCheck => .next (encCheck s)
  | .encHash => .next (encHash p s)
  | .encChunk =>
    if s.pos < s.cnt then .next (encChunk s) else if s.pos = s.cnt then .next (encDone s) else .fault .noStep
  | .decCheck => .next s
  | .decGather => .next s
  | .kdfCheck => .next s
  | .kdfFirst => .next s
  | .kdfIter => .next s
  | .resp => .next s

/-- The meaning of `ENCODE` (R80 to R84) with the machine's parameters. -/
def execEncode (a : Operand) (s : State) : Host.Outcome State Fault Refusal := encodeStep Config.params a s

end Sys2Proof.Machine
end

