-- ==== Sys2Proof/Machine/Dispatch.lean ====
section
/-! DEFINITION. The dispatch of a command to its meaning: one step of the command (10_state.md R21). -/

namespace Sys2Proof.Machine

open Sys2Proof

def exec (i : Instr) (s : State) : Host.Outcome State Fault Refusal :=
  match i with
  | .encode a => Sys2Proof.Machine.execEncode a s
  | .decode a => Sys2Proof.Machine.execDecode a s
  | .derive a b => Sys2Proof.Machine.execDerive a b s

end Sys2Proof.Machine
end

