-- ==== Sys2Proof/Machine/Step.lean ====
section
/-! DEFINITION. One step of the machine (10_state.md R21, 60_exceptions.md R158) and the host's probe. -/

namespace Sys2Proof.Machine

open Sys2Proof

/-- One step: reset when it is asserted (R160, always enabled); otherwise a step of the command `commandAt` names, or a step
of the host states in which no command starts. -/
def step (s : State) : Host.Outcome State Fault Refusal :=
  if resetAsserted s then .next (hostReset s)
  else
    match commandAt s with
    | some i => exec i (passQuiet s)
    | none => .next (hostStep Config.params s)

/-- The message the probe presents: the word, and zero bytes as the payload its command announces. -/
def probeMessage (nbits w : Nat) : Message where
  cw := BitVec.ofNat 32 (w % 2 ^ nbits)
  payload :=
    match decodeTableWord nbits w with
    | some i => List.replicate i.payloadLength 0
    | none => []

/-- `s` with a command word presented as the host's next input, in IDLE, the state in which the command port accepts one
(R72). A command carries its data in its payload, so the probe presents a payload of zeros of the announced length. Log entry
11. -/
def State.withFetchWord (s : State) (nbits w : Nat) : State :=
  { s with st := .idle, script := .issue (probeMessage nbits w) :: s.script }

end Sys2Proof.Machine
end

