-- ==== Sys2Proof/Machine/CommandLevel.lean ====
section
/-! DEFINITION. The command-level functions (00_scope.md R5): the normative result of a command message, R80 (ENCODE), R90
(DECODE), R100 and R101 (DERIVE), and the response of any message (30_encoding.md R65). -/

namespace Sys2Proof.Machine

open Sys2Proof

/-- A response with a non-zero status: no data (30_encoding.md R67). -/
def failureResponse (k : Status) (info : BitVec 8) : Response := { stat := statusCode k, info := info, data := [] }

/-- A response with status OK. -/
def successResponse (data : Bytes) : Response := { stat := statusCode .ok, info := 0, data := data }

/-- The CombinedBitStream of an entropy: `bits(E) ‖ D{0 +: CS}` (R80). -/
def combinedStream (p : Params) (e : Bytes) : Stream := bits e ++ checksumBits (p.h256 e) (csOfBytes e.length)

/-- The WordIndex of window `k` (R80). -/
def windowIndex (s : Stream) (k : Nat) : Nat := uint (slice s (11 * k) 11)

/-- `ENCODE(L, E)` (R80), for `|E| = L`. DESIGN CHOICE: for any other `E` (no framing-legal message has one) the spec gives no
response, and the stream is that of all of `E`, read in the windows of `L`. Log entry 21. -/
def encodeResponse (p : Params) (l : Nat) (e : Bytes) : Response :=
  if l ∈ Config.entLengths then
    let nb := 8 * l + csOfBytes l
    if nb % 11 = 0 then
      successResponse ((List.range (nb / 11)).flatMap fun k => entryBytes (idxOfWindow (windowIndex (combinedStream p e) k)))
    else failureResponse .internalInvariantViolation 0
  else failureResponse .invalidEntropyLength 0

/-- The least position of an entry with `miss = 1` (R90). -/
def firstMiss (es : List (BitVec 16)) : Option Nat := es.findIdx? fun e => entryMiss e

/-- The stream of the entries: `stream_11(idx_0) ‖ .. ‖ stream_11(idx_{N-1})` (R90). -/
def entriesStream (es : List (BitVec 16)) : Stream := es.flatMap fun e => streamOf 11 (entryIndex e).toNat

/-- The N entries of a DECODE payload (R90). -/
def entriesOf (n : Nat) (pl : Bytes) : List (BitVec 16) := (List.range n).map fun k => entryAt pl k

/-- The candidate entropy `Ec` (R90). -/
def candidateEntropy (es : List (BitVec 16)) : Bytes := bytes (slice (entriesStream es) 0 (entOfWords es.length))

/-- The claimed checksum bits `C` (R90). -/
def claimedBits (es : List (BitVec 16)) : Stream :=
  slice (entriesStream es) (entOfWords es.length) (csOfWords es.length)

/-- `DECODE(N, e)` (R90) over a payload of `2N` bytes. A payload of another length (no framing-legal message has one) is read as
`entryAt` says: log entry 7. -/
def decodeResponse (p : Params) (n : Nat) (pl : Bytes) : Response :=
  if n ∈ Config.wordCounts then
    let es := entriesOf n pl
    match firstMiss es with
    | some k => failureResponse .unknownWord (BitVec.ofNat 8 k)
    | none =>
      if checksumEqual (p.h256 (candidateEntropy es)) (csOfWords es.length) (claimedBits es) then successResponse (candidateEntropy es)
      else failureResponse .checksumMismatch 0
  else failureResponse .invalidWordCount 0

/-- `U_{i+1}` of the stretch (R101): `U_1` is the PRF of the salt and the block index, each later one the PRF of its
predecessor. The password is the key throughout. -/
def stretchU (p : Params) (pw salt : Bytes) : Nat → Bytes64
  | 0 => p.prf512 pw (firstMessage salt)
  | i + 1 => p.prf512 pw (stretchU p pw salt i).toList

/-- `U_1 xor .. xor U_{n+1}` (R101). -/
def stretchT (p : Params) (pw salt : Bytes) : Nat → Bytes64
  | 0 => stretchU p pw salt 0
  | i + 1 => xorBytes (stretchT p pw salt i) (stretchU p pw salt (i + 1))

/-- `Stretch(P, S)` (R101): the exclusive-or of `U_1` to `U_2048`. -/
def stretch (p : Params) (pw salt : Bytes) : Bytes64 := stretchT p pw salt 2047

/-- `DERIVE(PW, PP)` (R100). -/
def deriveResponse (p : Params) (pw pp : Bytes) : Response :=
  if p.utf8ok pw && p.utf8ok pp then successResponse (stretch p pw (saltOf pp)).toList else failureResponse .invalidEncoding 0

/-- The response of a framing-legal command and its payload. -/
def instrResponse (p : Params) (pl : Bytes) : Instr → Response
  | .encode a => encodeResponse p a.toNat pl
  | .decode a => decodeResponse p a.toNat pl
  | .derive a b => deriveResponse p (pl.take a.toNat) ((pl.drop a.toNat).take b.toNat)

/-- The response of a command message, total on messages (30_encoding.md R65): the command's function for a framing-legal
message, `IllegalCommand` for any other. -/
def messageResponse (p : Params) (m : Message) : Response :=
  if framingLegal p m then
    match decodeWord m.cw with
    | .ok i => instrResponse p m.payload i
    | .error _ => failureResponse .illegalCommand 0
  else failureResponse .illegalCommand 0

/-! ## Step counts (70_reset_and_hazards.md R170) -/

/-- The micro-steps a framing-legal command takes from its issue to RESP (R170, R87, R95, R108). -/
def instrSteps (p : Params) (pl : Bytes) : Instr → Nat
  | .encode a => if a.toNat ∈ Config.entLengths then 3 + 3 * a.toNat / 4 else 1
  | .decode a =>
    if a.toNat ∈ Config.wordCounts then
      match firstMiss (entriesOf a.toNat pl) with
      | some k => 2 + k
      | none => 2 + a.toNat
    else 1
  | .derive a b =>
    if p.utf8ok (pl.take a.toNat) && p.utf8ok ((pl.drop a.toNat).take b.toNat) then 2050 else 1

/-- The micro-steps of any message: 0 when the issue step itself responds (R170). -/
def messageSteps (p : Params) (m : Message) : Nat :=
  if framingLegal p m then
    match decodeWord m.cw with
    | .ok i => instrSteps p m.payload i
    | .error _ => 0
  else 0

end Sys2Proof.Machine
end

