-- ==== Sys2Proof/Machine/WordLayer.lean ====
section
/-! DEFINITION. The host-side word layer (43_wordlayer.md R120 to R130): not hardware, the software between words and
entries. Each operation issues one command message and reads the response of it (log entry 13). -/

namespace Sys2Proof.Machine

open Sys2Proof

/-- The Wordlist (R121): 2048 unique, non-empty, well-formed words. An argument: no source holds any list (N4). -/
structure Wordlist (p : Params) where
  word : BitVec 11 → Bytes
  unique : ∀ i j, word i = word j → i = j
  nonempty : ∀ i, word i ≠ []
  utf8 : ∀ i, p.utf8ok (word i) = true

/-- What a word operation fails with (R125 to R127, R130). -/
inductive WordError where
  | invalidEntropyLength
  | invalidWordCount
  | unknownWord (w : Bytes) (position : Nat)
  | checksumMismatch
  | invalidEncoding
  | internalInvariantViolation
  /-- A text longer than the interface allows, or a status the operation does not list (R130). -/
  | illegalCommand
deriving DecidableEq, Repr

/-- The reverse lookup `WLinv(w)` (R122): the unique index of a word, or a miss. Exact equality of bytes (R123). -/
def lookupWord {p : Params} (wl : Wordlist p) (w : Bytes) : Option (BitVec 11) :=
  ((List.range 2048).map fun i => BitVec.ofNat 11 i).find? fun i => decide (wl.word i = w)

/-- `Sentence(w)`: words joined by single spaces (R124). -/
def sentence : List Bytes → Bytes
  | [] => []
  | [w] => w
  | w :: v :: ws => w ++ Config.space :: sentence (v :: ws)

/-- The reverse of `sentence` (R124): split at every space, empty pieces kept. -/
def splitText : Bytes → List Bytes
  | [] => [[]]
  | c :: cs =>
    if c = Config.space then [] :: splitText cs
    else
      match splitText cs with
      | w :: ws => (c :: w) :: ws
      | [] => [[c]]

/-- The largest length operand a command word carries (30_encoding.md R62). -/
def maxOperand : Nat := 16383

/-- The entry of a word: its index, or `0x8000` on a miss (R125). -/
def entryOfWord {p : Params} (wl : Wordlist p) (w : Bytes) : BitVec 16 :=
  match lookupWord wl w with
  | some i => i.setWidth 16
  | none => 0x8000

/-- The two bytes of an entry, big-endian (20_memory.md R43). -/
def bytesOfEntry (e : BitVec 16) : Bytes := [e.extractLsb' 8 8, e.extractLsb' 0 8]

/-- The DECODE message of `n` entries. -/
def decodeMessage (es : List (BitVec 16)) : Message where
  cw := encodeWord (.decode (BitVec.ofNat 14 es.length))
  payload := es.flatMap bytesOfEntry

/-- The ENCODE message of an entropy. -/
def encodeMessage (e : Bytes) : Message where
  cw := encodeWord (.encode (BitVec.ofNat 14 e.length))
  payload := e

/-- The DERIVE message of a password and a passphrase. -/
def deriveMessage (pw pp : Bytes) : Message where
  cw := encodeWord (.derive (BitVec.ofNat 14 pw.length) (BitVec.ofNat 14 pp.length))
  payload := pw ++ pp

/-- `encode_words(E)` (R126). -/
def encodeWords (p : Params) (wl : Wordlist p) (e : Bytes) : Except WordError (List Bytes) :=
  if e.length ≤ maxOperand then
    let r := messageResponse p (encodeMessage e)
    if r.stat = statusCode .ok then
      .ok ((List.range (r.data.length / 2)).map fun k => wl.word (entryIndex (entryAt r.data k)))
    else if r.stat = statusCode .invalidEntropyLength then .error .invalidEntropyLength
    else if r.stat = statusCode .internalInvariantViolation then .error .internalInvariantViolation
    else .error .illegalCommand
  else .error .illegalCommand

/-- `decode_words(ws)` (R125): ill-formed text first, then the block's own order. -/
def decodeWords (p : Params) (wl : Wordlist p) (ws : List Bytes) : Except WordError Bytes :=
  if ws.all p.utf8ok then
    if ws.length ≤ maxOperand then
      let r := messageResponse p (decodeMessage (ws.map (entryOfWord wl)))
      if r.stat = statusCode .ok then .ok r.data
      else if r.stat = statusCode .invalidWordCount then .error .invalidWordCount
      else if r.stat = statusCode .unknownWord then .error (.unknownWord (ws.getD r.info.toNat []) r.info.toNat)
      else if r.stat = statusCode .checksumMismatch then .error .checksumMismatch
      else .error .illegalCommand
    else .error .illegalCommand
  else .error .invalidEncoding

/-- `derive_words(ws, pp)` (R127): an absent passphrase is the empty string. -/
def deriveWords (p : Params) (ws : List Bytes) (pp : Option Bytes) : Except WordError Bytes :=
  let pw := sentence ws
  let phrase := pp.getD []
  if pw.length ≤ maxOperand ∧ phrase.length ≤ maxOperand then
    let r := messageResponse p (deriveMessage pw phrase)
    if r.stat = statusCode .ok then .ok r.data
    else if r.stat = statusCode .invalidEncoding then .error .invalidEncoding
    else .error .illegalCommand
  else .error .illegalCommand

/-- Whether the generation flow goes on to a seed, and with which passphrase (R128: 'then optionally'). -/
inductive SeedRequest where
  | wordsOnly
  | withSeed (passphrase : Option Bytes)
deriving DecidableEq, Repr

/-- The generation flow (R128): `encode_words`, then optionally `derive_words`. DESIGN CHOICE: what becomes of the
words when deriving fails the spec leaves open, and they stand beside the error. Log entry 13. -/
def generate (p : Params) (wl : Wordlist p) (e : Bytes) (request : SeedRequest) :
    Except WordError (List Bytes × Option (Except WordError Bytes)) :=
  match encodeWords p wl e with
  | .ok ws =>
    match request with
    | .wordsOnly => .ok (ws, none)
    | .withSeed pp => .ok (ws, some (deriveWords p ws pp))
  | .error x => .error x

/-- The recovery flow (R128): decode, discard the entropy, derive. Validation first is the caller's policy (R109, C2). -/
def recover (p : Params) (wl : Wordlist p) (ws : List Bytes) (pp : Option Bytes) : Except WordError Bytes :=
  match decodeWords p wl ws with
  | .ok _ => deriveWords p ws pp
  | .error x => .error x

end Sys2Proof.Machine
end

