-- ==== Sys2Proof/Safety.lean ====
section
/-! DEFINITION. What a safe run of B39 is, the invariants of reachable states (10_state.md R34, R25; 60_exceptions.md R140,
R157) and the vocabulary of statements about runs. -/

namespace Sys2Proof.Machine

open Sys2Proof

/-- A state in which the sequencer steps (10_state.md R21: every state but the host's two). -/
def Busy (s : State) : Prop := s.st ≠ .idle ∧ s.st ≠ .resp

/-- A safe step answers a next state: the machine has no fault and no refusal (60_exceptions.md R156). -/
def SafeStep (s : State) : Prop := ∃ t, step s = .next t

/-- The host asserts no reset from here on. -/
def ResetFree (inputs : List HostInput) : Prop := ∀ x ∈ inputs, x ≠ .reset

/-- The message an input presents. -/
def offered : HostInput → Option Message
  | .issue m => some m
  | .quiet => none
  | .take => none
  | .reset => none

/-- The messages of a script, in the order the host presents them. -/
def messagesOf (inputs : List HostInput) : List Message := inputs.filterMap offered

/-- An input the host has to wait with: a message outside IDLE (30_encoding.md R72), a take outside RESP (60_exceptions.md
R147). -/
def Waits (st : SeqState) (x : HostInput) : Prop := (∃ m, x = .issue m ∧ st ≠ .idle) ∨ (x = .take ∧ st ≠ .resp)

/-- The datapath registers (10_state.md R24 to R28) are at their reset values. -/
structure DatapathZero (s : State) : Prop where
  cbs : s.cbs = Vector.replicate 264 false
  nbits : s.nbits = 0
  cur : s.cur = 0
  pos : s.pos = 0
  cnt : s.cnt = 0
  idx : s.idx = Vector.replicate 24 0
  dig : s.dig = Vector.replicate 256 false
  u : s.u = Vector.replicate 64 0
  t : s.t = Vector.replicate 64 0
  iter : s.iter = 0

/-- Every working register is at its reset value (10_state.md R31): the latches and the datapath. -/
structure WorkingZero (s : State) : Prop extends DatapathZero s where
  cw : s.cw = 0
  a : s.a = 0
  b : s.b = 0
  pl : s.pl = []
  pllen : s.pllen = 0

/-- Every response register is at its reset value (10_state.md R29, R32). -/
structure ResponseZero (s : State) : Prop where
  rv : s.rv = false
  rstat : s.rstat = 0
  rinfo : s.rinfo = 0
  rlen : s.rlen = 0
  rdata : s.rdata = Vector.replicate 64 0

/-- Every register is at its reset value: the state is the reset state but for the host's side (10_state.md R32). -/
def RegistersReset (s : State) : Prop :=
  s = { State.reset with script := s.script, issued := s.issued, obs := s.obs }

/-- The invariants of 10_state.md R34 (a) to (e) with R25, strengthened so that every step keeps them: what the registers hold
in each sequencer state. -/
structure Inv (s : State) : Prop where
  /-- R34 (a): IDLE implies every working and response register is zero. -/
  idle_clear : s.st = .idle → WorkingZero s ∧ ResponseZero s
  /-- R34 (b): RESP iff RV = 1. -/
  resp_iff_rv : s.st = .resp ↔ s.rv = true
  /-- R34 (b): in RESP every working register is zero. -/
  resp_clear : s.st = .resp → WorkingZero s
  /-- R29: the response registers are written by `Respond` alone, so outside RESP they are zero. -/
  no_response : s.st ≠ .resp → ResponseZero s
  /-- R34 (c). -/
  cbs_beyond : ∀ q, (h : q < 264) → s.nbits ≤ q → s.cbs[q] = false
  /-- R34 (d). -/
  idx_beyond : ∀ k, (h : k < 24) → s.cnt ≤ k → s.idx[k] = 0
  /-- R34 (e). -/
  nbits_le : s.nbits ≤ 264
  /-- R34 (e). -/
  cur_le : s.cur ≤ s.nbits
  /-- R34 (e). -/
  pos_le : s.pos ≤ s.cnt
  /-- R34 (e). -/
  cnt_le : s.cnt ≤ 24
  /-- R34 (e). -/
  iter_le : s.iter ≤ 2048
  /-- R34 (e). -/
  rlen_le : s.rlen ≤ 64
  /-- R29: RDATA bytes at and above RLEN are 0. -/
  rdata_beyond : ∀ j, (h : j < 64) → s.rlen ≤ j → s.rdata[j] = 0
  /-- R25: the cursor is 11 times the word position in ENC_CHUNK and DEC_GATHER. -/
  cursor : s.st = .encChunk ∨ s.st = .decGather → s.cur = 11 * s.pos
  /-- R34 (e): in DEC_GATHER CUR = NBITS. -/
  gather_cur : s.st = .decGather → s.cur = s.nbits
  /-- The first micro-step of a command finds only the latches written (R34 (f)). -/
  start_clear : s.st = .encCheck ∨ s.st = .decCheck ∨ s.st = .kdfCheck → DatapathZero s
  /-- In ENC_HASH the length check has passed (40_encode.md R81, R86). -/
  enc_hash : s.st = .encHash → s.a.toNat ∈ Config.entLengths ∧ s.nbits = 8 * s.a.toNat ∧ s.cnt = 0
  /-- In ENC_CHUNK the stream is `CNT` windows long and `CNT` is the word count of the entropy (40_encode.md R82, R86). -/
  enc_chunk : s.st = .encChunk →
    s.a.toNat ∈ Config.entLengths ∧ s.nbits = 11 * s.cnt ∧ 4 * s.cnt = 3 * s.a.toNat
  /-- In DEC_GATHER the count check has passed (41_decode.md R91). -/
  dec_gather : s.st = .decGather → s.a.toNat ∈ Config.wordCounts ∧ s.cnt = s.a.toNat
  /-- In KDF_ITER the first PRF call has been made (42_derive.md R105). -/
  kdf_iter : s.st = .kdfIter → 1 ≤ s.iter
  /-- While the sequencer steps, the latches hold a framing-legal message: `A`, `B` and `PLLEN` are what R22 and R23 say,
  the command word is that of the command in progress, and the message is the one issued. -/
  latched : Busy s →
    s.a = cwA s.cw ∧ s.b = cwB s.cw ∧ s.pllen = s.pl.length ∧
      commandAt s = (decodeWord s.cw).toOption ∧ framingLegal Config.params ⟨s.cw, s.pl⟩ = true ∧
      s.issued = some ⟨s.cw, s.pl⟩
  /-- R157: a response is owed exactly outside IDLE. -/
  owed : s.issued = none ↔ s.st = .idle
  /-- R140: RSTAT is one of the codes 0x00 to 0x05 and 0x07; 0x06 is never produced (40_encode.md R86). -/
  status : s.rstat.toNat ≤ 7 ∧ s.rstat ≠ 0x06
  /-- R67, R149: a failure carries no data. -/
  failure_empty : s.rstat ≠ 0 → s.rlen = 0
  /-- R67: RINFO is 0 except for UnknownWord, where it is at most 23. -/
  info : (s.rinfo ≠ 0 → s.rstat = 0x03) ∧ s.rinfo.toNat ≤ 23

/-- The data invariants: what the registers hold is what the command-level functions compute (00_scope.md R5; 40_encode.md
R87, 41_decode.md R95, 42_derive.md R108), and a pending response is the command-level function of the message issued. -/
structure DataInv (p : Params) (s : State) : Prop where
  /-- ENC_HASH: CBS holds the entropy (40_encode.md R81). -/
  enc_hash : s.st = .encHash → s.cbs = fill 264 false (bits s.pl)
  /-- ENC_CHUNK: CBS holds the CombinedBitStream (40_encode.md R82). -/
  enc_stream : s.st = .encChunk → s.cbs = fill 264 false (combinedStream p s.pl)
  /-- ENC_CHUNK: the first `POS` entries of IDX are the window indices (40_encode.md R83). -/
  enc_index : s.st = .encChunk → ∀ k, k < s.pos → idxAt s k = idxOfWindow (windowIndex (combinedStream p s.pl) k)
  /-- DEC_GATHER: IDX holds the entries (41_decode.md R91). -/
  dec_index : s.st = .decGather → s.idx = idxOfPayload s.pl s.cnt
  /-- DEC_GATHER: CBS holds the first `POS` indices (41_decode.md R92). -/
  dec_stream : s.st = .decGather → s.cbs = fill 264 false (entriesStream (entriesOf s.pos s.pl))
  /-- DEC_GATHER: no entry below `POS` misses (41_decode.md R92). -/
  dec_no_miss : s.st = .decGather → ∀ k, k < s.pos → entryMiss (entryAt s.pl k) = false
  /-- KDF_FIRST, KDF_ITER: both strings are well formed (42_derive.md R104). -/
  kdf_text : s.st = .kdfFirst ∨ s.st = .kdfIter →
    p.utf8ok (passwordOf s) = true ∧ p.utf8ok (passphraseOf s) = true
  /-- KDF_ITER: `U = U_ITER` (42_derive.md R108). -/
  kdf_u : s.st = .kdfIter → s.u = stretchU p (passwordOf s) (saltOf (passphraseOf s)) (s.iter - 1)
  /-- KDF_ITER: `T = U_1 xor .. xor U_ITER` (42_derive.md R108). -/
  kdf_t : s.st = .kdfIter → s.t = stretchT p (passwordOf s) (saltOf (passphraseOf s)) (s.iter - 1)
  /-- RESP: the pending response is the command-level function of the message issued. -/
  pending : s.st = .resp → ∀ m, s.issued = some m → responseOf s = messageResponse p m

/-- Every observation pair is a message and its command-level response (60_exceptions.md R157). -/
def Observed (p : Params) (s : State) : Prop := ∀ x ∈ s.obs, x.2 = messageResponse p x.1

end Sys2Proof.Machine
end

