-- ==== Sys2Proof/Certificates/Slice0/Obligations.lean ====
section
/-! DEFINITION. The statements about B39 for the provers. Each docstring names the rule of spec/ it formalises. -/

open Sys2Proof Sys2Proof.Machine

/-! ## Encoding -/

/-- 30_encoding.md R61 to R63: the decoder reads back every command from its word, every operand at every value. -/
def Obligations.DecodeOfEncodedCommandIsTheCommand : Prop :=
  ∀ i : Instr, decodeWord (encodeWord i) = .ok i

/-- 30_encoding.md R63: each word that selects a command is the word of that command, so no two words share one. -/
def Obligations.EncodeOfDecodedWordIsTheWord : Prop :=
  ∀ (w : CommandWord) (i : Instr), decodeWord w = .ok i → encodeWord i = w

/-- 30_encoding.md R63: a word selects a row iff its masked bits match, with the operands of R62 and the payload length of the
row; every other `op` selects no command. -/
def Obligations.WordSelectsRowIffMaskedBitsMatch : Prop :=
  (∀ w : CommandWord,
    ((w &&& 0xFFFFC000) = 0x10000000 ↔ decodeWord w = .ok (.encode (w.extractLsb' 0 14))) ∧
    ((w &&& 0xFFFFC000) = 0x20000000 ↔ decodeWord w = .ok (.decode (w.extractLsb' 0 14))) ∧
    ((w &&& 0xF0000000) = 0x30000000 ↔ decodeWord w = .ok (.derive (w.extractLsb' 0 14) (w.extractLsb' 14 14))) ∧
    (w.extractLsb' 28 4 ≠ 0x1#4 → w.extractLsb' 28 4 ≠ 0x2#4 → w.extractLsb' 28 4 ≠ 0x3#4 →
      ∃ e, decodeWord w = .error e)) ∧
  (∀ a : Operand, (Instr.encode a).payloadLength = a.toNat) ∧
  (∀ a : Operand, (Instr.decode a).payloadLength = 2 * a.toNat) ∧
  (∀ a b : Operand, (Instr.derive a b).payloadLength = a.toNat + b.toNat)

/-- 30_encoding.md R71: the words of the encoding examples decode to the commands they stand for, with the payload lengths of
the table. -/
def Obligations.ExampleWordsDecode : Prop :=
  (decodeWord 0x10000010 = .ok (.encode 16) ∧ (Instr.encode 16).payloadLength = 16) ∧
  (decodeWord 0x10000020 = .ok (.encode 32) ∧ (Instr.encode 32).payloadLength = 32) ∧
  (decodeWord 0x1000000F = .ok (.encode 15) ∧ (Instr.encode 15).payloadLength = 15) ∧
  (decodeWord 0x2000000C = .ok (.decode 12) ∧ (Instr.decode 12).payloadLength = 24) ∧
  (decodeWord 0x20000018 = .ok (.decode 24) ∧ (Instr.decode 24).payloadLength = 48) ∧
  (decodeWord 0x20000019 = .ok (.decode 25) ∧ (Instr.decode 25).payloadLength = 50) ∧
  (decodeWord 0x3000005D = .ok (.derive 93 0) ∧ (Instr.derive 93 0).payloadLength = 93) ∧
  (decodeWord 0x3001805D = .ok (.derive 93 6) ∧ (Instr.derive 93 6).payloadLength = 99) ∧
  decodeWord 0x00000000 = .error (.unknownOp 0) ∧ decodeWord 0x10004010 = .error (.operandBNotZero 1)

/-- 30_encoding.md R64: framing legality, for every instantiation of the parameters. -/
def Obligations.FramingLegalIffOneOfThreeForms : Prop :=
  ∀ (p : Params) (m : Message),
    framingLegal p m = true ↔
      (m.cw.extractLsb' 28 4 = 0x1#4 ∧ m.cw.extractLsb' 14 14 = 0#14 ∧
        m.payload.length = (m.cw.extractLsb' 0 14).toNat) ∨
      (m.cw.extractLsb' 28 4 = 0x2#4 ∧ m.cw.extractLsb' 14 14 = 0#14 ∧
        m.payload.length = 2 * (m.cw.extractLsb' 0 14).toNat) ∨
      (m.cw.extractLsb' 28 4 = 0x3#4 ∧ (m.cw.extractLsb' 0 14).toNat ≤ p.pwMax ∧
        (m.cw.extractLsb' 14 14).toNat ≤ p.ppMax ∧
        m.payload.length = (m.cw.extractLsb' 0 14).toNat + (m.cw.extractLsb' 14 14).toNat)

/-- 30_encoding.md R63, R64: a message is framing-legal iff its word selects a well-formed command and its payload has the
length the command announces. -/
def Obligations.FramingLegalIffDecodedCommandFits : Prop :=
  ∀ (p : Params) (m : Message),
    framingLegal p m = true ↔
      ∃ i, decodeWord m.cw = .ok i ∧ i.wellFormed p = true ∧ m.carries i = true

/-! ## The step -/

/-- 10_state.md R21, 30_encoding.md R72, R73: in IDLE a step runs the command whose word the host presents; in a working state
it runs the command in progress, after a quiet input of the host has passed. That a command's meaning is one step of it, and
how the host's inputs pass, are the model's choices (log entries 1, 5 and 9). -/
def Obligations.StepRunsDecodedCommand : Prop :=
  (∀ (s : State) (m : Message) (i : Instr),
    s.st = .idle → nextInput s = some (.issue m) → decodeWord m.cw = .ok i → step s = exec i s) ∧
  (∀ s : State, nextInput s ≠ some .reset →
    ((s.st = .encCheck ∨ s.st = .encHash ∨ s.st = .encChunk) → step s = exec (.encode s.a) (passQuiet s)) ∧
    ((s.st = .decCheck ∨ s.st = .decGather) → step s = exec (.decode s.a) (passQuiet s)) ∧
    ((s.st = .kdfCheck ∨ s.st = .kdfFirst ∨ s.st = .kdfIter) → step s = exec (.derive s.a s.b) (passQuiet s)))

/-- 30_encoding.md R73: the issue step of each command, for a presented message with its word: the message is latched and
the first check state entered when the payload fits (and DERIVE's lengths are within PW_MAX and PP_MAX), otherwise the answer
is IllegalCommand. Everything the step leaves alone is in the equation. The host's side (`script`, `issued`) is the model's
(log entries 1 and 2). -/
def Obligations.IssueLatchesLegalMessages : Prop :=
  ∀ (s : State) (pl : Bytes), s.st = .idle →
    (∀ a : Operand, nextInput s = some (.issue ⟨encodeWord (.encode a), pl⟩) →
      exec (.encode a) s = .next
        (if pl.length = a.toNat then
          { s with cw := encodeWord (.encode a), a := a, b := 0, pl := pl, pllen := pl.length, st := .encCheck,
                   script := laterInputs s, issued := some ⟨encodeWord (.encode a), pl⟩ }
        else raiseError .illegalCommand 0
          { s with script := laterInputs s, issued := some ⟨encodeWord (.encode a), pl⟩ })) ∧
    (∀ a : Operand, nextInput s = some (.issue ⟨encodeWord (.decode a), pl⟩) →
      exec (.decode a) s = .next
        (if pl.length = 2 * a.toNat then
          { s with cw := encodeWord (.decode a), a := a, b := 0, pl := pl, pllen := pl.length, st := .decCheck,
                   script := laterInputs s, issued := some ⟨encodeWord (.decode a), pl⟩ }
        else raiseError .illegalCommand 0
          { s with script := laterInputs s, issued := some ⟨encodeWord (.decode a), pl⟩ })) ∧
    (∀ a b : Operand, nextInput s = some (.issue ⟨encodeWord (.derive a b), pl⟩) →
      exec (.derive a b) s = .next
        (if a.toNat ≤ Config.params.pwMax ∧ b.toNat ≤ Config.params.ppMax ∧ pl.length = a.toNat + b.toNat then
          { s with cw := encodeWord (.derive a b), a := a, b := b, pl := pl, pllen := pl.length, st := .kdfCheck,
                   script := laterInputs s, issued := some ⟨encodeWord (.derive a b), pl⟩ }
        else raiseError .illegalCommand 0
          { s with script := laterInputs s, issued := some ⟨encodeWord (.derive a b), pl⟩ }))

/-- 30_encoding.md R73: the issue step of every message in IDLE: latch it and enter the check state of its `op` when it is
framing-legal, raise IllegalCommand otherwise. The host's side is the model's (log entries 1 and 2). -/
def Obligations.IssueStepOfEveryMessage : Prop :=
  ∀ (s : State) (m : Message), s.st = .idle → nextInput s = some (.issue m) →
    step s = .next
      (if framingLegal Config.params m = true then
        { s with
          cw := m.cw, a := m.cw.extractLsb' 0 14, b := m.cw.extractLsb' 14 14, pl := m.payload,
          pllen := m.payload.length,
          st := if m.cw.extractLsb' 28 4 = 0x1#4 then .encCheck
            else if m.cw.extractLsb' 28 4 = 0x2#4 then .decCheck else .kdfCheck,
          script := laterInputs s, issued := some m }
      else raiseError .illegalCommand 0 { s with script := laterInputs s, issued := some m })

/-- 30_encoding.md R65, R73, 60_exceptions.md R154: in IDLE a message that is not framing-legal, its word selecting a command or
not, is answered with IllegalCommand at once, and the answer is all that is left of it. The host's side is the model's (log
entries 1 and 2). -/
def Obligations.IllegalMessageAnsweredAtIssue : Prop :=
  ∀ (s : State) (m : Message),
    s.st = .idle → nextInput s = some (.issue m) → framingLegal Config.params m = false →
      step s = .next { State.reset with
        st := .resp, rv := true, rstat := 0x07, rinfo := 0, rlen := 0, rdata := Vector.replicate 64 0,
        script := laterInputs s, issued := some m, obs := s.obs }

/-- 00_scope.md R12, 10_state.md R31, 60_exceptions.md R140, R149: failure entry leaves the status, the information, no data and
every working register zero; the host's side is as it was. -/
def Obligations.FailureEntryLeavesOnlyTheStatus : Prop :=
  (∀ (k : Status) (info : BitVec 8) (s : State),
    raiseError k info s = { State.reset with
      st := .resp, rv := true, rstat := statusCode k, rinfo := info,
      script := s.script, issued := s.issued, obs := s.obs }) ∧
  statusCode .invalidEntropyLength = 0x01 ∧ statusCode .invalidWordCount = 0x02 ∧ statusCode .unknownWord = 0x03 ∧
  statusCode .checksumMismatch = 0x04 ∧ statusCode .invalidEncoding = 0x05 ∧
  statusCode .internalInvariantViolation = 0x06 ∧ statusCode .illegalCommand = 0x07

/-- 30_encoding.md R72: outside IDLE a command that is not the one in progress is not accepted, and in IDLE neither is one
whose word the host does not present: the host waits and nothing changes. That such a command is a wait is the model's
reading (log entries 5 and 18). -/
def Obligations.UnpresentedCommandWaits : Prop :=
  (∀ (a : Operand) (s : State), s.st ≠ .idle → s.st ≠ .encCheck → s.st ≠ .encHash → s.st ≠ .encChunk →
    exec (.encode a) s = .next s) ∧
  (∀ (a : Operand) (s : State), s.st ≠ .idle → s.st ≠ .decCheck → s.st ≠ .decGather → exec (.decode a) s = .next s) ∧
  (∀ (a b : Operand) (s : State), s.st ≠ .idle → s.st ≠ .kdfCheck → s.st ≠ .kdfFirst → s.st ≠ .kdfIter →
    exec (.derive a b) s = .next s) ∧
  (∀ (i : Instr) (s : State), s.st = .idle → (∀ m, nextInput s = some (.issue m) → m.cw ≠ encodeWord i) →
    exec i s = .next s)

/-- 60_exceptions.md R158 (the column 'enabled when'), 30_encoding.md R72: the host's next input is the first of its script that
does not wait; the inputs that wait before it stay. The script is the model's (log entries 1 and 9). -/
def Obligations.NextInputIsTheFirstThatDoesNotWait : Prop :=
  (∀ (s : State) (pre rest : List HostInput) (x : HostInput),
    s.script = pre ++ x :: rest → (∀ y ∈ pre, Waits s.st y) → ¬ Waits s.st x →
      nextInput s = some x ∧ laterInputs s = pre ++ rest) ∧
  (∀ s : State, (∀ y ∈ s.script, Waits s.st y) → nextInput s = none)

/-- 30_encoding.md R72, D22, 70_reset_and_hazards.md R163: outside IDLE a step accepts no message, loses none and leaves their
order: the host still presents them all, whatever else it does in that step. What lifts the wait is RESP and the host's take:
the take is performed although messages wait before it, and the next step accepts the first of them. The script is the model's
(log entries 1 and 9). -/
def Obligations.MessagePresentedWhileBusyIsHeld : Prop :=
  (∀ s : State, Inv s → s.st ≠ .idle →
    ∃ t, step s = .next t ∧ messagesOf t.script = messagesOf s.script ∧ (t.issued = s.issued ∨ t.issued = none)) ∧
  (∀ (s : State) (m : Message) (pre rest : List HostInput),
    Inv s → s.st = .resp → s.script = .issue m :: pre ++ .take :: rest → (∀ x ∈ pre, ∃ k, x = .issue k) →
      ∃ t, step s = .next t ∧ t.st = .idle ∧ t.script = .issue m :: pre ++ rest ∧
        ∃ u, step t = .next u ∧ u.st ≠ .idle ∧ u.issued = some m ∧ u.script = pre ++ rest)

/-- 60_exceptions.md R147: `take` delivers the response, clears the response registers and returns to IDLE; every other register
is as it was. Delivery is the model's record of observations (log entries 1 and 2). -/
def Obligations.TakeDeliversTheResponse : Prop :=
  ∀ (s : State) (m : Message),
    s.st = .resp → nextInput s = some .take → s.issued = some m →
      step s = .next { s with
        st := .idle, rv := false, rstat := 0, rinfo := 0, rlen := 0, rdata := Vector.replicate 64 0,
        script := laterInputs s, issued := none,
        obs := s.obs ++ [(m, ⟨s.rstat, s.rinfo, s.rdata.toList.take s.rlen⟩)] }

/-- 60_exceptions.md R147, 10_state.md R32: in a state that meets the invariants a `take` delivers the response once and leaves
the reset state. The record of observations is the model's (log entry 2). -/
def Obligations.TakeLeavesTheResetState : Prop :=
  ∀ s : State, Inv s → s.st = .resp → nextInput s = some .take →
    ∃ m, s.issued = some m ∧
      step s = .next { State.reset with
        script := laterInputs s, obs := s.obs ++ [(m, ⟨s.rstat, s.rinfo, s.rdata.toList.take s.rlen⟩)] }

/-- 60_exceptions.md R147, R156: in RESP and IDLE the block waits while the host has no input to make, and while it does nothing;
no register changes. The script is the model's (log entries 1 and 9). -/
def Obligations.HostStatesWaitUnchanged : Prop :=
  ∀ s : State, s.st = .resp ∨ s.st = .idle →
    (nextInput s = none → step s = .next s) ∧
    (nextInput s = some .quiet → step s = .next { s with script := laterInputs s })

/-- 70_reset_and_hazards.md R160: reset, in any state, leaves the reset state, abandons the command or discards the response,
and adds no observation pair; no input that waits keeps it back. That the host's own record and its other inputs survive is
the model's (log entry 14). -/
def Obligations.ResetWorksInEveryState : Prop :=
  (∀ s : State, nextInput s = some .reset →
    step s = .next { State.reset with script := laterInputs s, obs := s.obs }) ∧
  (∀ (s : State) (pre rest : List HostInput), s.script = pre ++ .reset :: rest → (∀ y ∈ pre, Waits s.st y) →
    step s = .next { State.reset with script := pre ++ rest, obs := s.obs })

/-- 10_state.md R20, R32, 70_reset_and_hazards.md R161: the values after reset, register by register. -/
def Obligations.ResetValues : Prop :=
  State.reset.st = .idle ∧ State.reset.cw = 0 ∧ State.reset.a = 0 ∧ State.reset.b = 0 ∧ State.reset.pl = [] ∧
  State.reset.pllen = 0 ∧ (∀ q, (h : q < 264) → State.reset.cbs[q] = false) ∧ State.reset.nbits = 0 ∧
  State.reset.cur = 0 ∧ State.reset.pos = 0 ∧ State.reset.cnt = 0 ∧
  (∀ k, (h : k < 24) → State.reset.idx[k] = 0) ∧ (∀ q, (h : q < 256) → State.reset.dig[q] = false) ∧
  (∀ j, (h : j < 64) → State.reset.u[j] = 0) ∧ (∀ j, (h : j < 64) → State.reset.t[j] = 0) ∧ State.reset.iter = 0 ∧
  State.reset.rv = false ∧ State.reset.rstat = 0 ∧ State.reset.rinfo = 0 ∧ State.reset.rlen = 0 ∧
  (∀ j, (h : j < 64) → State.reset.rdata[j] = 0)

/-! ## ENCODE -/

/-- 40_encode.md R81: ENC_CHECK loads the entropy most significant bit first, or answers InvalidEntropyLength. -/
def Obligations.EncCheckLoadsEntropy : Prop :=
  ∀ (x : Operand) (s : State), s.st = .encCheck →
    (s.a.toNat ∈ [16, 20, 24, 28, 32] →
      ∃ t, exec (.encode x) s = .next t ∧
        (∀ j r, j < s.a.toNat → r < 8 → (h : 8 * j + r < 264) →
          t.cbs[8 * j + r] = (s.pl.getD j 0).getLsbD (7 - r)) ∧
        (∀ q, (h : q < 264) → 8 * s.a.toNat ≤ q → t.cbs[q] = false) ∧
        t = { s with cbs := t.cbs, nbits := 8 * s.a.toNat, idx := Vector.replicate 24 0, st := .encHash }) ∧
    (s.a.toNat ∉ [16, 20, 24, 28, 32] → exec (.encode x) s = .next (raiseError .invalidEntropyLength 0 s))

/-- 40_encode.md R82: ENC_HASH hashes the entropy bytes once, inserts the first CS digest bits behind the entropy and starts
the cursor, or answers InternalInvariantViolation when the stream length is no multiple of 11. In states that meet the
invariants the hashed bytes are those the stream holds. -/
def Obligations.EncHashInsertsChecksum : Prop :=
  (∀ (x : Operand) (s : State), s.st = .encHash → s.a.toNat ∈ [16, 20, 24, 28, 32] →
    ((s.nbits + s.a.toNat / 4) % 11 = 0 →
      ∃ t, exec (.encode x) s = .next t ∧
        (∀ j, j < s.a.toNat / 4 → (h : s.nbits + j < 264) → (hd : j < 256) →
          t.cbs[s.nbits + j] = (Config.params.h256 (s.pl.take s.a.toNat))[j]) ∧
        (∀ q, (h : q < 264) → q < s.nbits ∨ s.nbits + s.a.toNat / 4 ≤ q → t.cbs[q] = s.cbs[q]) ∧
        t = { s with
          dig := Config.params.h256 (s.pl.take s.a.toNat), cbs := t.cbs, nbits := s.nbits + s.a.toNat / 4,
          cnt := (s.nbits + s.a.toNat / 4) / 11, cur := 0, pos := 0, st := .encChunk }) ∧
    ((s.nbits + s.a.toNat / 4) % 11 ≠ 0 →
      exec (.encode x) s = .next (raiseError .internalInvariantViolation 0 s))) ∧
  (∀ s : State, Inv s → DataInv Config.params s → s.st = .encHash →
    bytes (s.cbs.toList.take s.nbits) = s.pl.take s.a.toNat)

/-- 40_encode.md R86: in a state that meets the invariants ENC_HASH passes its defensive check: with `A = 4m` the stream has
`33m` bits and `3m` words. -/
def Obligations.EncHashNeverFailsInReachableStates : Prop :=
  ∀ (x : Operand) (s : State), Inv s → s.st = .encHash →
    ∃ t, exec (.encode x) s = .next t ∧ t.st = .encChunk ∧ 4 * t.nbits = 33 * s.a.toNat ∧ 4 * t.cnt = 3 * s.a.toNat

/-- 40_encode.md R83: ENC_CHUNK makes the 11 bits at the cursor the next WordIndex, first stream bit to index bit 10, miss bit
0, and moves the cursor by one window. In states that meet the invariants the window never passes the end of the stream. -/
def Obligations.EncChunkCutsOneWindow : Prop :=
  (∀ (x : Operand) (s : State), s.st = .encChunk → s.pos < s.cnt → (hc : s.cnt ≤ 24) → s.cur + 11 ≤ 264 →
    ∃ t, exec (.encode x) s = .next t ∧
      (∀ j, j < 11 → (h : s.cur + j < 264) → (hp : s.pos < 24) →
        t.idx[s.pos].getLsbD (10 - j) = s.cbs[s.cur + j]) ∧
      (∀ (hp : s.pos < 24), t.idx[s.pos].getLsbD 11 = false) ∧
      (∀ k, (h : k < 24) → k ≠ s.pos → t.idx[k] = s.idx[k]) ∧
      t = { s with idx := t.idx, cur := s.cur + 11, pos := s.pos + 1 }) ∧
  (∀ s : State, Inv s → s.st = .encChunk → s.pos < s.cnt → s.cur + 11 ≤ s.nbits)

/-- 40_encode.md R84: ENC_DONE answers OK with two bytes per word, more significant first, and clears the working state. -/
def Obligations.EncDoneRespondsWithEntries : Prop :=
  ∀ (x : Operand) (s : State), s.st = .encChunk → s.pos = s.cnt → (hc : s.cnt ≤ 24) →
    ∃ t, exec (.encode x) s = .next t ∧
      (∀ k, (hk : k < s.cnt) → (h : k < 24) → (h2 : 2 * k + 1 < 64) →
        t.rdata[2 * k] = (s.idx[k].extractLsb' 8 4).setWidth 8 ∧ t.rdata[2 * k + 1] = s.idx[k].extractLsb' 0 8) ∧
      (∀ j, (h : j < 64) → 2 * s.cnt ≤ j → t.rdata[j] = 0) ∧
      t = { State.reset with
        st := .resp, rv := true, rstat := 0, rinfo := 0, rlen := 2 * s.cnt, rdata := t.rdata, script := s.script,
        issued := s.issued, obs := s.obs }

/-- 40_encode.md R85: the byte-level form of the window equals the stream slice. -/
def Obligations.WindowOfBytesIsWindowOfStream : Prop :=
  ∀ (cbs : Vector Bool 264) (k : Nat), k ≤ 23 → windowOfBytes cbs k = uint (cbsSlice cbs (11 * k) 11)

/-- 40_encode.md R88 (a), 00_scope.md R13: the number of words of a legal entropy, two response bytes each, and the
status. -/
def Obligations.EncodeWordCount : Prop :=
  ∀ (p : Params) (l : Nat) (e : Bytes), l ∈ [16, 20, 24, 28, 32] → e.length = l →
    (encodeResponse p l e).stat = 0 ∧ (encodeResponse p l e).info = 0 ∧
      (encodeResponse p l e).data.length = 2 * (l * 8 / 32 * 3)

/-- 40_encode.md R88 (d): the first `ENT / 11` indices depend on the entropy alone. -/
def Obligations.LeadingIndicesIgnoreTheDigest : Prop :=
  ∀ (p q : Params) (e : Bytes) (k : Nat), k < 8 * e.length / 11 →
    windowIndex (combinedStream p e) k = windowIndex (combinedStream q e) k

/-! ## DECODE -/

/-- 41_decode.md R91: DEC_CHECK stores miss flag and index of every entry, big-endian, reserved bits dropped, or answers
InvalidWordCount without looking at an entry. -/
def Obligations.DecCheckLoadsEntries : Prop :=
  ∀ (x : Operand) (s : State), s.st = .decCheck →
    (s.a.toNat ∈ [12, 15, 18, 21, 24] →
      ∃ t, exec (.decode x) s = .next t ∧
        (∀ k, (h : k < 24) → k < s.a.toNat →
          t.idx[k].getLsbD 11 = (s.pl.getD (2 * k) 0).getLsbD 7 ∧
          (∀ r, r < 8 → t.idx[k].getLsbD r = (s.pl.getD (2 * k + 1) 0).getLsbD r) ∧
          (∀ r, r < 3 → t.idx[k].getLsbD (8 + r) = (s.pl.getD (2 * k) 0).getLsbD r)) ∧
        (∀ k, (h : k < 24) → s.a.toNat ≤ k → t.idx[k] = 0) ∧
        t = { s with
          cnt := s.a.toNat, idx := t.idx, cbs := Vector.replicate 264 false, nbits := 0, cur := 0, pos := 0,
          st := .decGather }) ∧
    (s.a.toNat ∉ [12, 15, 18, 21, 24] → exec (.decode x) s = .next (raiseError .invalidWordCount 0 s))

/-- 41_decode.md R92: DEC_GATHER writes the next index at the cursor, index bit 10 first, or answers UnknownWord with the
position of the missing word. In states that meet the invariants the write never passes position 263. -/
def Obligations.DecGatherAppendsOneIndex : Prop :=
  (∀ (x : Operand) (s : State), s.st = .decGather → s.pos < s.cnt → (hc : s.cnt ≤ 24) → (hp : s.pos < 24) →
    s.cur + 11 ≤ 264 →
    (s.idx[s.pos].getLsbD 11 = true → exec (.decode x) s = .next (raiseError .unknownWord (BitVec.ofNat 8 s.pos) s)) ∧
    (s.idx[s.pos].getLsbD 11 = false →
      ∃ t, exec (.decode x) s = .next t ∧
        (∀ j, j < 11 → (h : s.cur + j < 264) → t.cbs[s.cur + j] = s.idx[s.pos].getLsbD (10 - j)) ∧
        (∀ q, (h : q < 264) → q < s.cur ∨ s.cur + 11 ≤ q → t.cbs[q] = s.cbs[q]) ∧
        t = { s with cbs := t.cbs, cur := s.cur + 11, pos := s.pos + 1, nbits := s.cur + 11 })) ∧
  (∀ s : State, Inv s → s.st = .decGather → s.pos < s.cnt → s.cur + 11 ≤ 11 * s.cnt ∧ 11 * s.cnt ≤ 264)

/-- 41_decode.md R93: DEC_VERIFY hashes the candidate entropy once and answers OK with it when the CS claimed bits are the
leading digest bits, else ChecksumMismatch without it. -/
def Obligations.DecVerifyComparesChecksum : Prop :=
  ∀ (x : Operand) (s : State), s.st = .decGather → s.pos = s.cnt → s.cnt ∈ [12, 15, 18, 21, 24] →
    ∃ ec : Bytes, 8 * ec.length = 11 * s.cnt - s.cnt / 3 ∧
      bits ec = s.cbs.toList.take (11 * s.cnt - s.cnt / 3) ∧
      exec (.decode x) s = .next
        (if (Config.params.h256 ec).toList.take (s.cnt / 3) =
            (s.cbs.toList.drop (11 * s.cnt - s.cnt / 3)).take (s.cnt / 3) then
          { State.reset with
            st := .resp, rv := true, rstat := 0, rinfo := 0, rlen := ec.length, rdata := fill 64 0 ec,
            script := s.script, issued := s.issued, obs := s.obs }
        else raiseError .checksumMismatch 0 s)

/-- 41_decode.md R94: the comparison is equality of the CS leading digest bits with the CS claimed bits, position by position;
as bytes it is `(d0 >> (8 - CS)) = c`, for CS from 4 to 8. -/
def Obligations.ChecksumComparisonAsBytes : Prop :=
  ∀ (d : Vector Bool 256) (cs : Nat) (c : Stream), 4 ≤ cs → cs ≤ 8 → c.length = cs →
    (checksumEqual d cs c = true ↔ ∀ j, j < cs → d.toList.getD j false = c.getD j false) ∧
      (checksumEqual d cs c = true ↔ uint (d.toList.take 8) >>> (8 - cs) = uint c)

/-- 41_decode.md R90, 60_exceptions.md R143, R148: the first missing entry is the one reported, whatever follows it. -/
def Obligations.FirstMissIsReported : Prop :=
  ∀ (p : Params) (n k : Nat) (pl : Bytes), n ∈ [12, 15, 18, 21, 24] → k < n →
    entryMiss (entryAt pl k) = true → (∀ j, j < k → entryMiss (entryAt pl j) = false) →
      decodeResponse p n pl = ⟨0x03, BitVec.ofNat 8 k, []⟩

/-- 41_decode.md R97: flipping claimed checksum bits of a mnemonic that decodes always gives ChecksumMismatch. The CS bits are
the low bits of the last payload byte. -/
def Obligations.FlippedChecksumBitIsDetected : Prop :=
  ∀ (p : Params) (n : Nat) (front : Bytes) (last flip : Byte) (e : Bytes),
    n ∈ [12, 15, 18, 21, 24] → front.length + 1 = 2 * n → flip ≠ 0 → flip.toNat < 2 ^ (n / 3) →
    decodeResponse p n (front ++ [last]) = ⟨0x00, 0, e⟩ →
      decodeResponse p n (front ++ [last ^^^ flip]) = ⟨0x04, 0, []⟩

/-- 41_decode.md R96: decoding the entries that ENCODE returned gives the entropy back, for every digest. -/
def Obligations.DecodeOfEncodeIsTheEntropy : Prop :=
  ∀ (p : Params) (l : Nat) (e : Bytes), l ∈ [16, 20, 24, 28, 32] → e.length = l →
    decodeResponse p (3 * l / 4) (encodeResponse p l e).data = ⟨0x00, 0, e⟩

/-! ## DERIVE -/

/-- 42_derive.md R104: KDF_CHECK tests the two strings on their own and answers InvalidEncoding if either is ill formed. -/
def Obligations.KdfCheckTestsBothTexts : Prop :=
  ∀ (x y : Operand) (s : State), s.st = .kdfCheck →
    exec (.derive x y) s = .next
      (if Config.params.utf8ok (s.pl.take s.a.toNat) = true ∧
          Config.params.utf8ok ((s.pl.drop s.a.toNat).take s.b.toNat) = true
      then { s with st := .kdfFirst } else raiseError .invalidEncoding 0 s)

/-- 42_derive.md R105, R102: KDF_FIRST makes the first PRF call, over the prefix, the passphrase and the block index. -/
def Obligations.KdfFirstMakesTheFirstCall : Prop :=
  ∀ (x y : Operand) (s : State), s.st = .kdfFirst →
    exec (.derive x y) s = .next
      { s with
        u := Config.params.prf512 (s.pl.take s.a.toNat)
          ([0x6D, 0x6E, 0x65, 0x6D, 0x6F, 0x6E, 0x69, 0x63] ++ (s.pl.drop s.a.toNat).take s.b.toNat ++ [0, 0, 0, 1]),
        t := Config.params.prf512 (s.pl.take s.a.toNat)
          ([0x6D, 0x6E, 0x65, 0x6D, 0x6F, 0x6E, 0x69, 0x63] ++ (s.pl.drop s.a.toNat).take s.b.toNat ++ [0, 0, 0, 1]),
        iter := 1, st := .kdfIter }

/-- 42_derive.md R106: KDF_ITER makes one further PRF call over U and adds it into T byte by byte. -/
def Obligations.KdfIterMakesOneCall : Prop :=
  ∀ (x y : Operand) (s : State), s.st = .kdfIter → s.iter < 2048 →
    ∃ t, exec (.derive x y) s = .next t ∧ t.u = Config.params.prf512 (s.pl.take s.a.toNat) s.u.toList ∧
      (∀ j, (h : j < 64) → t.t[j] = s.t[j] ^^^ t.u[j]) ∧ t = { s with u := t.u, t := t.t, iter := s.iter + 1 }

/-- 42_derive.md R107: KDF_DONE answers OK with the 64 bytes of T and clears the working state. -/
def Obligations.KdfDoneRespondsWithSeed : Prop :=
  ∀ (x y : Operand) (s : State), s.st = .kdfIter → s.iter = 2048 →
    exec (.derive x y) s = .next { State.reset with
      st := .resp, rv := true, rstat := 0, rinfo := 0, rlen := 64, rdata := s.t, script := s.script, issued := s.issued,
      obs := s.obs }

/-- 42_derive.md R101, 95_test_vectors.md V-S2: under a constant PRF the stretch is an even number of equal terms, so zero. -/
def Obligations.StretchOfConstantPrfIsZero : Prop :=
  ∀ (p : Params) (c : Bytes64) (pw salt : Bytes), (∀ k m, p.prf512 k m = c) →
    stretch p pw salt = Vector.replicate 64 0

/-! ## Frames and whole-machine rules -/

/-- 10_state.md R22, R23, R29: a micro-step that does not respond leaves the latches, the response registers and the host's
side as they were. -/
def Obligations.MicroStepsKeepLatchesAndResponse : Prop :=
  ∀ (i : Instr) (s t : State), s.st ≠ .idle → exec i s = .next t → t.st ≠ .resp →
    t.cw = s.cw ∧ t.a = s.a ∧ t.b = s.b ∧ t.pl = s.pl ∧ t.pllen = s.pllen ∧ t.rv = s.rv ∧ t.rstat = s.rstat ∧
      t.rinfo = s.rinfo ∧ t.rlen = s.rlen ∧ t.rdata = s.rdata ∧ t.script = s.script ∧ t.issued = s.issued ∧ t.obs = s.obs

/-- 10_state.md R24 to R28 (the columns 'written by' of R20): each datapath leaves the registers of the others alone, unless
the step responds. -/
def Obligations.DatapathsKeepEachOthersRegisters : Prop :=
  (∀ (a : Operand) (s t : State), s.st ≠ .idle → exec (.encode a) s = .next t → t.st ≠ .resp →
    t.u = s.u ∧ t.t = s.t ∧ t.iter = s.iter) ∧
  (∀ (a : Operand) (s t : State), s.st ≠ .idle → exec (.decode a) s = .next t → t.st ≠ .resp →
    t.u = s.u ∧ t.t = s.t ∧ t.iter = s.iter ∧ t.dig = s.dig) ∧
  (∀ (a b : Operand) (s t : State), s.st ≠ .idle → exec (.derive a b) s = .next t → t.st ≠ .resp →
    t.cbs = s.cbs ∧ t.nbits = s.nbits ∧ t.cur = s.cur ∧ t.pos = s.pos ∧ t.cnt = s.cnt ∧ t.idx = s.idx ∧ t.dig = s.dig)

/-- 20_memory.md R54, 10_state.md R33: outside IDLE what a command's step does to the registers does not depend on the host's
side. -/
def Obligations.SequencerIgnoresTheHostSide : Prop :=
  ∀ (i : Instr) (s t : State) (script : List HostInput) (issued : Option Message) (obs : List (Message × Response)),
    s.st ≠ .idle → exec i s = .next t →
      exec i { s with script := script, issued := issued, obs := obs } =
        .next { t with script := script, issued := issued, obs := obs }

/-- 10_state.md R29: what the host observes grows only by a take, in RESP, by the one pair that holds the response
registers. The record of observations is the model's (log entry 2). -/
def Obligations.OnlyTakeIsObserved : Prop :=
  ∀ s t : State, step s = .next t →
    t.obs = s.obs ∨
      (s.st = .resp ∧ ∃ m, nextInput s = some .take ∧ s.issued = some m ∧
        t.obs = s.obs ++ [(m, ⟨s.rstat, s.rinfo, s.rdata.toList.take s.rlen⟩)])

/-- 10_state.md R21: the transitions are those of the table, with a wait in the host's two states; reset leads to IDLE. The waits
are the model's stutter steps (log entry 9). -/
def Obligations.TransitionsAreThoseOfTheTable : Prop :=
  ∀ s t : State, step s = .next t →
    nextInput s = some .reset ∧ t.st = .idle ∨
    (s.st, t.st) ∈
      [(.idle, .encCheck), (.idle, .decCheck), (.idle, .kdfCheck), (.idle, .resp), (.encCheck, .encHash),
       (.encCheck, .resp), (.encHash, .encChunk), (.encHash, .resp), (.encChunk, .encChunk), (.encChunk, .resp),
       (.decCheck, .decGather), (.decCheck, .resp), (.decGather, .decGather), (.decGather, .resp),
       (.kdfCheck, .kdfFirst), (.kdfCheck, .resp), (.kdfFirst, .kdfIter), (.kdfIter, .kdfIter), (.kdfIter, .resp),
       (.resp, .idle), (.idle, .idle), (.resp, .resp)]

/-- 10_state.md R32, R34, 60_exceptions.md R140: the invariants hold at reset. -/
def Obligations.InvariantsHoldAtReset : Prop :=
  Inv State.reset ∧ DataInv Config.params State.reset ∧ Observed Config.params State.reset

/-- 10_state.md R34, R25, 40_encode.md R86, 60_exceptions.md R140: every step keeps the invariants of the registers. -/
def Obligations.StepKeepsInvariants : Prop :=
  ∀ s t : State, Inv s → step s = .next t → Inv t

/-- 00_scope.md R5, 40_encode.md R87, 41_decode.md R95, 42_derive.md R108: every step keeps the data invariants: the registers hold
what the command-level functions compute, and a pending response is the command-level function of its message. -/
def Obligations.StepKeepsDataInvariants : Prop :=
  ∀ s t : State, Inv s → DataInv Config.params s → step s = .next t → DataInv Config.params t

/-- 60_exceptions.md R157: every step keeps the invariant that each observation pair is a message and the command-level
function of it. -/
def Obligations.StepKeepsObservationsCorrect : Prop :=
  ∀ s t : State, Inv s → DataInv Config.params s → Observed Config.params s → step s = .next t →
    Observed Config.params t

/-- 60_exceptions.md R156: in a state that meets the invariants the step answers a next state: no fault, no refusal. -/
def Obligations.NoFaultInReachableStates : Prop :=
  ∀ s : State, Inv s → SafeStep s

/-- 70_reset_and_hazards.md R170, 40_encode.md R87, 41_decode.md R95, 42_derive.md R108: from IDLE a message is answered by the
response of its command-level function, after the issue step and exactly the number of micro-steps of R170. The host's
inputs are the model's script (log entry 1). -/
def Obligations.MessageAnsweredByCommandLevelFunction : Prop :=
  ∀ (s : State) (m : Message),
    Inv s → s.st = .idle → nextInput s = some (.issue m) → ResetFree (laterInputs s) →
      (∃ t : State, Host.Core.run core (1 + messageSteps Config.params m) s = .next t ∧ t.st = .resp ∧
        t.issued = some m ∧ t.obs = s.obs ∧ responseOf t = messageResponse Config.params m) ∧
      (∀ j, j < messageSteps Config.params m → ∃ t : State, Host.Core.run core (1 + j) s = .next t ∧ Busy t)

/-- 70_reset_and_hazards.md R170: the step counts, command by command, of every message: 0 for one that is not framing-legal. -/
def Obligations.StepCountsOfTheTable : Prop :=
  ∀ (p : Params) (m : Message),
    (framingLegal p m = false → messageSteps p m = 0) ∧
    (∀ a : Operand, framingLegal p m = true → decodeWord m.cw = .ok (.encode a) →
      (a.toNat ∉ [16, 20, 24, 28, 32] → messageSteps p m = 1) ∧
      (a = 16 → messageSteps p m = 15) ∧ (a = 20 → messageSteps p m = 18) ∧ (a = 24 → messageSteps p m = 21) ∧
      (a = 28 → messageSteps p m = 24) ∧ (a = 32 → messageSteps p m = 27)) ∧
    (∀ a : Operand, framingLegal p m = true → decodeWord m.cw = .ok (.decode a) →
      (a.toNat ∉ [12, 15, 18, 21, 24] → messageSteps p m = 1) ∧
      (∀ k, a.toNat ∈ [12, 15, 18, 21, 24] → k < a.toNat → entryMiss (entryAt m.payload k) = true →
        (∀ j, j < k → entryMiss (entryAt m.payload j) = false) → messageSteps p m = 2 + k) ∧
      (a.toNat ∈ [12, 15, 18, 21, 24] → (∀ j, j < a.toNat → entryMiss (entryAt m.payload j) = false) →
        messageSteps p m = 2 + a.toNat)) ∧
    (∀ a b : Operand, framingLegal p m = true → decodeWord m.cw = .ok (.derive a b) →
      messageSteps p m =
        if p.utf8ok (m.payload.take a.toNat) = true ∧ p.utf8ok ((m.payload.drop a.toNat).take b.toNat) = true
        then 2050 else 1)

/-- 70_reset_and_hazards.md R170, 60_exceptions.md R156: from every working state that meets the invariants RESP is reached
within 2050 steps. -/
def Obligations.EveryCommandReachesResp : Prop :=
  ∀ s : State, Inv s → Busy s → ResetFree s.script →
    ∃ (n : Nat) (t : State), n ≤ 2050 ∧ Host.Core.run core n s = .next t ∧ t.st = .resp

/-- 60_exceptions.md R157: the observation of a reset-free run is determined by the messages alone: whatever the order in which
the host offers its messages, its takes (one for each message) and its pauses, message by message it observes the command-level
function, and the run ends in the reset state with every message answered. The script and the record are the model's (log
entries 1 and 2). -/
def Obligations.ObservationIsTheCommandLevelFunction : Prop :=
  ∀ s : State, Inv s → s.st = .idle → ResetFree s.script → (messagesOf s.script).length ≤ s.script.count .take →
    ∃ (n : Nat) (t : State), Host.Core.run core n s = .next t ∧ messagesOf t.script = [] ∧
      t = { State.reset with
        script := t.script,
        obs := s.obs ++ (messagesOf s.script).map fun m => (m, messageResponse Config.params m) }

/-! ## The word layer

Host software (43_wordlayer.md R120), modelled as functions over the command-level functions (log entry 13). -/

/-- 43_wordlayer.md R122: the reverse lookup finds the index of every word of the list and misses every other word. -/
def Obligations.LookupInvertsTheWordlist : Prop :=
  ∀ (p : Params) (wl : Wordlist p),
    (∀ i, lookupWord wl (wl.word i) = some i) ∧ (∀ w, (∀ i, wl.word i ≠ w) → lookupWord wl w = none)

/-- 43_wordlayer.md R129: decoding the words of an encoded entropy of a legal length gives the entropy back, and there are
`3 |E| / 4` words. -/
def Obligations.DecodeWordsOfEncodeWords : Prop :=
  ∀ (p : Params) (wl : Wordlist p) (e : Bytes), e.length ∈ [16, 20, 24, 28, 32] →
    ∃ ws, encodeWords p wl e = .ok ws ∧ ws.length = 3 * e.length / 4 ∧ decodeWords p wl ws = .ok e

/-- 43_wordlayer.md R125: a word that is not on the list fails with UnknownWord and its position, when the words are well
formed, the count is legal and no earlier word misses. -/
def Obligations.UnknownWordNamesWordAndPosition : Prop :=
  ∀ (p : Params) (wl : Wordlist p) (ws : List Bytes) (k : Nat),
    ws.length ∈ [12, 15, 18, 21, 24] → ws.all p.utf8ok = true → k < ws.length →
    lookupWord wl (ws.getD k []) = none → (∀ j, j < k → lookupWord wl (ws.getD j []) ≠ none) →
      decodeWords p wl ws = .error (.unknownWord (ws.getD k []) k)

/-- 43_wordlayer.md R125, R126, R129: an entropy of an illegal length fails with InvalidEntropyLength, and well-formed words of
an illegal number with InvalidWordCount, whatever the words are. -/
def Obligations.IllegalLengthsFailInTheWordLayer : Prop :=
  ∀ (p : Params) (wl : Wordlist p),
    (∀ e : Bytes, e.length ≤ 16383 → e.length ∉ [16, 20, 24, 28, 32] →
      encodeWords p wl e = .error .invalidEntropyLength) ∧
    (∀ ws : List Bytes, ws.length ≤ 16383 → ws.length ∉ [12, 15, 18, 21, 24] → ws.all p.utf8ok = true →
      decodeWords p wl ws = .error .invalidWordCount) ∧
    (∀ ws : List Bytes, ws.all p.utf8ok = false → decodeWords p wl ws = .error .invalidEncoding)

/-- 43_wordlayer.md R127, 42_derive.md R109: deriving checks neither the words nor their number: well-formed text within
the bounds gives the stretch of the sentence. -/
def Obligations.DeriveWordsDoesNotValidate : Prop :=
  ∀ (p : Params) (ws : List Bytes) (pp : Option Bytes),
    p.wellFormed = true → (sentence ws).length ≤ p.pwMax → (pp.getD []).length ≤ p.ppMax →
    p.utf8ok (sentence ws) = true → p.utf8ok (pp.getD []) = true →
      deriveWords p ws pp = .ok (stretch p (sentence ws) (saltOf (pp.getD []))).toList

/-- 43_wordlayer.md R124: splitting a sentence of words without spaces gives the words back. -/
def Obligations.SplitTextInvertsSentence : Prop :=
  ∀ ws : List Bytes, ws ≠ [] → (∀ w ∈ ws, (0x20 : Byte) ∉ w) → splitText (sentence ws) = ws

/-- 43_wordlayer.md R128: generation is `encode_words` and then, if asked for, `derive_words` of its words. That the words stand
beside the error when deriving fails is the model's choice, R128 is silent on it (log entry 13). Recovery from those words, validation first, is the same `derive_words`. An entropy that does not encode ends
the flow with the error of `encode_words`. -/
def Obligations.GenerationThenRecovery : Prop :=
  ∀ (p : Params) (wl : Wordlist p),
    (∀ e : Bytes, e.length ∈ [16, 20, 24, 28, 32] →
      ∃ ws, encodeWords p wl e = .ok ws ∧ generate p wl e .wordsOnly = .ok (ws, none) ∧
        ∀ pp, generate p wl e (.withSeed pp) = .ok (ws, some (deriveWords p ws pp)) ∧
          recover p wl ws pp = deriveWords p ws pp) ∧
    (∀ e : Bytes, e.length ≤ 16383 → e.length ∉ [16, 20, 24, 28, 32] →
      ∀ request, generate p wl e request = .error .invalidEntropyLength)
end

