-- ==== Sys2Proof/Laws/Decode.lean ====
section
/-! SUPPORT. Laws of command-word fields, the decoder and framing (30_encoding.md R61 to R64). -/

namespace Sys2Proof

theorem cwOp_cwAssemble (op : BitVec 4) (b a : Operand) : cwOp (cwAssemble op b a) = op := by
  apply BitVec.eq_of_getLsbD_eq
  intro i hi
  simp only [cwOp, cwAssemble, BitVec.getLsbD_extractLsb', BitVec.getLsbD_append]
  rw [if_neg (by omega), if_neg (by omega)]
  have h : 28 + i - 14 - 14 = i := by omega
  simp [hi, h]

theorem cwB_cwAssemble (op : BitVec 4) (b a : Operand) : cwB (cwAssemble op b a) = b := by
  apply BitVec.eq_of_getLsbD_eq
  intro i hi
  simp only [cwB, cwAssemble, BitVec.getLsbD_extractLsb', BitVec.getLsbD_append]
  have h : 14 + i - 14 = i := by omega
  simp [hi, h]

theorem cwA_cwAssemble (op : BitVec 4) (b a : Operand) : cwA (cwAssemble op b a) = a := by
  apply BitVec.eq_of_getLsbD_eq
  intro i hi
  simp only [cwA, cwAssemble, BitVec.getLsbD_extractLsb', BitVec.getLsbD_append]
  simp [hi]

/-- A word is its three fields (R61). -/
theorem cwAssemble_fields (w : CommandWord) : cwAssemble (cwOp w) (cwB w) (cwA w) = w := by
  apply BitVec.eq_of_getLsbD_eq
  intro i hi
  simp only [cwOp, cwB, cwA, cwAssemble, BitVec.getLsbD_extractLsb', BitVec.getLsbD_append]
  split
  · simp [*]
  · split
    · have h1 : i - 14 < 14 := by omega
      have h2 : 14 + (i - 14) = i := by omega
      simp [h1, h2]
    · have h1 : i - 14 - 14 < 4 := by omega
      have h2 : 28 + (i - 14 - 14) = i := by omega
      simp [h1, h2]

/-- The bound check is the order of naturals. -/
theorem lengthFits_iff (n m : Nat) : lengthFits n m = true ↔ n ≤ m := by
  cases n with
  | zero => simp [lengthFits]
  | succ n => rw [lengthFits, decide_eq_true_eq]; omega

/-- What a word that decodes says of its fields (R63): one case per row. -/
theorem decodeWord_cases {w : CommandWord} {i : Instr} (h : decodeWord w = .ok i) :
    (cwOp w = 0x1#4 ∧ cwB w = 0 ∧ i = .encode (cwA w)) ∨ (cwOp w = 0x2#4 ∧ cwB w = 0 ∧ i = .decode (cwA w)) ∨
      (cwOp w = 0x3#4 ∧ i = .derive (cwA w) (cwB w)) := by
  unfold decodeWord at h
  split at h
  · split at h
    · exact .inl ⟨‹_›, ‹_›, (Except.ok.inj h).symm⟩
    · cases h
  · split at h
    · split at h
      · exact .inr (.inl ⟨‹_›, ‹_›, (Except.ok.inj h).symm⟩)
      · cases h
    · split at h
      · exact .inr (.inr ⟨‹_›, (Except.ok.inj h).symm⟩)
      · cases h

theorem decodeWord_op1 {w : CommandWord} (h : cwOp w = 0x1#4) (hb : cwB w = 0) :
    decodeWord w = .ok (.encode (cwA w)) := by simp [decodeWord, h, hb]

theorem decodeWord_op2 {w : CommandWord} (h : cwOp w = 0x2#4) (hb : cwB w = 0) :
    decodeWord w = .ok (.decode (cwA w)) := by simp [decodeWord, h, hb]

theorem decodeWord_op3 {w : CommandWord} (h : cwOp w = 0x3#4) :
    decodeWord w = .ok (.derive (cwA w) (cwB w)) := by simp [decodeWord, h]

/-- What a framing-legal message says of its fields (R64): one case per line. -/
theorem framingLegal_cases {p : Params} {m : Message} (h : framingLegal p m = true) :
    (cwOp m.cw = 0x1#4 ∧ cwB m.cw = 0 ∧ m.payload.length = (cwA m.cw).toNat) ∨
    (cwOp m.cw = 0x2#4 ∧ cwB m.cw = 0 ∧ m.payload.length = 2 * (cwA m.cw).toNat) ∨
    (cwOp m.cw = 0x3#4 ∧ (cwA m.cw).toNat ≤ p.pwMax ∧ (cwB m.cw).toNat ≤ p.ppMax ∧
      m.payload.length = (cwA m.cw).toNat + (cwB m.cw).toNat) := by
  unfold framingLegal at h
  split at h
  · exact .inl ⟨‹_›, by simpa using h⟩
  · split at h
    · exact .inr (.inl ⟨‹_›, by simpa using h⟩)
    · split at h
      · exact .inr (.inr ⟨‹_›, by simpa [lengthFits_iff, and_assoc] using h⟩)
      · cases h

end Sys2Proof
end

