-- ==== Sys2Proof/Laws/State.lean ====
section
/-! SUPPORT. One lemma per field per update of State, each true by rfl, so that no proof unfolds a record update. -/

namespace Sys2Proof.Machine

open Sys2Proof

/-! ## `Clear` (10_state.md R31) -/

@[simp] theorem clearWorking_st (s : State) : (clearWorking s).st = s.st := rfl
@[simp] theorem clearWorking_cw (s : State) : (clearWorking s).cw = 0 := rfl
@[simp] theorem clearWorking_a (s : State) : (clearWorking s).a = 0 := rfl
@[simp] theorem clearWorking_b (s : State) : (clearWorking s).b = 0 := rfl
@[simp] theorem clearWorking_pl (s : State) : (clearWorking s).pl = [] := rfl
@[simp] theorem clearWorking_pllen (s : State) : (clearWorking s).pllen = 0 := rfl
@[simp] theorem clearWorking_cbs (s : State) : (clearWorking s).cbs = Vector.replicate 264 false := rfl
@[simp] theorem clearWorking_nbits (s : State) : (clearWorking s).nbits = 0 := rfl
@[simp] theorem clearWorking_cur (s : State) : (clearWorking s).cur = 0 := rfl
@[simp] theorem clearWorking_pos (s : State) : (clearWorking s).pos = 0 := rfl
@[simp] theorem clearWorking_cnt (s : State) : (clearWorking s).cnt = 0 := rfl
@[simp] theorem clearWorking_idx (s : State) : (clearWorking s).idx = Vector.replicate 24 0 := rfl
@[simp] theorem clearWorking_dig (s : State) : (clearWorking s).dig = Vector.replicate 256 false := rfl
@[simp] theorem clearWorking_u (s : State) : (clearWorking s).u = Vector.replicate 64 0 := rfl
@[simp] theorem clearWorking_t (s : State) : (clearWorking s).t = Vector.replicate 64 0 := rfl
@[simp] theorem clearWorking_iter (s : State) : (clearWorking s).iter = 0 := rfl
@[simp] theorem clearWorking_rv (s : State) : (clearWorking s).rv = s.rv := rfl
@[simp] theorem clearWorking_rstat (s : State) : (clearWorking s).rstat = s.rstat := rfl
@[simp] theorem clearWorking_rinfo (s : State) : (clearWorking s).rinfo = s.rinfo := rfl
@[simp] theorem clearWorking_rlen (s : State) : (clearWorking s).rlen = s.rlen := rfl
@[simp] theorem clearWorking_rdata (s : State) : (clearWorking s).rdata = s.rdata := rfl
@[simp] theorem clearWorking_script (s : State) : (clearWorking s).script = s.script := rfl
@[simp] theorem clearWorking_issued (s : State) : (clearWorking s).issued = s.issued := rfl
@[simp] theorem clearWorking_obs (s : State) : (clearWorking s).obs = s.obs := rfl

/-! ## Clearing the response registers (60_exceptions.md R147) -/

@[simp] theorem clearResponse_st (s : State) : (clearResponse s).st = s.st := rfl
@[simp] theorem clearResponse_cw (s : State) : (clearResponse s).cw = s.cw := rfl
@[simp] theorem clearResponse_a (s : State) : (clearResponse s).a = s.a := rfl
@[simp] theorem clearResponse_b (s : State) : (clearResponse s).b = s.b := rfl
@[simp] theorem clearResponse_pl (s : State) : (clearResponse s).pl = s.pl := rfl
@[simp] theorem clearResponse_pllen (s : State) : (clearResponse s).pllen = s.pllen := rfl
@[simp] theorem clearResponse_cbs (s : State) : (clearResponse s).cbs = s.cbs := rfl
@[simp] theorem clearResponse_nbits (s : State) : (clearResponse s).nbits = s.nbits := rfl
@[simp] theorem clearResponse_cur (s : State) : (clearResponse s).cur = s.cur := rfl
@[simp] theorem clearResponse_pos (s : State) : (clearResponse s).pos = s.pos := rfl
@[simp] theorem clearResponse_cnt (s : State) : (clearResponse s).cnt = s.cnt := rfl
@[simp] theorem clearResponse_idx (s : State) : (clearResponse s).idx = s.idx := rfl
@[simp] theorem clearResponse_dig (s : State) : (clearResponse s).dig = s.dig := rfl
@[simp] theorem clearResponse_u (s : State) : (clearResponse s).u = s.u := rfl
@[simp] theorem clearResponse_t (s : State) : (clearResponse s).t = s.t := rfl
@[simp] theorem clearResponse_iter (s : State) : (clearResponse s).iter = s.iter := rfl
@[simp] theorem clearResponse_rv (s : State) : (clearResponse s).rv = false := rfl
@[simp] theorem clearResponse_rstat (s : State) : (clearResponse s).rstat = 0 := rfl
@[simp] theorem clearResponse_rinfo (s : State) : (clearResponse s).rinfo = 0 := rfl
@[simp] theorem clearResponse_rlen (s : State) : (clearResponse s).rlen = 0 := rfl
@[simp] theorem clearResponse_rdata (s : State) : (clearResponse s).rdata = Vector.replicate 64 0 := rfl
@[simp] theorem clearResponse_script (s : State) : (clearResponse s).script = s.script := rfl
@[simp] theorem clearResponse_issued (s : State) : (clearResponse s).issued = s.issued := rfl
@[simp] theorem clearResponse_obs (s : State) : (clearResponse s).obs = s.obs := rfl

/-! ## `Respond` (00_scope.md R12) -/

@[simp] theorem respond_st (k : Status) (info : BitVec 8) (data : Bytes) (s : State) : (respond k info data s).st = .resp := rfl
@[simp] theorem respond_cw (k : Status) (info : BitVec 8) (data : Bytes) (s : State) : (respond k info data s).cw = 0 := rfl
@[simp] theorem respond_a (k : Status) (info : BitVec 8) (data : Bytes) (s : State) : (respond k info data s).a = 0 := rfl
@[simp] theorem respond_b (k : Status) (info : BitVec 8) (data : Bytes) (s : State) : (respond k info data s).b = 0 := rfl
@[simp] theorem respond_pl (k : Status) (info : BitVec 8) (data : Bytes) (s : State) : (respond k info data s).pl = [] := rfl
@[simp] theorem respond_pllen (k : Status) (info : BitVec 8) (data : Bytes) (s : State) : (respond k info data s).pllen = 0 := rfl
@[simp] theorem respond_cbs (k : Status) (info : BitVec 8) (data : Bytes) (s : State) : (respond k info data s).cbs = Vector.replicate 264 false := rfl
@[simp] theorem respond_nbits (k : Status) (info : BitVec 8) (data : Bytes) (s : State) : (respond k info data s).nbits = 0 := rfl
@[simp] theorem respond_cur (k : Status) (info : BitVec 8) (data : Bytes) (s : State) : (respond k info data s).cur = 0 := rfl
@[simp] theorem respond_pos (k : Status) (info : BitVec 8) (data : Bytes) (s : State) : (respond k info data s).pos = 0 := rfl
@[simp] theorem respond_cnt (k : Status) (info : BitVec 8) (data : Bytes) (s : State) : (respond k info data s).cnt = 0 := rfl
@[simp] theorem respond_idx (k : Status) (info : BitVec 8) (data : Bytes) (s : State) : (respond k info data s).idx = Vector.replicate 24 0 := rfl
@[simp] theorem respond_dig (k : Status) (info : BitVec 8) (data : Bytes) (s : State) : (respond k info data s).dig = Vector.replicate 256 false := rfl
@[simp] theorem respond_u (k : Status) (info : BitVec 8) (data : Bytes) (s : State) : (respond k info data s).u = Vector.replicate 64 0 := rfl
@[simp] theorem respond_t (k : Status) (info : BitVec 8) (data : Bytes) (s : State) : (respond k info data s).t = Vector.replicate 64 0 := rfl
@[simp] theorem respond_iter (k : Status) (info : BitVec 8) (data : Bytes) (s : State) : (respond k info data s).iter = 0 := rfl
@[simp] theorem respond_rv (k : Status) (info : BitVec 8) (data : Bytes) (s : State) : (respond k info data s).rv = true := rfl
@[simp] theorem respond_rstat (k : Status) (info : BitVec 8) (data : Bytes) (s : State) : (respond k info data s).rstat = statusCode k := rfl
@[simp] theorem respond_rinfo (k : Status) (info : BitVec 8) (data : Bytes) (s : State) : (respond k info data s).rinfo = info := rfl
@[simp] theorem respond_rlen (k : Status) (info : BitVec 8) (data : Bytes) (s : State) : (respond k info data s).rlen = data.length := rfl
@[simp] theorem respond_rdata (k : Status) (info : BitVec 8) (data : Bytes) (s : State) : (respond k info data s).rdata = fill 64 0 data := rfl
@[simp] theorem respond_script (k : Status) (info : BitVec 8) (data : Bytes) (s : State) : (respond k info data s).script = s.script := rfl
@[simp] theorem respond_issued (k : Status) (info : BitVec 8) (data : Bytes) (s : State) : (respond k info data s).issued = s.issued := rfl
@[simp] theorem respond_obs (k : Status) (info : BitVec 8) (data : Bytes) (s : State) : (respond k info data s).obs = s.obs := rfl

/-! ## The host's next input used up -/

@[simp] theorem advanceHost_st (s : State) : (advanceHost s).st = s.st := rfl
@[simp] theorem advanceHost_cw (s : State) : (advanceHost s).cw = s.cw := rfl
@[simp] theorem advanceHost_a (s : State) : (advanceHost s).a = s.a := rfl
@[simp] theorem advanceHost_b (s : State) : (advanceHost s).b = s.b := rfl
@[simp] theorem advanceHost_pl (s : State) : (advanceHost s).pl = s.pl := rfl
@[simp] theorem advanceHost_pllen (s : State) : (advanceHost s).pllen = s.pllen := rfl
@[simp] theorem advanceHost_cbs (s : State) : (advanceHost s).cbs = s.cbs := rfl
@[simp] theorem advanceHost_nbits (s : State) : (advanceHost s).nbits = s.nbits := rfl
@[simp] theorem advanceHost_cur (s : State) : (advanceHost s).cur = s.cur := rfl
@[simp] theorem advanceHost_pos (s : State) : (advanceHost s).pos = s.pos := rfl
@[simp] theorem advanceHost_cnt (s : State) : (advanceHost s).cnt = s.cnt := rfl
@[simp] theorem advanceHost_idx (s : State) : (advanceHost s).idx = s.idx := rfl
@[simp] theorem advanceHost_dig (s : State) : (advanceHost s).dig = s.dig := rfl
@[simp] theorem advanceHost_u (s : State) : (advanceHost s).u = s.u := rfl
@[simp] theorem advanceHost_t (s : State) : (advanceHost s).t = s.t := rfl
@[simp] theorem advanceHost_iter (s : State) : (advanceHost s).iter = s.iter := rfl
@[simp] theorem advanceHost_rv (s : State) : (advanceHost s).rv = s.rv := rfl
@[simp] theorem advanceHost_rstat (s : State) : (advanceHost s).rstat = s.rstat := rfl
@[simp] theorem advanceHost_rinfo (s : State) : (advanceHost s).rinfo = s.rinfo := rfl
@[simp] theorem advanceHost_rlen (s : State) : (advanceHost s).rlen = s.rlen := rfl
@[simp] theorem advanceHost_rdata (s : State) : (advanceHost s).rdata = s.rdata := rfl
@[simp] theorem advanceHost_script (s : State) : (advanceHost s).script = laterInputs s := rfl
@[simp] theorem advanceHost_issued (s : State) : (advanceHost s).issued = s.issued := rfl
@[simp] theorem advanceHost_obs (s : State) : (advanceHost s).obs = s.obs := rfl

/-! ## Reset (70_reset_and_hazards.md R160) -/

@[simp] theorem hostReset_st (s : State) : (hostReset s).st = .idle := rfl
@[simp] theorem hostReset_cw (s : State) : (hostReset s).cw = 0 := rfl
@[simp] theorem hostReset_a (s : State) : (hostReset s).a = 0 := rfl
@[simp] theorem hostReset_b (s : State) : (hostReset s).b = 0 := rfl
@[simp] theorem hostReset_pl (s : State) : (hostReset s).pl = [] := rfl
@[simp] theorem hostReset_pllen (s : State) : (hostReset s).pllen = 0 := rfl
@[simp] theorem hostReset_cbs (s : State) : (hostReset s).cbs = Vector.replicate 264 false := rfl
@[simp] theorem hostReset_nbits (s : State) : (hostReset s).nbits = 0 := rfl
@[simp] theorem hostReset_cur (s : State) : (hostReset s).cur = 0 := rfl
@[simp] theorem hostReset_pos (s : State) : (hostReset s).pos = 0 := rfl
@[simp] theorem hostReset_cnt (s : State) : (hostReset s).cnt = 0 := rfl
@[simp] theorem hostReset_idx (s : State) : (hostReset s).idx = Vector.replicate 24 0 := rfl
@[simp] theorem hostReset_dig (s : State) : (hostReset s).dig = Vector.replicate 256 false := rfl
@[simp] theorem hostReset_u (s : State) : (hostReset s).u = Vector.replicate 64 0 := rfl
@[simp] theorem hostReset_t (s : State) : (hostReset s).t = Vector.replicate 64 0 := rfl
@[simp] theorem hostReset_iter (s : State) : (hostReset s).iter = 0 := rfl
@[simp] theorem hostReset_rv (s : State) : (hostReset s).rv = false := rfl
@[simp] theorem hostReset_rstat (s : State) : (hostReset s).rstat = 0 := rfl
@[simp] theorem hostReset_rinfo (s : State) : (hostReset s).rinfo = 0 := rfl
@[simp] theorem hostReset_rlen (s : State) : (hostReset s).rlen = 0 := rfl
@[simp] theorem hostReset_rdata (s : State) : (hostReset s).rdata = Vector.replicate 64 0 := rfl
@[simp] theorem hostReset_script (s : State) : (hostReset s).script = laterInputs s := rfl
@[simp] theorem hostReset_issued (s : State) : (hostReset s).issued = none := rfl
@[simp] theorem hostReset_obs (s : State) : (hostReset s).obs = s.obs := rfl

/-! ## `take` (60_exceptions.md R147) -/

@[simp] theorem take_st (s : State) : (take s).st = .idle := rfl
@[simp] theorem take_cw (s : State) : (take s).cw = s.cw := rfl
@[simp] theorem take_a (s : State) : (take s).a = s.a := rfl
@[simp] theorem take_b (s : State) : (take s).b = s.b := rfl
@[simp] theorem take_pl (s : State) : (take s).pl = s.pl := rfl
@[simp] theorem take_pllen (s : State) : (take s).pllen = s.pllen := rfl
@[simp] theorem take_cbs (s : State) : (take s).cbs = s.cbs := rfl
@[simp] theorem take_nbits (s : State) : (take s).nbits = s.nbits := rfl
@[simp] theorem take_cur (s : State) : (take s).cur = s.cur := rfl
@[simp] theorem take_pos (s : State) : (take s).pos = s.pos := rfl
@[simp] theorem take_cnt (s : State) : (take s).cnt = s.cnt := rfl
@[simp] theorem take_idx (s : State) : (take s).idx = s.idx := rfl
@[simp] theorem take_dig (s : State) : (take s).dig = s.dig := rfl
@[simp] theorem take_u (s : State) : (take s).u = s.u := rfl
@[simp] theorem take_t (s : State) : (take s).t = s.t := rfl
@[simp] theorem take_iter (s : State) : (take s).iter = s.iter := rfl
@[simp] theorem take_rv (s : State) : (take s).rv = false := rfl
@[simp] theorem take_rstat (s : State) : (take s).rstat = 0 := rfl
@[simp] theorem take_rinfo (s : State) : (take s).rinfo = 0 := rfl
@[simp] theorem take_rlen (s : State) : (take s).rlen = 0 := rfl
@[simp] theorem take_rdata (s : State) : (take s).rdata = Vector.replicate 64 0 := rfl
@[simp] theorem take_script (s : State) : (take s).script = laterInputs s := rfl
@[simp] theorem take_issued (s : State) : (take s).issued = none := rfl
@[simp] theorem take_obs (s : State) : (take s).obs = observe s := rfl

/-! ## The latches of `issue` (30_encoding.md R73) -/

@[simp] theorem latch_st (m : Message) (s : State) : (latch m s).st = entryState m.cw := rfl
@[simp] theorem latch_cw (m : Message) (s : State) : (latch m s).cw = m.cw := rfl
@[simp] theorem latch_a (m : Message) (s : State) : (latch m s).a = cwA m.cw := rfl
@[simp] theorem latch_b (m : Message) (s : State) : (latch m s).b = cwB m.cw := rfl
@[simp] theorem latch_pl (m : Message) (s : State) : (latch m s).pl = m.payload := rfl
@[simp] theorem latch_pllen (m : Message) (s : State) : (latch m s).pllen = m.payload.length := rfl
@[simp] theorem latch_cbs (m : Message) (s : State) : (latch m s).cbs = s.cbs := rfl
@[simp] theorem latch_nbits (m : Message) (s : State) : (latch m s).nbits = s.nbits := rfl
@[simp] theorem latch_cur (m : Message) (s : State) : (latch m s).cur = s.cur := rfl
@[simp] theorem latch_pos (m : Message) (s : State) : (latch m s).pos = s.pos := rfl
@[simp] theorem latch_cnt (m : Message) (s : State) : (latch m s).cnt = s.cnt := rfl
@[simp] theorem latch_idx (m : Message) (s : State) : (latch m s).idx = s.idx := rfl
@[simp] theorem latch_dig (m : Message) (s : State) : (latch m s).dig = s.dig := rfl
@[simp] theorem latch_u (m : Message) (s : State) : (latch m s).u = s.u := rfl
@[simp] theorem latch_t (m : Message) (s : State) : (latch m s).t = s.t := rfl
@[simp] theorem latch_iter (m : Message) (s : State) : (latch m s).iter = s.iter := rfl
@[simp] theorem latch_rv (m : Message) (s : State) : (latch m s).rv = s.rv := rfl
@[simp] theorem latch_rstat (m : Message) (s : State) : (latch m s).rstat = s.rstat := rfl
@[simp] theorem latch_rinfo (m : Message) (s : State) : (latch m s).rinfo = s.rinfo := rfl
@[simp] theorem latch_rlen (m : Message) (s : State) : (latch m s).rlen = s.rlen := rfl
@[simp] theorem latch_rdata (m : Message) (s : State) : (latch m s).rdata = s.rdata := rfl
@[simp] theorem latch_script (m : Message) (s : State) : (latch m s).script = s.script := rfl
@[simp] theorem latch_issued (m : Message) (s : State) : (latch m s).issued = s.issued := rfl
@[simp] theorem latch_obs (m : Message) (s : State) : (latch m s).obs = s.obs := rfl

/-! ## The hand-over of a message -/

@[simp] theorem handOver_st (m : Message) (s : State) : (handOver m s).st = s.st := rfl
@[simp] theorem handOver_cw (m : Message) (s : State) : (handOver m s).cw = s.cw := rfl
@[simp] theorem handOver_a (m : Message) (s : State) : (handOver m s).a = s.a := rfl
@[simp] theorem handOver_b (m : Message) (s : State) : (handOver m s).b = s.b := rfl
@[simp] theorem handOver_pl (m : Message) (s : State) : (handOver m s).pl = s.pl := rfl
@[simp] theorem handOver_pllen (m : Message) (s : State) : (handOver m s).pllen = s.pllen := rfl
@[simp] theorem handOver_cbs (m : Message) (s : State) : (handOver m s).cbs = s.cbs := rfl
@[simp] theorem handOver_nbits (m : Message) (s : State) : (handOver m s).nbits = s.nbits := rfl
@[simp] theorem handOver_cur (m : Message) (s : State) : (handOver m s).cur = s.cur := rfl
@[simp] theorem handOver_pos (m : Message) (s : State) : (handOver m s).pos = s.pos := rfl
@[simp] theorem handOver_cnt (m : Message) (s : State) : (handOver m s).cnt = s.cnt := rfl
@[simp] theorem handOver_idx (m : Message) (s : State) : (handOver m s).idx = s.idx := rfl
@[simp] theorem handOver_dig (m : Message) (s : State) : (handOver m s).dig = s.dig := rfl
@[simp] theorem handOver_u (m : Message) (s : State) : (handOver m s).u = s.u := rfl
@[simp] theorem handOver_t (m : Message) (s : State) : (handOver m s).t = s.t := rfl
@[simp] theorem handOver_iter (m : Message) (s : State) : (handOver m s).iter = s.iter := rfl
@[simp] theorem handOver_rv (m : Message) (s : State) : (handOver m s).rv = s.rv := rfl
@[simp] theorem handOver_rstat (m : Message) (s : State) : (handOver m s).rstat = s.rstat := rfl
@[simp] theorem handOver_rinfo (m : Message) (s : State) : (handOver m s).rinfo = s.rinfo := rfl
@[simp] theorem handOver_rlen (m : Message) (s : State) : (handOver m s).rlen = s.rlen := rfl
@[simp] theorem handOver_rdata (m : Message) (s : State) : (handOver m s).rdata = s.rdata := rfl
@[simp] theorem handOver_script (m : Message) (s : State) : (handOver m s).script = laterInputs s := rfl
@[simp] theorem handOver_issued (m : Message) (s : State) : (handOver m s).issued = some m := rfl
@[simp] theorem handOver_obs (m : Message) (s : State) : (handOver m s).obs = s.obs := rfl

/-! ## A held or quiet host input changes the script alone -/

@[simp] theorem passQuiet_st (s : State) : (passQuiet s).st = s.st := by unfold passQuiet; split <;> rfl
@[simp] theorem passQuiet_cw (s : State) : (passQuiet s).cw = s.cw := by unfold passQuiet; split <;> rfl
@[simp] theorem passQuiet_a (s : State) : (passQuiet s).a = s.a := by unfold passQuiet; split <;> rfl
@[simp] theorem passQuiet_b (s : State) : (passQuiet s).b = s.b := by unfold passQuiet; split <;> rfl
@[simp] theorem passQuiet_pl (s : State) : (passQuiet s).pl = s.pl := by unfold passQuiet; split <;> rfl
@[simp] theorem passQuiet_pllen (s : State) : (passQuiet s).pllen = s.pllen := by unfold passQuiet; split <;> rfl
@[simp] theorem passQuiet_cbs (s : State) : (passQuiet s).cbs = s.cbs := by unfold passQuiet; split <;> rfl
@[simp] theorem passQuiet_nbits (s : State) : (passQuiet s).nbits = s.nbits := by unfold passQuiet; split <;> rfl
@[simp] theorem passQuiet_cur (s : State) : (passQuiet s).cur = s.cur := by unfold passQuiet; split <;> rfl
@[simp] theorem passQuiet_pos (s : State) : (passQuiet s).pos = s.pos := by unfold passQuiet; split <;> rfl
@[simp] theorem passQuiet_cnt (s : State) : (passQuiet s).cnt = s.cnt := by unfold passQuiet; split <;> rfl
@[simp] theorem passQuiet_idx (s : State) : (passQuiet s).idx = s.idx := by unfold passQuiet; split <;> rfl
@[simp] theorem passQuiet_dig (s : State) : (passQuiet s).dig = s.dig := by unfold passQuiet; split <;> rfl
@[simp] theorem passQuiet_u (s : State) : (passQuiet s).u = s.u := by unfold passQuiet; split <;> rfl
@[simp] theorem passQuiet_t (s : State) : (passQuiet s).t = s.t := by unfold passQuiet; split <;> rfl
@[simp] theorem passQuiet_iter (s : State) : (passQuiet s).iter = s.iter := by unfold passQuiet; split <;> rfl
@[simp] theorem passQuiet_rv (s : State) : (passQuiet s).rv = s.rv := by unfold passQuiet; split <;> rfl
@[simp] theorem passQuiet_rstat (s : State) : (passQuiet s).rstat = s.rstat := by unfold passQuiet; split <;> rfl
@[simp] theorem passQuiet_rinfo (s : State) : (passQuiet s).rinfo = s.rinfo := by unfold passQuiet; split <;> rfl
@[simp] theorem passQuiet_rlen (s : State) : (passQuiet s).rlen = s.rlen := by unfold passQuiet; split <;> rfl
@[simp] theorem passQuiet_rdata (s : State) : (passQuiet s).rdata = s.rdata := by unfold passQuiet; split <;> rfl
@[simp] theorem passQuiet_issued (s : State) : (passQuiet s).issued = s.issued := by unfold passQuiet; split <;> rfl
@[simp] theorem passQuiet_obs (s : State) : (passQuiet s).obs = s.obs := by unfold passQuiet; split <;> rfl

/-- Failure entry is `Respond` with empty data (60_exceptions.md R149). -/
theorem raiseError_eq (k : Status) (info : BitVec 8) (s : State) : raiseError k info s = respond k info [] s := rfl

/-- `Clear` twice is `Clear` once. -/
@[simp] theorem clearWorking_clearWorking (s : State) : clearWorking (clearWorking s) = clearWorking s := rfl

/-- `WorkingZero` says that `Clear` would change nothing (10_state.md R31). -/
theorem workingZero_iff (s : State) : WorkingZero s ↔ clearWorking s = s := by
  constructor
  · rintro ⟨⟨h1, h2, h3, h4, h5, h6, h7, h8, h9, h10⟩, h11, h12, h13, h14, h15⟩
    cases s
    simp_all [clearWorking]
  · intro h
    rw [← h]
    exact ⟨⟨rfl, rfl, rfl, rfl, rfl, rfl, rfl, rfl, rfl, rfl⟩, rfl, rfl, rfl, rfl, rfl⟩

/-- After `Respond` every working register is zero (10_state.md R31, R34 (b)). -/
theorem workingZero_respond (k : Status) (info : BitVec 8) (data : Bytes) (s : State) :
    WorkingZero (respond k info data s) := (workingZero_iff _).mpr rfl

/-- After `take` every response register is zero (60_exceptions.md R147). -/
theorem responseZero_take (s : State) : ResponseZero (take s) := ⟨rfl, rfl, rfl, rfl, rfl⟩

end Sys2Proof.Machine
end

