-- ==== Sys2Proof/Laws/Ops.lean ====
section
/-! SUPPORT. One spec lemma per shared operation: everything it can do. -/

namespace Sys2Proof.Machine

open Sys2Proof

/-! ## The host's inputs -/

/-- The next input is enabled and stands in the script; the inputs before it are held. -/
theorem nextInput_eq_some {s : State} {x : HostInput} : nextInput s = some x ↔
    enabled s.st x = true ∧ ∃ pre rest, s.script = pre ++ x :: rest ∧ laterInputs s = pre ++ rest ∧
      ∀ y ∈ pre, enabled s.st y = false := by
  constructor
  · intro h
    obtain ⟨hx, pre, rest, hs, hp⟩ := List.find?_eq_some_iff_append.mp h
    have hp : ∀ y ∈ pre, enabled s.st y = false := fun y hy => by simpa using hp y hy
    refine ⟨hx, pre, rest, hs, ?_, hp⟩
    rw [laterInputs, hs, List.eraseP_append_right _ (fun y hy => by simp [hp y hy]), List.eraseP_cons_of_pos hx]
  · rintro ⟨hx, pre, rest, hs, _, hp⟩
    exact List.find?_eq_some_iff_append.mpr ⟨hx, pre, rest, hs, fun y hy => by simp [hp y hy]⟩

/-- A script that starts with held inputs and then an enabled one. -/
theorem nextInput_append {s : State} {pre rest : List HostInput} {x : HostInput} (hs : s.script = pre ++ x :: rest)
    (hp : ∀ y ∈ pre, enabled s.st y = false) (hx : enabled s.st x = true) :
    nextInput s = some x ∧ laterInputs s = pre ++ rest := by
  refine ⟨nextInput_eq_some.mpr ⟨hx, pre, rest, hs, ?_, hp⟩, ?_⟩ <;>
    rw [laterInputs, hs, List.eraseP_append_right _ (fun y hy => by simp [hp y hy]), List.eraseP_cons_of_pos hx]

theorem nextInput_eq_none {s : State} : nextInput s = none ↔ ∀ y ∈ s.script, enabled s.st y = false := by
  simp [nextInput]

theorem mem_of_nextInput {s : State} {x : HostInput} (h : nextInput s = some x) : x ∈ s.script := List.mem_of_find?_eq_some h

/-- Using an input up takes nothing but that input out of the script. -/
theorem mem_of_laterInputs {s : State} {x : HostInput} (h : x ∈ laterInputs s) : x ∈ s.script := List.mem_of_mem_eraseP h

theorem presented_eq_some {s : State} {m : Message} : presented s = some m ↔ nextInput s = some (.issue m) := by
  unfold presented
  split <;> simp_all

theorem takeReady_iff {s : State} : takeReady s = true ↔ nextInput s = some .take := by
  unfold takeReady
  split <;> simp_all

theorem resetAsserted_iff {s : State} : resetAsserted s = true ↔ nextInput s = some .reset := by
  unfold resetAsserted
  split <;> simp_all

/-- The command port accepts a message in IDLE alone (30_encoding.md R72). -/
theorem idle_of_presented {s : State} {m : Message} (h : presented s = some m) : s.st = .idle := by
  simpa [enabled] using (nextInput_eq_some.mp (presented_eq_some.mp h)).1

/-- A host that asserts no reset. -/
theorem resetAsserted_of_not_mem {s : State} (h : .reset ∉ s.script) : resetAsserted s = false :=
  Bool.eq_false_iff.mpr fun hr => h (mem_of_nextInput (resetAsserted_iff.mp hr))

/-- Held inputs stay, a quiet one passes: nothing but the script changes. -/
theorem passQuiet_cases (s : State) : (nextInput s ≠ some .quiet ∧ passQuiet s = s) ∨
    (nextInput s = some .quiet ∧ passQuiet s = { s with script := laterInputs s }) := by
  unfold passQuiet
  split
  · exact .inr ⟨‹_›, rfl⟩
  · rename_i h; exact .inl ⟨fun e => h e, rfl⟩

@[simp] theorem presented_passQuiet {s : State} {m : Message} (h : presented s = some m) : passQuiet s = s := by
  simp [passQuiet, presented_eq_some.mp h]

/-! ## Issue -/

/-- `issue` (30_encoding.md R73): a framing-legal message is latched, any other answers `IllegalCommand`. -/
theorem issue_cases (p : Params) (m : Message) (s : State) :
    (framingLegal p m = true ∧ issue p m s = latch m (handOver m s)) ∨
      (framingLegal p m = false ∧ issue p m s = respond .illegalCommand 0 [] (handOver m s)) := by
  cases h : framingLegal p m
  · exact .inr ⟨rfl, by simp [issue, h, raiseError_eq]⟩
  · exact .inl ⟨rfl, by simp [issue, h]⟩

/-- The issue step of a command that is the one presented. -/
theorem issueAs_presented {p : Params} {i : Instr} {m : Message} {s : State} (h : presented s = some m)
    (hm : m.cw = encodeWord i) : issueAs p i s = issue p m s := by
  simp [issueAs, h, hm]

/-- The issue step of a command that is not the one presented waits. -/
theorem issueAs_wait {p : Params} {i : Instr} {s : State} (h : ∀ m, presented s = some m → m.cw ≠ encodeWord i) :
    issueAs p i s = s := by
  unfold issueAs
  split
  · rename_i m hm; simp [h m hm]
  · rfl

/-! ## The host's step -/

/-- The host's step: deliver, answer a presented message, or wait. -/
theorem hostStep_cases (p : Params) (s : State) :
    (s.st = .resp ∧ takeReady s = true ∧ hostStep p s = take s) ∨
    (∃ m, s.st ≠ .resp ∧ presented s = some m ∧ hostStep p s = issue p m s) ∨
      (hostStep p s = passQuiet s ∧ (s.st = .resp → takeReady s = false)) := by
  unfold hostStep
  split
  · split
    · exact .inl ⟨‹_›, ‹_›, rfl⟩
    · exact .inr (.inr ⟨rfl, fun _ => Bool.eq_false_iff.mpr ‹_›⟩)
  · split
    · rename_i m hm; exact .inr (.inl ⟨m, ‹_›, hm, rfl⟩)
    · exact .inr (.inr ⟨rfl, fun h => absurd h ‹_›⟩)

/-! ## The command of the next step -/

/-- The command whose step comes next: one of the eight working states, or a presented word in IDLE. -/
theorem commandAt_cases {s : State} {i : Instr} (h : commandAt s = some i) :
    (s.st = .idle ∧ ∃ m, presented s = some m ∧ decodeWord m.cw = .ok i) ∨
    ((s.st = .encCheck ∨ s.st = .encHash ∨ s.st = .encChunk) ∧ i = .encode s.a) ∨
    ((s.st = .decCheck ∨ s.st = .decGather) ∧ i = .decode s.a) ∨
      ((s.st = .kdfCheck ∨ s.st = .kdfFirst ∨ s.st = .kdfIter) ∧ i = .derive s.a s.b) := by
  unfold commandAt at h
  split at h
  · rename_i hs
    cases hp : presented s with
    | none => simp [hp] at h
    | some m =>
      refine .inl ⟨hs, m, rfl, ?_⟩
      simp only [hp, Option.bind_some] at h
      cases hd : decodeWord m.cw with
      | error e => simp [hd, Except.toOption] at h
      | ok j => simp [hd, Except.toOption] at h; rw [h]
  all_goals simp_all

theorem commandAt_resp {s : State} (h : s.st = .resp) : commandAt s = none := by simp [commandAt, h]

/-! ## Lengths -/

/-- Concatenating `n` pieces of `k` elements gives `k * n` elements. -/
theorem flatMap_length_const {α β : Type} (k : Nat) (f : α → List β) (l : List α) (h : ∀ x ∈ l, (f x).length = k) :
    (l.flatMap f).length = k * l.length := by
  induction l with
  | nil => rfl
  | cons x xs ih =>
    rw [List.flatMap_cons, List.length_append, h x (by simp), ih (fun y hy => h y (by simp [hy])), List.length_cons,
      Nat.mul_succ, Nat.add_comm]

/-- The data of ENC_DONE has two bytes per word (40_encode.md R84). -/
theorem encodeData_length (s : State) : (encodeData s).length = 2 * s.cnt := by
  rw [encodeData, flatMap_length_const 2 _ _ (fun _ _ => rfl), List.length_range]

end Sys2Proof.Machine
end

