-- ==== Sys2Proof/Laws/Stream.lean ====
section
/-! SUPPORT. Laws of streams, bytes and fixed-size registers (00_scope.md R10, R11). -/

namespace Sys2Proof.Machine

open Sys2Proof

/-! ## Fixed-size registers -/

@[simp] theorem fill_toList {α : Type} (n : Nat) (d : α) (l : List α) :
    (fill n d l).toList = (l ++ List.replicate n d).take n := rfl

/-- A cell of a filled register. -/
theorem fill_getElem {α : Type} (n : Nat) (d : α) (l : List α) (k : Nat) (h : k < n) :
    (fill n d l)[k] = l.getD k d := by
  rw [← Vector.getElem_toList (by simpa using h)]
  simp only [fill_toList, List.getElem_take, List.getElem_append, List.getElem_replicate, List.getD_eq_getElem?_getD]
  split
  · simp [*]
  · simp only [List.getElem?_eq_none (Nat.le_of_not_lt ‹_›), Option.getD_none]

/-- An empty list fills up to the reset value. -/
theorem fill_nil {α : Type} (n : Nat) (d : α) : fill n d [] = Vector.replicate n d := by
  apply Vector.ext
  intro k h
  rw [fill_getElem, Vector.getElem_replicate]
  rfl

/-- Filling up copies of the filler gives copies of the filler. -/
theorem fill_replicate {α : Type} (n k : Nat) (d : α) : fill n d (List.replicate k d) = Vector.replicate n d := by
  apply Vector.ext
  intro j h
  rw [fill_getElem, Vector.getElem_replicate, List.getD_eq_getElem?_getD, List.getElem?_replicate]
  split <;> rfl

/-- Filling loses nothing that fits. -/
theorem fill_take {α : Type} (n : Nat) (d : α) (l : List α) (k : Nat) (hk : k ≤ l.length) (hn : k ≤ n) :
    (fill n d l).toList.take k = l.take k := by
  simp [List.take_take, Nat.min_eq_left hn, List.take_append_of_le_length hk]

/-! ## Slices -/

theorem slice_length (s : Stream) (i n : Nat) (h : i + n ≤ s.length) : (slice s i n).length = n := by
  simp [slice]; omega

theorem slice_append_left (s t : Stream) (i n : Nat) (h : i + n ≤ s.length) : slice (s ++ t) i n = slice s i n := by
  unfold slice
  rw [List.drop_append_of_le_length (by omega), List.take_append_of_le_length (by simp; omega)]

theorem slice_append_right (s t : Stream) (n : Nat) : slice (s ++ t) s.length n = t.take n := by
  simp [slice]

/-! ## uint and streamOf are inverse (R10) -/

@[simp] theorem streamOf_length (n v : Nat) : (streamOf n v).length = n := by simp [streamOf]

/-- The foldl of `uint` from any start. -/
theorem uint_foldl (t : Stream) (m : Nat) :
    t.foldl (fun n bit => 2 * n + bit.toNat) m = m * 2 ^ t.length + uint t := by
  induction t generalizing m with
  | nil => simp [uint]
  | cons x xs ih =>
    simp only [uint, List.foldl_cons, List.length_cons]
    rw [ih, ih (2 * 0 + x.toNat), Nat.pow_succ, Nat.add_mul, Nat.mul_zero, Nat.zero_add]
    have : 2 * m * 2 ^ xs.length = m * (2 ^ xs.length * 2) := by
      rw [Nat.mul_comm 2 m, Nat.mul_assoc, Nat.mul_comm 2]
    omega

theorem uint_cons (x : Bool) (xs : Stream) : uint (x :: xs) = x.toNat * 2 ^ xs.length + uint xs := by
  have := uint_foldl xs (2 * 0 + x.toNat)
  simpa [uint] using this

theorem uint_lt (t : Stream) : uint t < 2 ^ t.length := by
  induction t with
  | nil => simp [uint]
  | cons x xs ih =>
    rw [uint_cons, List.length_cons, Nat.pow_succ]
    cases x <;> simp <;> omega

theorem streamOf_succ (n v : Nat) : streamOf (n + 1) v = v.testBit n :: streamOf n v := by
  simp only [streamOf, List.range_succ_eq_map, List.map_cons, List.map_map]
  congr 1
  apply List.map_congr_left
  intro j _
  simp only [Function.comp]
  congr 1
  omega

theorem uint_streamOf (n v : Nat) : uint (streamOf n v) = v % 2 ^ n := by
  induction n with
  | zero => simp [streamOf, uint, Nat.mod_one]
  | succ n ih =>
    rw [streamOf_succ, uint_cons, ih, streamOf_length, Nat.mod_pow_succ, Nat.toNat_testBit]
    rw [Nat.mul_comm, Nat.add_comm]

theorem testBit_uint_cons (x : Bool) (xs : Stream) (k : Nat) (h : k < xs.length) :
    (uint (x :: xs)).testBit k = (uint xs).testBit k := by
  rw [uint_cons]
  cases x
  · simp
  · simp only [Bool.toNat_true, Nat.one_mul]
    rw [Nat.testBit_two_pow_add_gt h]

theorem streamOf_mod (n v w : Nat) (h : ∀ k, k < n → v.testBit k = w.testBit k) : streamOf n v = streamOf n w := by
  simp only [streamOf]
  apply List.map_congr_left
  intro j hj
  exact h _ (by simp at hj; omega)

theorem streamOf_uint (t : Stream) : streamOf t.length (uint t) = t := by
  induction t with
  | nil => rfl
  | cons x xs ih =>
    rw [List.length_cons, streamOf_succ]
    congr 1
    · rw [uint_cons]
      have := uint_lt xs
      cases x
      · simpa using Nat.testBit_lt_two_pow this
      · simp [Nat.testBit_two_pow_add_eq, Nat.testBit_lt_two_pow this]
    · rw [streamOf_mod _ _ (uint xs) (fun k hk => testBit_uint_cons x xs k hk), ih]

/-! ## bits and bytes are inverse (R11) -/

@[simp] theorem byteBits_length (b : Byte) : (byteBits b).length = 8 := rfl

theorem bits_cons (b : Byte) (bs : Bytes) : bits (b :: bs) = byteBits b ++ bits bs := rfl

@[simp] theorem bits_length (bs : Bytes) : (bits bs).length = 8 * bs.length := by
  induction bs with
  | nil => rfl
  | cons b bs ih => simp [bits_cons, ih]; omega

theorem byteBits_eq (b : Byte) : byteBits b = streamOf 8 b.toNat := rfl

theorem ofNat_uint_byteBits (b : Byte) : BitVec.ofNat 8 (uint (byteBits b)) = b := by
  rw [byteBits_eq, uint_streamOf]
  apply BitVec.eq_of_toNat_eq
  have := b.isLt
  simpa using this

theorem bytes_bits_append (bs : Bytes) (s : Stream) : bytes (bits bs ++ s) = bs ++ bytes s := by
  induction bs with
  | nil => rfl
  | cons b bs ih =>
    rw [bits_cons, List.append_assoc, List.cons_append, ← ih]
    exact congrArg (· :: bytes (bits bs ++ s)) (ofNat_uint_byteBits b)

theorem bytes_bits (bs : Bytes) : bytes (bits bs) = bs := by
  simpa [bytes] using bytes_bits_append bs []

theorem bits_append (x y : Bytes) : bits (x ++ y) = bits x ++ bits y := by simp [bits]

/-- `bits` of `bytes` of a stream of whole bytes. -/
theorem bits_bytes (n : Nat) (s : Stream) (h : s.length = 8 * n) : bits (bytes s) = s := by
  induction n generalizing s with
  | zero => cases s <;> simp_all [bytes, bits]
  | succ n ih =>
    match s, h with
    | b0 :: b1 :: b2 :: b3 :: b4 :: b5 :: b6 :: b7 :: rest, h =>
      rw [bytes, bits_cons, ih rest (by simp at h; omega), byteBits_eq]
      have hb := uint_lt [b0, b1, b2, b3, b4, b5, b6, b7]
      rw [BitVec.toNat_ofNat, Nat.mod_eq_of_lt (b := 2 ^ 8) hb]
      exact congrArg (· ++ rest) (streamOf_uint [b0, b1, b2, b3, b4, b5, b6, b7])

@[simp] theorem bytes_length (s : Stream) : (bytes s).length = s.length / 8 := by
  fun_induction bytes s with
  | case1 b0 b1 b2 b3 b4 b5 b6 b7 rest ih => simp [ih]; omega
  | case2 s h =>
    have : s.length < 8 := by
      apply Nat.lt_of_not_le
      intro hl
      match s, hl with
      | b0 :: b1 :: b2 :: b3 :: b4 :: b5 :: b6 :: b7 :: rest, _ => exact h _ _ _ _ _ _ _ _ _ rfl
    simp; omega

/-! ## CBS -/

theorem putBits_toList (s : Vector Bool 264) (i : Nat) (t : Stream) (h : i + t.length ≤ 264) :
    (putBits s i t).toList = s.toList.take i ++ t ++ s.toList.drop (i + t.length) := by
  rw [putBits, fill_toList, List.take_append_of_le_length (by simp; omega), List.take_of_length_le (by simp; omega)]

/-- Inserting at the end of a filled prefix extends the prefix. -/
theorem putBits_fill (l t : Stream) (h : l.length + t.length ≤ 264) :
    putBits (fill 264 false l) l.length t = fill 264 false (l ++ t) := by
  apply Vector.toList_inj.mp
  rw [putBits_toList _ _ _ h, fill_take _ _ _ _ (by omega) (by omega), List.take_of_length_le (Nat.le_refl _)]
  simp only [fill_toList]
  rw [List.drop_take, List.drop_append, List.drop_replicate, List.drop_of_length_le (by omega), List.nil_append,
    List.append_assoc l t, List.take_append, List.take_append, List.take_replicate, List.take_replicate]
  rw [List.take_of_length_le (l := l) (by omega), List.take_of_length_le (l := t) (by omega), List.append_assoc]
  simp only [List.length_append]
  congr 3
  omega

/-- A slice of a filled register that lies in the filled part. -/
theorem cbsSlice_fill (l : Stream) (i n : Nat) (h : i + n ≤ l.length) (hl : i + n ≤ 264) :
    cbsSlice (fill 264 false l) i n = slice l i n := by
  simp only [cbsSlice, fill_toList, slice]
  rw [List.drop_take, List.take_take, Nat.min_eq_left (by omega), List.drop_append_of_le_length (by omega),
    List.take_append_of_le_length (by simp; omega)]

/-! ## Reading a list by position, with a default -/

theorem getD_append_left {α : Type} (l m : List α) (d : α) (n : Nat) (h : n < l.length) :
    (l ++ m).getD n d = l.getD n d := by
  simp [List.getD_eq_getElem?_getD, List.getElem?_append_left h]

theorem getD_append_right {α : Type} (l m : List α) (d : α) (n : Nat) (h : l.length ≤ n) :
    (l ++ m).getD n d = m.getD (n - l.length) d := by
  simp [List.getD_eq_getElem?_getD, List.getElem?_append_right h]

/-- Concatenated pairs: elements `2k` and `2k + 1` are those of pair `k`. -/
theorem getD_flatMap_pair {α β : Type} (d : β) (l : List α) (f : α → List β) (hf : ∀ x, (f x).length = 2) (k : Nat)
    (hk : k < l.length) :
    (l.flatMap f).getD (2 * k) d = (f l[k]).getD 0 d ∧ (l.flatMap f).getD (2 * k + 1) d = (f l[k]).getD 1 d := by
  induction l generalizing k with
  | nil => simp at hk
  | cons x xs ih =>
    rw [List.flatMap_cons]
    cases k with
    | zero => constructor <;> rw [getD_append_left _ _ _ _ (by simp [hf])] <;> rfl
    | succ k =>
      have h := ih k (by simpa using hk)
      constructor <;> rw [getD_append_right _ _ _ _ (by rw [hf]; omega), hf]
      · rw [show 2 * (k + 1) - 2 = 2 * k by omega]; simpa using h.1
      · rw [show 2 * (k + 1) + 1 - 2 = 2 * k + 1 by omega]; simpa using h.2

/-- Bit `8j + r` of a byte string is bit `7 - r` of byte `j` (R11). -/
theorem getD_bits (bs : Bytes) (j r : Nat) (hr : r < 8) :
    (bits bs).getD (8 * j + r) false = (bs.getD j 0).getLsbD (7 - r) := by
  induction bs generalizing j with
  | nil => simp [bits]
  | cons b bs ih =>
    rw [bits_cons]
    cases j with
    | zero =>
      rw [getD_append_left _ _ _ _ (by simp; omega)]
      simp [byteBits, hr, List.getD_eq_getElem?_getD]
    | succ j =>
      rw [getD_append_right _ _ _ _ (by simp; omega), byteBits_length, show 8 * (j + 1) + r - 8 = 8 * j + r by omega, ih]
      simp

/-! ## More of uint -/

theorem uint_append (s t : Stream) : uint (s ++ t) = uint s * 2 ^ t.length + uint t := by
  rw [← uint_foldl t (uint s)]
  simp [uint, List.foldl_append]

/-- The value of a slice is a shift and a remainder of the value of the stream. -/
theorem uint_slice (s : Stream) (i n : Nat) (h : i + n ≤ s.length) :
    uint (slice s i n) = (uint s >>> (s.length - i - n)) % 2 ^ n := by
  have hs : s = s.take i ++ (slice s i n ++ (s.drop i).drop n) := by
    unfold slice; rw [List.take_append_drop, List.take_append_drop]
  have hl := slice_length s i n h
  have hk : ((s.drop i).drop n).length = s.length - i - n := by simp; omega
  rw [← hk]
  have hu : uint s = uint (s.take i) * 2 ^ (n + ((s.drop i).drop n).length) +
      (uint (slice s i n) * 2 ^ ((s.drop i).drop n).length + uint ((s.drop i).drop n)) := by
    conv => lhs; rw [hs]
    rw [uint_append, uint_append, List.length_append, hl]
  rw [hu, Nat.shiftRight_eq_div_pow, Nat.pow_add]
  have h1 := uint_lt ((s.drop i).drop n)
  have h2 := uint_lt (slice s i n)
  rw [hl] at h2
  generalize uint ((s.drop i).drop n) = c at *
  generalize uint (slice s i n) = b at *
  generalize uint (List.take i s) = a at *
  have hp : 0 < 2 ^ ((s.drop i).drop n).length := Nat.two_pow_pos _
  generalize 2 ^ ((s.drop i).drop n).length = K at *
  have hc : a * (2 ^ n * K) + (b * K + c) = c + (b + a * 2 ^ n) * K := by
    rw [Nat.add_mul, ← Nat.mul_assoc]; omega
  rw [hc, Nat.add_mul_div_right _ _ hp, Nat.div_eq_of_lt h1, Nat.zero_add, Nat.add_mul_mod_self_right,
    Nat.mod_eq_of_lt h2]

/-- Bit `n - 1 - j` of the value of a stream of `n` bits is stream position `j`. -/
theorem testBit_uint (t : Stream) (j : Nat) (h : j < t.length) : (uint t).testBit (t.length - 1 - j) = t[j] := by
  have hj : (streamOf t.length (uint t))[j]'(by simpa using h) = t[j] := by simp [streamOf_uint t]
  simpa [streamOf] using hj

/-- The 11-bit windows of a stream of `n` windows, one after another, are the stream. -/
theorem flatMap_slices (s : Stream) (n : Nat) (h : s.length = 11 * n) :
    (List.range n).flatMap (fun k => slice s (11 * k) 11) = s := by
  induction n generalizing s with
  | zero => simp at h; simp [h]
  | succ n ih =>
    have hr : (List.range n).flatMap (fun a => slice s (11 * (a + 1)) 11) = s.drop 11 := by
      conv => rhs; rw [← ih (s.drop 11) (by simp; omega)]
      congr 1; funext k; simp [slice, List.drop_drop]; congr 2; omega
    rw [List.range_succ_eq_map, List.flatMap_cons, List.flatMap_map]
    simp only [Nat.succ_eq_add_one]
    rw [hr]; simp [slice]

/-- A cell of CBS after an insertion: outside the window as before, inside it the inserted bit (10_state.md R24). -/
theorem putBits_getElem (s : Vector Bool 264) (i : Nat) (t : Stream) (q : Nat) (h : q < 264) :
    (q < i ∨ i + t.length ≤ q → (putBits s i t)[q] = s[q]) ∧
      (∀ j, (hj : j < t.length) → q = i + j → (putBits s i t)[q] = t[j]) := by
  have hl : s.toList.length = 264 := by simp
  have hs : s[q] = s.toList[q] := by simp
  constructor
  · rintro (hq | hq)
    · rw [putBits, fill_getElem, List.append_assoc, getD_append_left _ _ _ _ (by simp; omega), hs]
      simp [List.getD_eq_getElem?_getD, hq, h]
    · rw [putBits, fill_getElem, getD_append_right _ _ _ _ (by simp; omega), hs]
      simp [List.getD_eq_getElem?_getD, Nat.min_eq_left (show i ≤ 264 by omega),
        show i + t.length + (q - (i + t.length)) = q by omega, h]
  · rintro j hj rfl
    have hr : (s.toList.take i).length ≤ i + j := Nat.le_trans (List.length_take_le ..) (Nat.le_add_right ..)
    have hl : i + j < (s.toList.take i ++ t).length := by
      rw [List.length_append, List.length_take_of_le (by omega)]; omega
    rw [putBits, fill_getElem, getD_append_left _ _ _ _ hl, getD_append_right _ _ _ _ hr]
    simp [List.getD_eq_getElem?_getD, Nat.min_eq_left (show i ≤ 264 by omega), hj]

end Sys2Proof.Machine
end

