-- ==== Sys2Proof/Laws/Operands.lean ====
section
/-! SUPPORT. Laws of entries, of IDX and of the lists of entries the command-level function of DECODE works on
(30_encoding.md R66, 41_decode.md R90). -/

namespace Sys2Proof.Machine

open Sys2Proof

/-! ## Entries -/

theorem missFlag_idxOfEntry (e : BitVec 16) : missFlag (idxOfEntry e) = entryMiss e := by
  unfold missFlag idxOfEntry entryMiss
  rw [BitVec.getLsbD_append]
  simp

theorem wordIndex_idxOfEntry (e : BitVec 16) : wordIndex (idxOfEntry e) = entryIndex e := by
  unfold wordIndex idxOfEntry
  apply BitVec.eq_of_getLsbD_eq
  intro i hi
  simp only [BitVec.getLsbD_extractLsb', BitVec.getLsbD_append, entryIndex]
  simp [hi]

/-- An entry is read back from its two bytes, more significant first (20_memory.md R43). -/
theorem entryAt_of_bytes (v : BitVec 16) (bs : Bytes) (k : Nat) (h0 : bs.getD (2 * k) 0 = v.extractLsb' 8 8)
    (h1 : bs.getD (2 * k + 1) 0 = v.extractLsb' 0 8) : entryAt bs k = v := by
  unfold entryAt
  rw [h0, h1]
  apply BitVec.eq_of_getLsbD_eq
  intro i hi
  rw [BitVec.getLsbD_append]
  split
  · simp [*]
  · simp only [BitVec.getLsbD_extractLsb']
    simp [show i - 8 < 8 by omega, show 8 + (i - 8) = i by omega]

/-- The output entry of an IDX entry, read back as an input entry, is the IDX entry (40_encode.md R84, 30_encoding.md R66). -/
theorem entryAt_of_entryBytes (e : BitVec 12) (bs : Bytes) (k : Nat) (h0 : bs.getD (2 * k) 0 = (entryBytes e).getD 0 0)
    (h1 : bs.getD (2 * k + 1) 0 = (entryBytes e).getD 1 0) : entryAt bs k = e.setWidth 16 := by
  apply entryAt_of_bytes
  · rw [h0]
    apply BitVec.eq_of_getLsbD_eq
    intro i hi
    simp only [entryBytes, List.getD_cons_zero, BitVec.getLsbD_extractLsb', BitVec.getLsbD_setWidth, hi, decide_true,
      Bool.true_and]
    by_cases h4 : i < 4
    · simp [h4, show 8 + i < 16 by omega]
    · simp [h4]; rw [BitVec.getLsbD_of_ge _ _ (by omega)]; simp
  · rw [h1]
    apply BitVec.eq_of_getLsbD_eq
    intro i hi
    simp [entryBytes, hi, show i < 16 by omega]

/-! ## IDX -/

/-- `IDX[k]` after a write of `IDX[j]`. -/
theorem idxAt_set (s : State) (j : Nat) (hj : j < 24) (v : BitVec 12) (k : Nat) :
    ((s.idx.setIfInBounds j v)[k]?).getD 0 = if k = j then v else idxAt s k := by
  unfold idxAt
  rw [Vector.getElem?_setIfInBounds]
  by_cases e : k = j
  · subst e; simp [hj]
  · simp [e, Ne.symm e]

/-- `IDX[k]` after DEC_CHECK (41_decode.md R91). -/
theorem idxAt_of_payload {s : State} (n : Nat) (h : s.idx = idxOfPayload s.pl n) (k : Nat) (hk : k < n) (hn : n ≤ 24) :
    idxAt s k = idxOfEntry (entryAt s.pl k) := by
  unfold idxAt
  rw [h, Vector.getElem?_eq_getElem (by omega), Option.getD_some, idxOfPayload, fill_getElem]
  simp [hk]

/-! ## Lists of entries -/

@[simp] theorem entriesOf_length (n : Nat) (pl : Bytes) : (entriesOf n pl).length = n := by simp [entriesOf]

theorem entriesOf_succ (n : Nat) (pl : Bytes) : entriesOf (n + 1) pl = entriesOf n pl ++ [entryAt pl n] := by
  simp [entriesOf, List.range_succ]

theorem entriesStream_length (es : List (BitVec 16)) : (entriesStream es).length = 11 * es.length := by
  unfold entriesStream
  rw [flatMap_length_const 11 _ _ (by simp)]

theorem firstMiss_some (n k : Nat) (pl : Bytes) (hk : k < n) (h1 : entryMiss (entryAt pl k) = true)
    (h2 : ∀ j, j < k → entryMiss (entryAt pl j) = false) : firstMiss (entriesOf n pl) = some k := by
  unfold firstMiss
  rw [List.findIdx?_eq_some_iff_getElem]
  refine ⟨by simpa [entriesOf] using hk, by simpa [entriesOf] using h1, ?_⟩
  intro j hj
  simpa [entriesOf] using h2 j hj

theorem firstMiss_none (n : Nat) (pl : Bytes) (h : ∀ j, j < n → entryMiss (entryAt pl j) = false) :
    firstMiss (entriesOf n pl) = none := by
  unfold firstMiss
  rw [List.findIdx?_eq_none_iff]
  intro x hx
  simp only [entriesOf, List.mem_map, List.mem_range] at hx
  obtain ⟨j, hj, rfl⟩ := hx
  exact h j hj

end Sys2Proof.Machine
end

