-- ==== Sys2Proof/Laws/PerInstr.lean ====
section
/-! SUPPORT. The per-instruction family `OpcodeRow`: the word of a command selects the row of R63 with its mnemonic. -/

namespace Sys2Proof.Laws.OpcodeRow

open Sys2Proof

/-- Masking an assembled word with `op` and `b` only keeps these two fields (R61). -/
theorem assemble_and_opb (op : BitVec 4) (b a : Operand) : cwAssemble op b a &&& 0xFFFFC000 = cwAssemble op b 0 := by
  have hm : (0xFFFFC000 : CommandWord) = cwAssemble 0xF 0x3FFF 0 := by decide
  rw [hm]
  simp only [cwAssemble]
  rw [BitVec.and_append, BitVec.and_append, show op &&& 0xF = op from BitVec.and_allOnes (w := 4),
    show b &&& 0x3FFF = b from BitVec.and_allOnes (w := 14), show a &&& 0 = 0 from BitVec.and_zero]

/-- Masking an assembled word with `op` only keeps this field (R61). -/
theorem assemble_and_op (op : BitVec 4) (b a : Operand) : cwAssemble op b a &&& 0xF0000000 = cwAssemble op 0 0 := by
  have hm : (0xF0000000 : CommandWord) = cwAssemble 0xF 0 0 := by decide
  rw [hm]
  simp only [cwAssemble]
  rw [BitVec.and_append, BitVec.and_append, show op &&& 0xF = op from BitVec.and_allOnes (w := 4), show b &&& 0 = 0 from BitVec.and_zero,
    show a &&& 0 = 0 from BitVec.and_zero]

/-- The word of `i` selects a row of the opcode table, and that row has the mnemonic of `i` (R63). -/
def Statement (i : Instr) : Prop :=
  ∃ r ∈ opcodeRows, r.mnemonic = mnemonicOf i ∧ selectsRow (encodeWord i) r = true

theorem encode (a : Operand) : Statement (.encode a) :=
  ⟨_, List.mem_cons_self, rfl, by
    simp only [selectsRow, encodeWord, assemble_and_opb]; decide⟩

theorem decode (a : Operand) : Statement (.decode a) :=
  ⟨_, List.mem_cons_of_mem _ List.mem_cons_self, rfl, by
    simp only [selectsRow, encodeWord, assemble_and_opb]; decide⟩

theorem derive (a b : Operand) : Statement (.derive a b) :=
  ⟨_, List.mem_cons_of_mem _ (List.mem_cons_of_mem _ List.mem_cons_self), rfl, by
    simp only [selectsRow, encodeWord, assemble_and_op]; decide⟩

end Sys2Proof.Laws.OpcodeRow
end

