-- ==== Sys2Proof/Laws/Step.lean ====
section
/-! SUPPORT. What one step can do, said once: the inversion of `step` and of each command's step (10_state.md R21). -/

namespace Sys2Proof.Machine

open Sys2Proof

/-- The inversion of `step`: reset, a step of the command `commandAt` names, or a host step. -/
theorem step_cases {s t : State} (h : step s = .next t) :
    (resetAsserted s = true ∧ t = hostReset s) ∨
    (resetAsserted s = false ∧ ∃ i, commandAt s = some i ∧ exec i (passQuiet s) = .next t) ∨
      (resetAsserted s = false ∧ commandAt s = none ∧ t = hostStep Config.params s) := by
  unfold step at h
  split at h
  · exact .inl ⟨‹_›, (Host.Outcome.next.inj h).symm⟩
  · have hr : resetAsserted s = false := Bool.eq_false_iff.mpr ‹_›
    split at h
    · rename_i i hi; exact .inr (.inl ⟨hr, i, hi, h⟩)
    · rename_i hn; exact .inr (.inr ⟨hr, hn, (Host.Outcome.next.inj h).symm⟩)

/-- Everything a step of ENCODE that answers a next state can do (40_encode.md R81 to R84). -/
theorem encodeStep_cases {p : Params} {a : Operand} {s t : State} (h : encodeStep p a s = .next t) :
    (s.st = .idle ∧ t = issueAs p (.encode a) s) ∨ (s.st = .encCheck ∧ t = encCheck s) ∨
    (s.st = .encHash ∧ t = encHash p s) ∨ (s.st = .encChunk ∧ s.pos < s.cnt ∧ t = encChunk s) ∨
    (s.st = .encChunk ∧ s.pos = s.cnt ∧ t = encDone s) ∨
      (s.st ≠ .idle ∧ s.st ≠ .encCheck ∧ s.st ≠ .encHash ∧ s.st ≠ .encChunk ∧ t = s) := by
  unfold encodeStep at h
  split at h
  case h_4 =>
    split at h
    · cases h; simp_all
    · split at h
      · cases h; simp_all
      · cases h
  all_goals cases h; simp_all

/-- Everything a step of DECODE that answers a next state can do (41_decode.md R91 to R93). -/
theorem decodeStep_cases {p : Params} {a : Operand} {s t : State} (h : decodeStep p a s = .next t) :
    (s.st = .idle ∧ t = issueAs p (.decode a) s) ∨ (s.st = .decCheck ∧ t = decCheck s) ∨
    (s.st = .decGather ∧ s.pos < s.cnt ∧ t = decGather s) ∨ (s.st = .decGather ∧ s.pos = s.cnt ∧ t = decVerify p s) ∨
      (s.st ≠ .idle ∧ s.st ≠ .decCheck ∧ s.st ≠ .decGather ∧ t = s) := by
  unfold decodeStep at h
  split at h
  case h_3 =>
    split at h
    · cases h; simp_all
    · split at h
      · cases h; simp_all
      · cases h
  all_goals cases h; simp_all

/-- Everything a step of DERIVE that answers a next state can do (42_derive.md R104 to R107). -/
theorem deriveStep_cases {p : Params} {a b : Operand} {s t : State} (h : deriveStep p a b s = .next t) :
    (s.st = .idle ∧ t = issueAs p (.derive a b) s) ∨ (s.st = .kdfCheck ∧ t = kdfCheck p s) ∨
    (s.st = .kdfFirst ∧ t = kdfFirst p s) ∨ (s.st = .kdfIter ∧ s.iter < 2048 ∧ t = kdfIter p s) ∨
    (s.st = .kdfIter ∧ s.iter = 2048 ∧ t = kdfDone s) ∨
      (s.st ≠ .idle ∧ s.st ≠ .kdfCheck ∧ s.st ≠ .kdfFirst ∧ s.st ≠ .kdfIter ∧ t = s) := by
  unfold deriveStep at h
  split at h
  case h_4 =>
    split at h
    · cases h; simp_all
    · split at h
      · cases h; simp_all
      · cases h
  all_goals cases h; simp_all

/-- The meanings run the machine's parameters. -/
theorem exec_encode (a : Operand) (s : State) : exec (.encode a) s = encodeStep Config.params a s := rfl

theorem exec_decode (a : Operand) (s : State) : exec (.decode a) s = decodeStep Config.params a s := rfl

theorem exec_derive (a b : Operand) (s : State) : exec (.derive a b) s = deriveStep Config.params a b s := rfl

/-- The machine's parameters keep 00_scope.md R7's ranges and contract. -/
theorem params_wellFormed : Config.params.wellFormed = true := by
  have h1 : Config.pwMax.toNat ≤ 16383 := Nat.le_of_lt_succ Config.pwMax.isLt
  have h2 : Config.ppMax.toNat ≤ 16383 := Nat.le_of_lt_succ Config.ppMax.isLt
  simp [Params.wellFormed, Config.params, Config.utf8ok, h1, h2]

end Sys2Proof.Machine
end

