-- ==== Sys2Proof/Laws/Run.lean ====
section
/-! SUPPORT. Runs of several steps: zero steps, one more step, and two runs after one another. -/

namespace Sys2Proof.Machine

open Sys2Proof

@[simp] theorem run_zero (s : State) : Host.Core.run core 0 s = .next s := rfl

/-- A run of one step more, by the outcome of its first step. -/
theorem run_step (M : Host.Core) (n : Nat) (s : M.State) : M.run (n + 1) s =
    match M.step s with
    | .next t => M.run n t
    | .fault r => .fault r
    | .refused r => .refused r := rfl

/-- One step and then the rest of the run. -/
theorem run_succ (n : Nat) (s t : State) (h : step s = .next t) :
    Host.Core.run core (n + 1) s = Host.Core.run core n t := by
  have hr := run_step core n s
  have hc : core.step s = .next t := h
  rw [hc] at hr
  exact hr

/-- A run that answers a next state made its first step. -/
theorem run_succ_next {n : Nat} {s t : State} (h : Host.Core.run core (n + 1) s = .next t) :
    ∃ u : State, step s = .next u ∧ Host.Core.run core n u = .next t := by
  have h := (run_step core n s).symm.trans h
  split at h
  · rename_i u hu; exact ⟨u, hu, h⟩
  · cases h
  · cases h

/-- A run, then another from where it ended. -/
theorem run_add (m : Nat) : ∀ (n : Nat) (s t : State), Host.Core.run core m s = .next t →
    Host.Core.run core (m + n) s = Host.Core.run core n t := by
  induction m with
  | zero => intro n s t h; cases h; rw [Nat.zero_add]
  | succ m ih =>
    intro n s t h
    obtain ⟨u, hu, h⟩ := run_succ_next h
    rw [Nat.add_right_comm, run_succ _ _ _ hu]
    exact ih n u t h

end Sys2Proof.Machine
end

