-- ==== Sys2Proof/Laws/Safety.lean ====
section
/-! SUPPORT. Laws of the invariants (10_state.md R34): that they do not look at the host's script, and what the shared
operations leave. -/

namespace Sys2Proof.Machine

open Sys2Proof

/-! ## The host's script -/

/-- Outside IDLE the next command does not depend on the host's script. -/
theorem commandAt_script {s : State} (hs : s.st ≠ .idle) (sc : List HostInput) :
    commandAt { s with script := sc } = commandAt s := by
  unfold commandAt
  cases h : s.st <;> simp_all

/-- The inputs a host waits with are those that are not enabled (60_exceptions.md R158). -/
theorem waits_iff {st : SeqState} {x : HostInput} : Waits st x ↔ enabled st x = false := by
  cases x <;> simp [Waits, enabled]

/-- Using an input up removes its message, if it presents one, from the head of the messages still presented. -/
theorem messagesOf_laterInputs {s : State} {x : HostInput} (h : nextInput s = some x) :
    messagesOf s.script = (offered x).toList ++ messagesOf (laterInputs s) := by
  obtain ⟨hx, pre, rest, h1, h2, h3⟩ := nextInput_eq_some.mp h
  rw [h1, h2]
  cases x with
  | issue m =>
    have hp : pre.filterMap offered = [] := by
      rw [List.filterMap_eq_nil_iff]
      intro y hy
      have := h3 y hy
      cases y <;> simp_all [enabled, offered]
    simp [messagesOf, List.filterMap_append, hp, offered]
  | quiet => simp [messagesOf, List.filterMap_append, List.filterMap_cons, offered]
  | take => simp [messagesOf, List.filterMap_append, List.filterMap_cons, offered]
  | reset => simp [messagesOf, List.filterMap_append, List.filterMap_cons, offered]

/-- Using an input up leaves as many of every other input. -/
theorem count_laterInputs {s : State} {x : HostInput} (h : nextInput s = some x) (y : HostInput) :
    s.script.count y = (laterInputs s).count y + if x = y then 1 else 0 := by
  obtain ⟨_, pre, rest, h1, h2, _⟩ := nextInput_eq_some.mp h
  rw [h1, h2, List.count_append, List.count_append, List.count_cons, Nat.add_assoc]
  simp

theorem inv_script {s : State} (h : Inv s) (sc : List HostInput) : Inv { s with script := sc } := by
  obtain ⟨h1,h2,h3,h4,h5,h6,h7,h8,h9,h10,h11,h12,h13,h14,h15,h16,h17,h18,h19,h20,h21,h22,h23,h24,h25⟩ := h
  refine ⟨fun a => ?_, h2, fun a => ?_, fun a => ?_, h5, h6, h7, h8, h9, h10, h11, h12, h13, h14, h15, fun a => ?_, h17, h18, h19, h20, fun a => ?_, h22, h23, h24, h25⟩
  · obtain ⟨⟨⟨_,_,_,_,_,_,_,_,_,_⟩,_,_,_,_,_⟩, ⟨_,_,_,_,_⟩⟩ := h1 a
    constructor <;> repeat (first | assumption | constructor)
  · obtain ⟨⟨_,_,_,_,_,_,_,_,_,_⟩,_,_,_,_,_⟩ := h3 a
    repeat (first | assumption | constructor)
  · obtain ⟨_,_,_,_,_⟩ := h4 a
    repeat (first | assumption | constructor)
  · obtain ⟨_,_,_,_,_,_,_,_,_,_⟩ := h16 a
    repeat (first | assumption | constructor)
  · obtain ⟨b1,b2,b3,b4,b5,b6⟩ := h21 a
    refine ⟨b1,b2,b3,?_,b5,b6⟩
    exact (commandAt_script (s := s) a.1 sc).trans b4

theorem inv_passQuiet {s : State} (h : Inv s) : Inv (passQuiet s) := by
  rcases passQuiet_cases s with ⟨_, e⟩ | ⟨_, e⟩ <;> rw [e]
  · exact h
  · exact inv_script h _

theorem dataInv_script {p} {s : State} (h : DataInv p s) (sc : List HostInput) : DataInv p { s with script := sc } := by
  obtain ⟨h1,h2,h3,h4,h5,h6,h7,h8,h9,h10⟩ := h
  exact ⟨h1,h2,h3,h4,h5,h6,h7,h8,h9,h10⟩

theorem dataInv_passQuiet {p} {s : State} (h : DataInv p s) : DataInv p (passQuiet s) := by
  rcases passQuiet_cases s with ⟨_, e⟩ | ⟨_, e⟩ <;> rw [e]
  · exact h
  · exact dataInv_script h _

/-! ## Shared operations -/

/-- What `Respond` leaves meets the invariants (00_scope.md R12, 60_exceptions.md R140). -/
theorem inv_respond {s : State} (k : Status) (info : BitVec 8) (data : Bytes)
    (hi : s.issued ≠ none) (hk : k ≠ .internalInvariantViolation) (hd : data.length ≤ 64)
    (hf : k ≠ .ok → data = []) (hinfo : info ≠ 0 → k = .unknownWord) (hin : info.toNat ≤ 23) : Inv (respond k info data s) := by
  refine ⟨?_, ?_, ?_, ?_, ?_, ?_, ?_, ?_, ?_, ?_, ?_, ?_, ?_, ?_, ?_, ?_, ?_, ?_, ?_, ?_, ?_, ?_, ?_, ?_, ?_⟩ <;> simp [Busy]
  · exact workingZero_respond _ _ _ _
  · exact hd
  · intro j h hj
    rw [fill_getElem]
    simp [hj]
  · exact hi
  · cases k <;> simp_all [statusCode]
  · intro hne
    apply hf
    intro e; subst e; exact hne rfl
  · exact ⟨fun h => by rw [hinfo h]; rfl, hin⟩

/-- What reset leaves meets the invariants. -/
theorem inv_reset (sc : List HostInput) (o : List (Message × Response)) : Inv { State.reset with script := sc, obs := o } := by
  refine ⟨?_, ?_, ?_, ?_, ?_, ?_, ?_, ?_, ?_, ?_, ?_, ?_, ?_, ?_, ?_, ?_, ?_, ?_, ?_, ?_, ?_, ?_, ?_, ?_, ?_⟩ <;> simp [State.reset, Busy]
  exact ⟨⟨⟨rfl,rfl,rfl,rfl,rfl,rfl,rfl,rfl,rfl,rfl⟩,rfl,rfl,rfl,rfl,rfl⟩, ⟨rfl,rfl,rfl,rfl,rfl⟩⟩
  all_goals exact ⟨rfl,rfl,rfl,rfl,rfl⟩

/-- An IDLE state that meets the invariants is the reset state but for the script and the observation. -/
theorem eq_reset_of_idle {s : State} (h : Inv s) (hs : s.st = .idle) :
    s = { State.reset with script := s.script, obs := s.obs } := by
  obtain ⟨a, b⟩ := h.idle_clear hs
  have hi := h.owed.mpr hs
  obtain ⟨⟨_,_,_,_,_,_,_,_,_,_⟩,_,_,_,_,_⟩ := a
  obtain ⟨_,_,_,_,_⟩ := b
  cases s
  simp_all [State.reset]

/-- While a command runs its message is latched: the payload has the announced length and the word is the command's. -/
theorem latched_payload {s : State} (h : Inv s) (hs : Busy s) {i : Instr} (hi : commandAt s = some i) : s.pl.length = i.payloadLength ∧ decodeWord s.cw = .ok i := by
  obtain ⟨b1,b2,b3,b4,b5,b6⟩ := h.latched hs
  have hd : decodeWord s.cw = .ok i := by
    rw [hi] at b4
    cases hd : decodeWord s.cw <;> simp_all [Except.toOption]
  refine ⟨?_, hd⟩
  rcases framingLegal_cases b5 with ⟨h1, h2, h3⟩ | ⟨h1, h2, h3⟩ | ⟨h1, h2, h3, h4⟩
  · rw [decodeWord_op1 h1 h2] at hd; cases hd; exact h3
  · rw [decodeWord_op2 h1 h2] at hd; cases hd; exact h3
  · rw [decodeWord_op3 h1] at hd; cases hd; exact h4

/-- The response message after `Respond`. -/
theorem responseOf_respond (k : Status) (info : BitVec 8) (data : Bytes) (s : State) (h : data.length ≤ 64) :
    responseOf (respond k info data s) = ⟨statusCode k, info, data⟩ := by
  simp only [responseOf, respond_rstat, respond_rinfo, respond_rlen, respond_rdata]
  rw [fill_take _ _ _ _ (Nat.le_refl _) h, List.take_of_length_le (Nat.le_refl _)]

/-- While a command runs, the response of its message is the command-level function of the command. -/
theorem latched_response {s : State} (h : Inv s) (hb : Busy s) {i : Instr} (hi : commandAt s = some i) :
    messageResponse Config.params ⟨s.cw, s.pl⟩ = instrResponse Config.params s.pl i := by
  have := (latched_payload h hb hi).2
  have hf := (h.latched hb).2.2.2.2.1
  simp [messageResponse, hf, this]

end Sys2Proof.Machine
end

