-- ==== Sys2Proof/Laws/WordLayer.lean ====
section
/-! SUPPORT. Laws of the entries the word layer sends (43_wordlayer.md R125). -/

namespace Sys2Proof.Machine

open Sys2Proof

/-- The entry of a word that is on the list. -/
theorem entryOfWord_hit {p : Params} (wl : Wordlist p) {w : Bytes} {i : BitVec 11} (h : lookupWord wl w = some i) :
    entryOfWord wl w = i.setWidth 16 := by
  unfold entryOfWord; rw [h]

/-- The entry of a word that is not on the list. -/
theorem entryOfWord_miss {p : Params} (wl : Wordlist p) {w : Bytes} (h : lookupWord wl w = none) :
    entryOfWord wl w = 0x8000 := by
  unfold entryOfWord; rw [h]

/-- Entry `k` of the payload that carries a list of entries. -/
theorem entryAt_flatMap (es : List (BitVec 16)) (k : Nat) (h : k < es.length) :
    entryAt (es.flatMap bytesOfEntry) k = es[k] := by
  have hp := getD_flatMap_pair 0 es bytesOfEntry (fun _ => rfl) k h
  apply entryAt_of_bytes
  · rw [hp.1]; rfl
  · rw [hp.2]; rfl

end Sys2Proof.Machine
end

