-- ==== Sys2Proof/Tests/Slice0.lean ====
section
/-! SUPPORT. The model's own tests: well-formedness, decoding of words written out from 30_encoding.md, the vectors of
95_test_vectors.md that need no named hash, and for every obligation with hypotheses a witness that meets them. -/

namespace Sys2Proof.Tests

open Sys2Proof Sys2Proof.Machine

/-! ## Parameters and states the tests use -/

/-- Stub primitives (95_test_vectors.md section 2.5): a digest that starts with two given bytes, a PRF that answers 64 equal
bytes, the standard `UTF8ok`, and given bounds. -/
def stub (d0 d1 c : Byte) (pw pp : Nat) : Params where
  h256 := fun _ => digestOfBytes (d0 :: d1 :: List.replicate 30 0)
  prf512 := fun _ _ => Vector.replicate 64 c
  utf8ok := Config.utf8Standard
  pwMax := pw
  ppMax := pp

/-- A command in progress: the latches of a message, everything else as after reset. -/
def inProgress (st : SeqState) (w : CommandWord) (pl : Bytes) : State :=
  { State.reset with
    st := st, cw := w, a := cwA w, b := cwB w, pl := pl, pllen := pl.length, issued := some ⟨w, pl⟩ }

/-- Sixteen zero bytes, the entropy of V-E1. -/
def zeros16 : Bytes := List.replicate 16 0

/-- The message `ENCODE 16 ; 00 x 16`. -/
def encodeZeros : Message := ⟨0x10000010, zeros16⟩

/-- After issue of `ENCODE 16 ; 00 x 16`. -/
def inEncCheck : State := inProgress .encCheck 0x10000010 zeros16

/-- After ENC_CHECK (P1). -/
def inEncHash : State := { inProgress .encHash 0x10000010 zeros16 with nbits := 128 }

/-- In ENC_CHUNK, with a stream of zeros. -/
def inEncChunk : State := { inProgress .encChunk 0x10000010 zeros16 with nbits := 132, cnt := 12 }

/-- After ENC_CHUNK x 12, with a stream of zeros. -/
def inEncDone : State :=
  { inProgress .encChunk 0x10000010 zeros16 with nbits := 132, cnt := 12, cur := 132, pos := 12 }

/-- After issue of `DECODE 12 ; 0000 x 12`. -/
def inDecCheck : State := inProgress .decCheck 0x2000000C (List.replicate 24 0)

/-- After DEC_CHECK. -/
def inDecGather : State := { inProgress .decGather 0x2000000C (List.replicate 24 0) with cnt := 12 }

/-- After DEC_GATHER x 12. -/
def inDecVerify : State :=
  { inProgress .decGather 0x2000000C (List.replicate 24 0) with cnt := 12, nbits := 132, cur := 132, pos := 12 }

/-- After issue of `DERIVE 0, 0` (V-K3). -/
def inKdfCheck : State := inProgress .kdfCheck 0x30000000 []

/-- After KDF_CHECK. -/
def inKdfFirst : State := inProgress .kdfFirst 0x30000000 []

/-- After KDF_FIRST. -/
def inKdfIter : State :=
  { inProgress .kdfIter 0x30000000 [] with
    iter := 1, u := Config.prf512 [] (firstMessage (saltOf [])), t := Config.prf512 [] (firstMessage (saltOf [])) }

/-- After KDF_FIRST and KDF_ITER x 2047, with U and T zero. -/
def inKdfDone : State := { inProgress .kdfIter 0x30000000 [] with iter := 2048 }

/-- After the answer to V-I1: the message with word 0 and no payload. -/
def inResp : State := { State.reset with st := .resp, rv := true, rstat := 0x07, issued := some ⟨0, []⟩ }

/-! ## Well-formedness: an ill-formed term for each check, and a well-formed one -/

theorem test_wf_derive : (Instr.derive 93 6).wellFormed (stub 0 0 0 93 6) = true := by decide

theorem test_wf_derive_password : (Instr.derive 94 6).wellFormed (stub 0 0 0 93 6) = false := by decide

theorem test_wf_derive_passphrase : (Instr.derive 93 7).wellFormed (stub 0 0 0 93 6) = false := by decide

theorem test_wf_message_payload : (Message.mk 0 (List.replicate 32767 0)).wellFormed = false := by
  simp only [Message.wellFormed, List.length_replicate]
  decide

theorem test_wf_carries : encodeZeros.carries (.encode 16) = true ∧ encodeZeros.carries (.encode 15) = false ∧
    encodeZeros.carries (.decode 16) = false := by decide

theorem test_wf_params : (stub 0 0 0 16383 16383).wellFormed = true ∧ (stub 0 0 0 16384 0).wellFormed = false ∧
    (stub 0 0 0 0 16384).wellFormed = false := by decide

/-- V-S4: a `UTF8ok` that rejects the empty string is outside the parameter's contract. -/
theorem test_wf_params_utf8 : ({ stub 0 0 0 0 0 with utf8ok := fun _ => false } : Params).wellFormed = false := by decide

/-! ## Decoding: words written out bit by bit from R61 to R63 and R71 -/

/-- `ENCODE 16`: op 0001, b 0, a 16. -/
theorem test_word_encode :
    decodeWord 0b0001_00000000000000_00000000010000 = .ok (.encode 16) ∧ encodeWord (.encode 16) = 0x10000010 :=
  ⟨rfl, rfl⟩

/-- `DECODE 12`: op 0010, b 0, a 12. -/
theorem test_word_decode :
    decodeWord 0b0010_00000000000000_00000000001100 = .ok (.decode 12) ∧ encodeWord (.decode 12) = 0x2000000C :=
  ⟨rfl, rfl⟩

/-- `DERIVE 93, 6`: op 0011, b 6, a 93. -/
theorem test_word_derive :
    decodeWord 0b0011_00000000000110_00000001011101 = .ok (.derive 93 6) ∧ encodeWord (.derive 93 6) = 0x3001805D :=
  ⟨rfl, rfl⟩

/-- The words of V-I1, V-I2, V-I3, V-I4, V-I8 select no command. -/
theorem test_word_illegal :
    decodeWord 0x00000000 = .error (.unknownOp 0) ∧ decodeWord 0x40000010 = .error (.unknownOp 4) ∧
    decodeWord 0xFFFFFFFF = .error (.unknownOp 15) ∧ decodeWord 0x10004010 = .error (.operandBNotZero 1) ∧
    decodeWord 0x2000400C = .error (.operandBNotZero 1) := ⟨rfl, rfl, rfl, rfl, rfl⟩

theorem test_table_words :
    decodeTableWord 32 0x10000010 = some (.encode 16) ∧ decodeTableWord 32 0x2000000C = some (.decode 12) ∧
    decodeTableWord 32 0x3001805D = some (.derive 93 6) ∧ decodeTableWord 32 0x40000000 = none := by decide

/-! ## Vectors -/

/-- V-E3, with a digest that starts with `4E`. -/
theorem test_encode_v_e3 :
    (encodeResponse (stub 0x4E 0x97 0 0 0) 16 (List.replicate 16 0x80)).data =
      [0x04, 0x04, 0x00, 0x20, 0x01, 0x01, 0x00, 0x08, 0x00, 0x40, 0x02, 0x02, 0x00, 0x10, 0x00, 0x80, 0x04, 0x04,
        0x00, 0x20, 0x01, 0x01, 0x00, 0x04] := by decide +kernel

/-- The example of R83: CUR = 121, CBS{121 +: 11} = 0000000 0011 gives IDX[11] = 3. -/
theorem test_encChunk_example :
    (encChunk { inEncChunk with
      cbs := fill 264 false (List.replicate 130 false ++ [true, true]), cur := 121, pos := 11 }).idx[11] = 3 := by
  decide +kernel

/-- V-D6: the first miss is reported. -/
theorem test_decode_v_d6 :
    decodeResponse (stub 0x37 0x47 0 0 0) 12
      [0, 0, 0, 0, 0, 0, 0, 0, 0x80, 0, 0, 0, 0, 0, 0, 0, 0, 0, 0xFF, 0xFF, 0, 0, 0, 3] = ⟨0x03, 4, []⟩ := by
  decide +kernel

/-- The example of R92: index 0x404 at CUR = 0. -/
theorem test_decGather_example :
    (cbsSlice (decGather { inDecGather with idx := fill 24 0 [0x404] }).cbs 0 11) =
      [true, false, false, false, false, false, false, false, true, false, false] := by decide +kernel

/-- V-K4, V-K5 and V-K6: what the standard `UTF8ok` accepts and rejects. -/
theorem test_derive_v_k6 :
    Config.utf8Standard [0xC3, 0xA9] = true ∧ Config.utf8Standard [0xFF] = false ∧
    Config.utf8Standard [0xC0, 0x80] = false ∧ Config.utf8Standard [0xED, 0xA0, 0x80] = false ∧
    Config.utf8Standard [0xC3] = false ∧ Config.utf8Standard [0x80] = false ∧
    Config.utf8Standard [0xE2, 0x82] = false := by decide

/-- R106 with a constant PRF (V-S2): T becomes U_1 xor C, U becomes C. -/
theorem test_kdfIter_constant :
    (kdfIter (stub 0 0 0xA5 0 0) { inKdfDone with iter := 1, t := Vector.replicate 64 0x0F }).t[63] = 0xAA ∧
    (kdfIter (stub 0 0 0xA5 0 0) { inKdfDone with iter := 1 }).u[0] = 0xA5 := by decide +kernel

/-- The example of R73: issue from reset. -/
theorem test_issue_example :
    let s := issue (stub 0 0 0 0 0) encodeZeros { State.reset with script := [.issue encodeZeros] }
    s.st = .encCheck ∧ s.a = 16 ∧ s.b = 0 ∧ s.pllen = 16 := by decide +kernel

/-- V-I6: a payload one byte too long. -/
theorem test_issue_v_i6 :
    (issue (stub 0 0 0 0 0) ⟨0x10000010, List.replicate 17 0⟩ State.reset).rstat = 0x07 := by decide +kernel

/-- V-D16 in part: with the digest byte `37` the checksum value 3 is accepted, 4 is not (V-D1, V-D2). -/
theorem test_decode_v_d1_v_d2 :
    decodeResponse (stub 0x37 0x47 0 0 0) 12 (List.replicate 23 0 ++ [3]) = ⟨0x00, 0, zeros16⟩ ∧
    decodeResponse (stub 0x37 0x47 0 0 0) 12 (List.replicate 23 0 ++ [4]) = ⟨0x04, 0, []⟩ := by decide +kernel

/-- R124: empty pieces are kept. -/
theorem test_split :
    splitText [0x61, 0x20, 0x20, 0x62] = [[0x61], [], [0x62]] ∧ sentence [[0x61], [0x62]] = [0x61, 0x20, 0x62] := by
  decide

/-- The sequencer state after one step. -/
def stAfter (s : State) : Option SeqState :=
  match step s with
  | .next t => some t.st
  | .fault _ => none
  | .refused _ => none

/-- The probe of a row's word runs it as the first command after reset. -/
theorem test_fetchWord :
    stAfter (State.reset.withFetchWord 32 0x10000010) = some .encCheck ∧
    stAfter (State.reset.withFetchWord 32 0x2000000C) = some .decCheck ∧
    stAfter (State.reset.withFetchWord 32 0x30000000) = some .kdfCheck ∧
    stAfter (State.reset.withFetchWord 32 0x00000000) = some .resp := by decide +kernel

/-- R72, D22: in RESP a take behind a held message is performed, and the message is accepted in the step after it. -/
theorem test_take_lifts_hold :
    stAfter { inResp with script := [.issue encodeZeros, .take] } = some .idle ∧
    stAfter (take { inResp with script := [.issue encodeZeros, .take] }) = some .encCheck := by decide +kernel

/-- R160: a reset behind a held message lands in a working state. -/
theorem test_reset_past_held_message :
    stAfter { inKdfFirst with script := [.issue encodeZeros, .reset] } = some .idle := by decide +kernel

/-! ## Witnesses: for every obligation with hypotheses, a state and operands that meet them -/

/-! ### States that meet the invariants -/

theorem inv_inEncHash : Inv inEncHash := by
  constructor
  case cbs_beyond => simp [inEncHash, inProgress, State.reset]
  case idx_beyond => simp [inEncHash, inProgress, State.reset]
  case rdata_beyond => simp [inEncHash, inProgress, State.reset]
  case latched =>
    exact fun _ => ⟨by decide +kernel, by decide +kernel, by decide +kernel, rfl, by decide +kernel, rfl⟩
  case no_response => exact fun _ => ⟨rfl, rfl, rfl, rfl, rfl⟩
  all_goals first | decide +kernel | simp [inEncHash, inProgress]

theorem inv_inEncChunk : Inv inEncChunk := by
  constructor
  case cbs_beyond => simp [inEncChunk, inProgress, State.reset]
  case idx_beyond => simp [inEncChunk, inProgress, State.reset]
  case rdata_beyond => simp [inEncChunk, inProgress, State.reset]
  case latched =>
    exact fun _ => ⟨by decide +kernel, by decide +kernel, by decide +kernel, rfl, by decide +kernel, rfl⟩
  case no_response => exact fun _ => ⟨rfl, rfl, rfl, rfl, rfl⟩
  all_goals first | decide +kernel | simp [inEncChunk, inProgress]

theorem inv_inDecGather : Inv inDecGather := by
  constructor
  case cbs_beyond => simp [inDecGather, inProgress, State.reset]
  case idx_beyond => simp [inDecGather, inProgress, State.reset]
  case rdata_beyond => simp [inDecGather, inProgress, State.reset]
  case latched =>
    exact fun _ => ⟨by decide +kernel, by decide +kernel, by decide +kernel, rfl, by decide +kernel, rfl⟩
  case no_response => exact fun _ => ⟨rfl, rfl, rfl, rfl, rfl⟩
  all_goals first | decide +kernel | simp [inDecGather, inProgress]

theorem inv_inKdfFirst : Inv inKdfFirst := by
  constructor
  case cbs_beyond => simp [inKdfFirst, inProgress, State.reset]
  case idx_beyond => simp [inKdfFirst, inProgress, State.reset]
  case rdata_beyond => simp [inKdfFirst, inProgress, State.reset]
  case latched =>
    exact fun _ => ⟨by decide +kernel, by decide +kernel, by decide +kernel, rfl, by decide +kernel, rfl⟩
  case no_response => exact fun _ => ⟨rfl, rfl, rfl, rfl, rfl⟩
  all_goals first | decide +kernel | simp [inKdfFirst, inProgress]

theorem inv_inKdfIter : Inv inKdfIter := by
  constructor
  case cbs_beyond => simp [inKdfIter, inProgress, State.reset]
  case idx_beyond => simp [inKdfIter, inProgress, State.reset]
  case rdata_beyond => simp [inKdfIter, inProgress, State.reset]
  case latched =>
    exact fun _ => ⟨by decide +kernel, by decide +kernel, by decide +kernel, rfl, by decide +kernel, rfl⟩
  case no_response => exact fun _ => ⟨rfl, rfl, rfl, rfl, rfl⟩
  all_goals first | decide +kernel | simp [inKdfIter, inProgress]

theorem inv_inResp : Inv inResp := by
  constructor
  case cbs_beyond => simp [inResp, State.reset]
  case idx_beyond => simp [inResp, State.reset]
  case rdata_beyond => simp [inResp, State.reset]
  case latched => exact fun h => absurd rfl h.2
  case resp_clear => exact fun _ => workingZero_respond .illegalCommand 0 [] inResp
  all_goals first | decide +kernel | simp [inResp, State.reset]

theorem inv_reset_with (script : List HostInput) : Inv { State.reset with script := script } := inv_reset script []

theorem dataInv_of_idle {p : Params} {s : State} (h : s.st = .idle) : DataInv p s := by
  constructor <;> simp [h]

theorem dataInv_inEncHash : DataInv Config.params inEncHash := by
  constructor
  case enc_hash =>
    intro _
    exact (fill_replicate 264 128 false).symm
  all_goals simp [inEncHash, inProgress]

theorem dataInv_inDecGather : DataInv Config.params inDecGather := by
  constructor
  case dec_index =>
    intro _
    exact (fill_replicate 24 12 0).symm
  case dec_stream =>
    intro _
    exact (fill_nil 264 false).symm
  all_goals simp [inDecGather, inProgress, State.reset]

theorem dataInv_inKdfIter : DataInv Config.params inKdfIter := by
  constructor
  case kdf_text => exact fun _ => ⟨rfl, rfl⟩
  case kdf_u => exact fun _ => rfl
  case kdf_t => exact fun _ => rfl
  all_goals simp [inKdfIter, inProgress]

theorem dataInv_inResp : DataInv Config.params inResp := by
  constructor
  case pending =>
    rintro _ m h
    cases h
    rfl
  all_goals simp [inResp]

/-! ### Encoding and the step -/

theorem witness_encodeOfDecodedWord : decodeWord 0x3001805D = .ok (.derive 93 6) := rfl

theorem witness_wordSelectsRow : (0x40000010 : CommandWord).extractLsb' 28 4 ≠ 0x1#4 ∧
    (0x40000010 : CommandWord).extractLsb' 28 4 ≠ 0x2#4 ∧ (0x40000010 : CommandWord).extractLsb' 28 4 ≠ 0x3#4 := by decide

theorem witness_stepRuns_issue : State.reset.st = .idle ∧
    nextInput { State.reset with script := [.take, .issue encodeZeros] } = some (.issue encodeZeros) ∧
    decodeWord encodeZeros.cw = .ok (.encode 16) := ⟨rfl, rfl, rfl⟩

theorem witness_stepRuns_working : nextInput inEncHash ≠ some .reset ∧
    inEncCheck.st = .encCheck ∧ inEncHash.st = .encHash ∧ inEncChunk.st = .encChunk ∧ inDecCheck.st = .decCheck ∧
    inDecGather.st = .decGather ∧ inKdfCheck.st = .kdfCheck ∧ inKdfFirst.st = .kdfFirst ∧ inKdfIter.st = .kdfIter :=
  ⟨by decide, rfl, rfl, rfl, rfl, rfl, rfl, rfl, rfl⟩

/-- A legal and an illegal payload length for ENCODE and DECODE, and the legal DERIVE that fits every bound (V-K3). -/
theorem witness_issueLatches : State.reset.st = .idle ∧
    (∀ m, nextInput { State.reset with script := [.issue m] } = some (.issue m)) ∧
    (zeros16.length = (16 : Operand).toNat ∧ zeros16.length ≠ (15 : Operand).toNat) ∧
    ((List.replicate 24 (0 : Byte)).length = 2 * (12 : Operand).toNat ∧ zeros16.length ≠ 2 * (12 : Operand).toNat) ∧
    ((0 : Operand).toNat ≤ Config.params.pwMax ∧ (0 : Operand).toNat ≤ Config.params.ppMax ∧
      ([] : Bytes).length = (0 : Operand).toNat + (0 : Operand).toNat) :=
  ⟨rfl, fun _ => rfl, by decide, by decide, Nat.zero_le _, Nat.zero_le _, rfl⟩

theorem witness_issueStep : State.reset.st = .idle ∧
    nextInput { State.reset with script := [.issue encodeZeros] } = some (.issue encodeZeros) ∧
    framingLegal Config.params encodeZeros = true ∧ framingLegal Config.params ⟨0x2000000C, zeros16⟩ = false := by
  decide +kernel

/-- V-I1 and V-I6. -/
theorem witness_illegalMessage : framingLegal Config.params ⟨0, []⟩ = false ∧
    framingLegal Config.params ⟨0x10000010, List.replicate 17 0⟩ = false := by decide +kernel

theorem witness_unpresented_otherState :
    (inDecGather.st ≠ .idle ∧ inDecGather.st ≠ .encCheck ∧ inDecGather.st ≠ .encHash ∧ inDecGather.st ≠ .encChunk) ∧
    (inEncHash.st ≠ .idle ∧ inEncHash.st ≠ .decCheck ∧ inEncHash.st ≠ .decGather) ∧
    (inResp.st ≠ .idle ∧ inResp.st ≠ .kdfCheck ∧ inResp.st ≠ .kdfFirst ∧ inResp.st ≠ .kdfIter) := by decide

theorem witness_unpresented_idle : State.reset.st = .idle ∧
    (∀ m, nextInput State.reset = some (.issue m) → m.cw ≠ encodeWord (.encode 16)) :=
  ⟨rfl, fun _ h => by cases h⟩

/-- Inputs that wait before one that does not, in a working state, in RESP and in IDLE, and a script that waits as a whole. -/
theorem witness_nextInput :
    ((∀ y ∈ [HostInput.issue encodeZeros, .take], Waits inEncHash.st y) ∧ ¬ Waits inEncHash.st .quiet ∧
      ¬ Waits inEncHash.st .reset) ∧
    (Waits inResp.st (.issue encodeZeros) ∧ ¬ Waits inResp.st .take) ∧
    (Waits State.reset.st .take ∧ ¬ Waits State.reset.st (.issue encodeZeros)) := by
  simp [Waits, inEncHash, inProgress, inResp, State.reset]

theorem witness_messageWhileBusy : Inv { inEncHash with script := [.issue encodeZeros] } ∧
    inEncHash.st ≠ .idle ∧ Inv { inResp with script := [.issue encodeZeros] } ∧ inResp.st ≠ .idle :=
  ⟨inv_script inv_inEncHash _, by decide, inv_script inv_inResp _, by decide⟩

/-- A message, and a second one, before the take. -/
theorem witness_takeLifts : Inv { inResp with script := [.issue encodeZeros, .issue ⟨0, []⟩, .take] } ∧
    inResp.st = .resp ∧
    ([.issue encodeZeros, .issue ⟨0, []⟩, .take] : List HostInput) =
      .issue encodeZeros :: [.issue ⟨0, []⟩] ++ .take :: [] ∧
    ∀ x ∈ [HostInput.issue ⟨0, []⟩], ∃ k, x = .issue k :=
  ⟨inv_script inv_inResp _, rfl, rfl, fun _ h => ⟨_, List.mem_singleton.mp h⟩⟩

theorem witness_take : Inv { inResp with script := [.take] } ∧ inResp.st = .resp ∧
    nextInput { inResp with script := [.take] } = some .take ∧ inResp.issued = some ⟨0, []⟩ :=
  ⟨inv_script inv_inResp _, rfl, rfl, rfl⟩

theorem witness_hostWaits :
    (inResp.st = .resp ∧ nextInput { inResp with script := [.issue encodeZeros] } = none ∧
      nextInput { inResp with script := [.quiet] } = some .quiet) ∧
    (State.reset.st = .idle ∧ nextInput { State.reset with script := [.take] } = none ∧
      nextInput { State.reset with script := [.take, .quiet] } = some .quiet) := by decide +kernel

/-- A reset alone, and one behind a message and a take that wait. -/
theorem witness_reset : nextInput { inKdfIter with script := [.reset] } = some .reset ∧
    ∀ y ∈ [HostInput.issue encodeZeros, .take], Waits inKdfIter.st y := by
  refine ⟨rfl, ?_⟩
  simp [Waits, inKdfIter, inProgress]

/-! ### ENCODE -/

theorem witness_encCheck : inEncCheck.st = .encCheck ∧ inEncCheck.a.toNat ∈ [16, 20, 24, 28, 32] ∧
    ({ inEncCheck with a := 15 }).a.toNat ∉ [16, 20, 24, 28, 32] := by decide

theorem witness_encHash : inEncHash.st = .encHash ∧ inEncHash.a.toNat ∈ [16, 20, 24, 28, 32] ∧
    (inEncHash.nbits + inEncHash.a.toNat / 4) % 11 = 0 ∧
    (({ inEncHash with nbits := 0 }).nbits + inEncHash.a.toNat / 4) % 11 ≠ 0 := by decide

theorem witness_encHash_stream : Inv inEncHash ∧ DataInv Config.params inEncHash ∧ inEncHash.st = .encHash :=
  ⟨inv_inEncHash, dataInv_inEncHash, rfl⟩

theorem witness_encHashNeverFails : Inv inEncHash ∧ inEncHash.st = .encHash := ⟨inv_inEncHash, rfl⟩

/-- The first and the last window of the longest stream. -/
theorem witness_encChunk : inEncChunk.st = .encChunk ∧ inEncChunk.pos < inEncChunk.cnt ∧ inEncChunk.cnt ≤ 24 ∧
    inEncChunk.cur + 11 ≤ 264 ∧ (23 < 24 ∧ 253 + 11 ≤ 264) := by decide

theorem witness_encChunk_window : Inv inEncChunk ∧ inEncChunk.st = .encChunk ∧ inEncChunk.pos < inEncChunk.cnt :=
  ⟨inv_inEncChunk, rfl, by decide⟩

theorem witness_encDone : inEncDone.st = .encChunk ∧ inEncDone.pos = inEncDone.cnt ∧ inEncDone.cnt ≤ 24 := by decide

theorem witness_window : 0 ≤ 23 ∧ 23 ≤ 23 := by decide

theorem witness_encodeWordCount : 16 ∈ [16, 20, 24, 28, 32] ∧ zeros16.length = 16 ∧
    32 ∈ [16, 20, 24, 28, 32] ∧ (zeros16 ++ zeros16).length = 32 := by decide

theorem witness_leadingIndices : 10 < 8 * zeros16.length / 11 := by decide

/-! ### DECODE -/

theorem witness_decCheck : inDecCheck.st = .decCheck ∧ inDecCheck.a.toNat ∈ [12, 15, 18, 21, 24] ∧
    ({ inDecCheck with a := 25 }).a.toNat ∉ [12, 15, 18, 21, 24] := by decide

theorem witness_decGather : inDecGather.st = .decGather ∧ inDecGather.pos < inDecGather.cnt ∧ inDecGather.cnt ≤ 24 ∧
    inDecGather.pos < 24 ∧ inDecGather.cur + 11 ≤ 264 ∧ inDecGather.idx[0].getLsbD 11 = false ∧
    (({ inDecGather with idx := fill 24 0 [0x800] }).idx[0]).getLsbD 11 = true := by decide +kernel

theorem witness_decGather_write : Inv inDecGather ∧ inDecGather.st = .decGather ∧ inDecGather.pos < inDecGather.cnt :=
  ⟨inv_inDecGather, rfl, by decide⟩

theorem witness_decVerify : inDecVerify.st = .decGather ∧ inDecVerify.pos = inDecVerify.cnt ∧
    inDecVerify.cnt ∈ [12, 15, 18, 21, 24] := by decide

theorem witness_checksumComparison : (4 ≤ 4 ∧ 4 ≤ 8 ∧ [false, false, true, true].length = 4) ∧
    (4 ≤ 8 ∧ 8 ≤ 8 ∧ (List.replicate 8 true).length = 8) := by decide

/-- The payload of V-D6. -/
def payloadD6 : Bytes := [0, 0, 0, 0, 0, 0, 0, 0, 0x80, 0, 0, 0, 0, 0, 0, 0, 0, 0, 0xFF, 0xFF, 0, 0, 0, 3]

theorem witness_firstMiss : 12 ∈ [12, 15, 18, 21, 24] ∧ 4 < 12 ∧ entryMiss (entryAt payloadD6 4) = true ∧
    ∀ j, j < 4 → entryMiss (entryAt payloadD6 j) = false := by decide

/-- V-D1, with its lowest and its highest checksum bit flipped, and 24 words under a digest that starts with `66` (V-E10). -/
theorem witness_flippedBit :
    (12 ∈ [12, 15, 18, 21, 24] ∧ (List.replicate 23 (0 : Byte)).length + 1 = 2 * 12 ∧ (1 : Byte) ≠ 0 ∧
      (1 : Byte).toNat < 2 ^ (12 / 3) ∧ (8 : Byte) ≠ 0 ∧ (8 : Byte).toNat < 2 ^ (12 / 3) ∧
      decodeResponse (stub 0x37 0 0 0 0) 12 (List.replicate 23 0 ++ [3]) = ⟨0x00, 0, zeros16⟩) ∧
    ((List.replicate 47 (0 : Byte)).length + 1 = 2 * 24 ∧ (0x80 : Byte).toNat < 2 ^ (24 / 3) ∧
      decodeResponse (stub 0x66 0 0 0 0) 24 (List.replicate 47 0 ++ [0x66]) = ⟨0x00, 0, zeros16 ++ zeros16⟩) := by
  decide +kernel

theorem witness_roundTrip : 16 ∈ [16, 20, 24, 28, 32] ∧ zeros16.length = 16 ∧ 32 ∈ [16, 20, 24, 28, 32] ∧
    (zeros16 ++ zeros16).length = 32 := by decide

/-! ### DERIVE -/

theorem witness_kdf : inKdfCheck.st = .kdfCheck ∧ inKdfFirst.st = .kdfFirst ∧
    (inKdfIter.st = .kdfIter ∧ inKdfIter.iter < 2048) ∧ (inKdfDone.st = .kdfIter ∧ inKdfDone.iter = 2048) ∧
    ({ inKdfDone with iter := 2047 }).iter < 2048 := by decide

theorem witness_stretchConstant : ∀ k m, (stub 0 0 0xA5 0 0).prf512 k m = Vector.replicate 64 0xA5 := fun _ _ => rfl

/-! ### Frames and whole-machine rules -/

theorem witness_microStep_encode : ∃ t, inEncCheck.st ≠ .idle ∧ exec (.encode 16) inEncCheck = .next t ∧ t.st ≠ .resp :=
  ⟨_, by decide, rfl, by decide +kernel⟩

theorem witness_microStep_decode : ∃ t, inDecCheck.st ≠ .idle ∧ exec (.decode 12) inDecCheck = .next t ∧ t.st ≠ .resp :=
  ⟨_, by decide, rfl, by decide +kernel⟩

theorem witness_microStep_derive : ∃ t, inKdfFirst.st ≠ .idle ∧ exec (.derive 0 0) inKdfFirst = .next t ∧ t.st ≠ .resp :=
  ⟨_, by decide, rfl, by decide +kernel⟩

theorem witness_onlyTake : ∃ t, step { inResp with script := [.take] } = .next t ∧ t.st = .idle := ⟨_, rfl, rfl⟩

theorem witness_transitions : ∃ t, step inEncCheck = .next t ∧ t.st = .encHash := ⟨_, rfl, by decide +kernel⟩

theorem witness_stepKeeps_idle : ∃ t, Inv { State.reset with script := [.issue encodeZeros] } ∧
    DataInv Config.params { State.reset with script := [.issue encodeZeros] } ∧
    Observed Config.params { State.reset with script := [.issue encodeZeros] } ∧
    step { State.reset with script := [.issue encodeZeros] } = .next t :=
  ⟨_, inv_reset_with _, dataInv_of_idle rfl, by simp [Observed, State.reset], rfl⟩

theorem witness_stepKeeps_encHash : ∃ t, Inv inEncHash ∧ DataInv Config.params inEncHash ∧
    Observed Config.params inEncHash ∧ step inEncHash = .next t :=
  ⟨_, inv_inEncHash, dataInv_inEncHash, by simp [Observed, inEncHash, inProgress, State.reset], rfl⟩

theorem witness_stepKeeps_decGather : ∃ t, Inv inDecGather ∧ DataInv Config.params inDecGather ∧
    Observed Config.params inDecGather ∧ step inDecGather = .next t :=
  ⟨_, inv_inDecGather, dataInv_inDecGather, by simp [Observed, inDecGather, inProgress, State.reset], rfl⟩

theorem witness_stepKeeps_kdfIter : ∃ t, Inv inKdfIter ∧ DataInv Config.params inKdfIter ∧
    Observed Config.params inKdfIter ∧ step inKdfIter = .next t :=
  ⟨_, inv_inKdfIter, dataInv_inKdfIter, by simp [Observed, inKdfIter, inProgress, State.reset], rfl⟩

theorem witness_stepKeeps_take : ∃ t, Inv { inResp with script := [.take] } ∧
    DataInv Config.params { inResp with script := [.take] } ∧ Observed Config.params { inResp with script := [.take] } ∧
    step { inResp with script := [.take] } = .next t :=
  ⟨_, inv_script inv_inResp _, dataInv_script dataInv_inResp _, by simp [Observed, inResp, State.reset], rfl⟩

/-! ### Runs -/

theorem witness_messageAnswered : Inv { State.reset with script := [.issue encodeZeros, .quiet] } ∧
    State.reset.st = .idle ∧
    nextInput { State.reset with script := [.issue encodeZeros, .quiet] } = some (.issue encodeZeros) ∧
    ResetFree (laterInputs { State.reset with script := [.issue encodeZeros, .quiet] }) ∧
    14 < messageSteps Config.params encodeZeros :=
  ⟨inv_reset_with _, rfl, rfl, by simp [ResetFree, laterInputs, enabled, State.reset], by decide +kernel⟩

/-- A message of each row: one that is not framing-legal, and legal ones of the three commands. -/
theorem witness_stepCounts_messages : framingLegal (stub 0 0 0 0 0) ⟨0, []⟩ = false ∧
    (framingLegal (stub 0 0 0 0 0) encodeZeros = true ∧ decodeWord encodeZeros.cw = .ok (.encode 16)) ∧
    (framingLegal (stub 0 0 0 0 0) ⟨0x2000000C, List.replicate 24 0⟩ = true ∧
      decodeWord 0x2000000C = .ok (.decode 12)) ∧
    (framingLegal (stub 0 0 0 0 0) ⟨0x30000000, []⟩ = true ∧ decodeWord 0x30000000 = .ok (.derive 0 0)) :=
  ⟨by decide +kernel, ⟨by decide +kernel, rfl⟩, ⟨by decide +kernel, rfl⟩, by decide +kernel, rfl⟩

theorem witness_stepCounts : (15 : Operand).toNat ∉ [16, 20, 24, 28, 32] ∧ (13 : Operand).toNat ∉ [12, 15, 18, 21, 24] ∧
    (12 : Operand).toNat ∈ [12, 15, 18, 21, 24] ∧ entryMiss (entryAt payloadD6 4) = true ∧
    (∀ j, j < 4 → entryMiss (entryAt payloadD6 j) = false) ∧
    ∀ j, j < (12 : Operand).toNat → entryMiss (entryAt (List.replicate 24 0) j) = false := by decide

theorem witness_everyCommand : Inv inKdfFirst ∧ Busy inKdfFirst ∧ ResetFree inKdfFirst.script :=
  ⟨inv_inKdfFirst, ⟨by decide, by decide⟩, fun _ h => by cases h⟩

/-- Two messages offered before any take, with a pause between. -/
theorem witness_observation :
    Inv { State.reset with script := [.issue encodeZeros, .issue ⟨0, []⟩, .quiet, .take, .take] } ∧
    State.reset.st = .idle ∧ ResetFree [.issue encodeZeros, .issue ⟨0, []⟩, .quiet, .take, .take] ∧
    (messagesOf [.issue encodeZeros, .issue ⟨0, []⟩, .quiet, .take, .take]).length ≤
      [HostInput.issue encodeZeros, .issue ⟨0, []⟩, .quiet, .take, .take].count .take :=
  ⟨inv_reset_with _, rfl, by simp [ResetFree], by decide⟩

/-! ### The word layer -/

/-- A word of two ASCII bytes for every index. -/
def sampleWord (i : BitVec 11) : Bytes := [BitVec.ofNat 8 (64 + i.toNat / 64), BitVec.ofNat 8 (64 + i.toNat % 64)]

theorem sampleWord_unique (i j : BitVec 11) (h : sampleWord i = sampleWord j) : i = j := by
  simp only [sampleWord, List.cons.injEq, and_true] at h
  have h0 := congrArg BitVec.toNat h.1
  have h1 := congrArg BitVec.toNat h.2
  simp only [BitVec.toNat_ofNat] at h0 h1
  have hi := i.isLt
  have hj := j.isLt
  apply BitVec.eq_of_toNat_eq
  omega

theorem ascii_ofNat (n : Nat) (h : n < 128) : Config.inRange 0x00 0x7F (BitVec.ofNat 8 n) = true := by
  simp [Config.inRange, BitVec.le_def]
  omega

theorem sampleWord_utf8 (i : BitVec 11) : Config.utf8Standard (sampleWord i) = true := by
  have hi := i.isLt
  simp only [Config.utf8Standard, sampleWord, List.length_cons, List.length_nil, Config.utf8Loop]
  rw [if_pos (ascii_ofNat _ (by omega)), if_pos (ascii_ofNat _ (by omega))]

/-- A Wordlist (R121). -/
def sampleList (d0 : Byte) (pw pp : Nat) : Wordlist (stub d0 0 0 pw pp) where
  word := sampleWord
  unique := sampleWord_unique
  nonempty := fun _ h => by cases h
  utf8 := sampleWord_utf8

/-- Eleven times word 0, then word 3 (V-W2). -/
def wordsW2 : List Bytes := List.replicate 11 (sampleWord 0) ++ [sampleWord 3]

/-- Eleven times word 0, then a word that is not on the list (V-W3). -/
def wordsW3 : List Bytes := List.replicate 11 (sampleWord 0) ++ [[0x61]]

theorem witness_lookup : ∀ i, (sampleList 0x37 0 0).word i ≠ [0x61] :=
  fun _ h => absurd (congrArg List.length h) (by simp [sampleList, sampleWord])

theorem witness_wordRoundTrip : zeros16.length ∈ [16, 20, 24, 28, 32] ∧
    (zeros16 ++ zeros16).length ∈ [16, 20, 24, 28, 32] := by decide

theorem witness_unknownWord : wordsW3.length ∈ [12, 15, 18, 21, 24] ∧
    wordsW3.all (stub 0x37 0 0 0 0).utf8ok = true ∧ 11 < wordsW3.length ∧
    lookupWord (sampleList 0x37 0 0) (wordsW3.getD 11 []) = none ∧
    ∀ j, j < 11 → lookupWord (sampleList 0x37 0 0) (wordsW3.getD j []) ≠ none := by decide +kernel

theorem witness_illegalLengths : ((List.replicate 15 (0 : Byte)).length ≤ 16383 ∧
      (List.replicate 15 (0 : Byte)).length ∉ [16, 20, 24, 28, 32]) ∧
    ((wordsW2 ++ [[0x61]]).length ≤ 16383 ∧ (wordsW2 ++ [[0x61]]).length ∉ [12, 15, 18, 21, 24] ∧
      (wordsW2 ++ [[0x61]]).all (stub 0x37 0 0 0 0).utf8ok = true) ∧
    ([[0xFF]] : List Bytes).all (stub 0x37 0 0 0 0).utf8ok = false := by decide +kernel

/-- Words that are on no list, and an absent passphrase, at the bound of the password (V-W6). -/
theorem witness_deriveWords : (stub 0 0 0 3 0).wellFormed = true ∧
    (sentence [[0x61], [0x62]]).length ≤ (stub 0 0 0 3 0).pwMax ∧ ((none : Option Bytes).getD []).length ≤ (stub 0 0 0 3 0).ppMax ∧
    (stub 0 0 0 3 0).utf8ok (sentence [[0x61], [0x62]]) = true ∧
    (stub 0 0 0 3 0).utf8ok ((none : Option Bytes).getD []) = true := by decide

theorem witness_split : wordsW2 ≠ [] ∧ ∀ w ∈ wordsW2, (0x20 : Byte) ∉ w := by decide

/-- The value of a word operation that succeeds. -/
def okValue {α : Type} : Except WordError α → Option α
  | .ok x => some x
  | .error _ => none

/-- The error of a word operation that fails. -/
def errorValue {α : Type} : Except WordError α → Option WordError
  | .ok _ => none
  | .error e => some e

/-- V-W1, V-W2 and V-W3 with a digest that starts with `37`. -/
theorem test_word_layer :
    okValue (encodeWords (stub 0x37 0 0 0 0) (sampleList 0x37 0 0) zeros16) = some wordsW2 ∧
    okValue (decodeWords (stub 0x37 0 0 0 0) (sampleList 0x37 0 0) wordsW2) = some zeros16 ∧
    errorValue (decodeWords (stub 0x37 0 0 0 0) (sampleList 0x37 0 0) wordsW3) = some (.unknownWord [0x61] 11) := by
  decide +kernel

/-- Generation ends with the words alone when no seed is asked for, and keeps them when the sentence is above `PW_MAX` and
deriving fails (R128, R130). -/
theorem test_generate :
    okValue ((generate (stub 0x37 0 0 0 0) (sampleList 0x37 0 0) zeros16 .wordsOnly).map (·.1)) = some wordsW2 ∧
    okValue ((generate (stub 0x37 0 0 0 0) (sampleList 0x37 0 0) zeros16 (.withSeed none)).map (·.1)) = some wordsW2 ∧
    okValue ((generate (stub 0x37 0 0 0 0) (sampleList 0x37 0 0) zeros16 (.withSeed none)).map
      (·.2.bind errorValue)) = some (some .illegalCommand) := by
  decide +kernel

theorem witness_generation : zeros16.length ∈ [16, 20, 24, 28, 32] ∧ (List.replicate 15 (0 : Byte)).length ≤ 16383 ∧
    (List.replicate 15 (0 : Byte)).length ∉ [16, 20, 24, 28, 32] := by decide

end Sys2Proof.Tests
end

/-! PROOFS. The data invariants are kept by every step (00_scope.md R5; 40_encode.md R87, 41_decode.md R95, 42_derive.md R108). -/

namespace Sys2Proof.Machine

open Sys2Proof

/-! ## States about which the data invariants say little -/

/-- In IDLE and in the first micro-step of a command the data invariants ask nothing. -/
theorem dataInv_of_start {p : Params} {s : State}
    (hs : s.st = .idle ∨ s.st = .encCheck ∨ s.st = .decCheck ∨ s.st = .kdfCheck) : DataInv p s := by
  rcases hs with hs | hs | hs | hs <;> constructor <;> simp [hs]

/-- In RESP the data invariants are about the pending response alone. -/
theorem dataInv_of_pending {p : Params} {s : State} (hs : s.st = .resp)
    (hp : ∀ m, s.issued = some m → responseOf s = messageResponse p m) : DataInv p s := by
  constructor
  case pending => exact fun _ => hp
  all_goals simp [hs]

/-- The response of the command in progress, formed by `Respond`, is that of the message issued. -/
theorem dataInv_respond {s : State} (h : Inv s) (hb : Busy s) {i : Instr} (hi : commandAt s = some i)
    {k : Status} {info : BitVec 8} {data : Bytes} (hd : data.length ≤ 64)
    (hr : instrResponse Config.params s.pl i = ⟨statusCode k, info, data⟩) :
    DataInv Config.params (respond k info data s) := by
  obtain ⟨-, -, -, -, -, hissued⟩ := h.latched hb
  refine dataInv_of_pending rfl fun m hm => ?_
  obtain rfl : ⟨s.cw, s.pl⟩ = m := Option.some.inj (hissued.symm.trans hm)
  rw [responseOf_respond _ _ _ _ hd, latched_response h hb hi, hr]

/-! ## Issue -/

/-- A legal word enters the first micro-step of its command (30_encoding.md R73). -/
theorem entryState_cases (w : CommandWord) :
    entryState w = .encCheck ∨ entryState w = .decCheck ∨ entryState w = .kdfCheck := by
  unfold entryState
  split
  · exact .inl rfl
  · split
    · exact .inr (.inl rfl)
    · exact .inr (.inr rfl)

/-- The issue step leaves a command at its start or the pending `IllegalCommand` (30_encoding.md R65, R73). -/
theorem dataInv_issue (p : Params) (m : Message) (s : State) : DataInv p (issue p m s) := by
  rcases issue_cases p m s with ⟨-, e⟩ | ⟨hf, e⟩ <;> rw [e]
  · exact dataInv_of_start (.inr (entryState_cases m.cw))
  · refine dataInv_of_pending rfl fun m' hm => ?_
    obtain rfl : m = m' := Option.some.inj hm
    rw [responseOf_respond _ _ _ _ (Nat.zero_le _)]
    simp [messageResponse, hf, failureResponse]

theorem dataInv_issueAs {p : Params} {s : State} (hd : DataInv p s) (i : Instr) : DataInv p (issueAs p i s) := by
  unfold issueAs
  split
  · split
    · exact dataInv_issue p _ s
    · exact hd
  · exact hd

/-! ## The command in progress, by sequencer state (10_state.md R21) -/

theorem running_encode {s : State} (hs : s.st = .encCheck ∨ s.st = .encHash ∨ s.st = .encChunk) :
    Busy s ∧ commandAt s = some (.encode s.a) := by
  rcases hs with hs | hs | hs <;> simp [Busy, commandAt, hs]

theorem running_decode {s : State} (hs : s.st = .decCheck ∨ s.st = .decGather) :
    Busy s ∧ commandAt s = some (.decode s.a) := by
  rcases hs with hs | hs <;> simp [Busy, commandAt, hs]

theorem running_derive {s : State} (hs : s.st = .kdfCheck ∨ s.st = .kdfFirst ∨ s.st = .kdfIter) :
    Busy s ∧ commandAt s = some (.derive s.a s.b) := by
  rcases hs with hs | hs | hs <;> simp [Busy, commandAt, hs]

/-- While ENCODE runs, the payload is as long as the operand announces (30_encoding.md R64). -/
theorem encode_payload_length {s : State} (h : Inv s) (hs : s.st = .encCheck ∨ s.st = .encHash ∨ s.st = .encChunk) :
    s.pl.length = s.a.toNat :=
  (latched_payload h (running_encode hs).1 (running_encode hs).2).1

/-- While ENCODE runs, the entropy is the whole payload (20_memory.md R41). -/
theorem entropyOf_eq_payload {s : State} (h : Inv s) (hs : s.st = .encCheck ∨ s.st = .encHash ∨ s.st = .encChunk) :
    entropyOf s = s.pl :=
  List.take_of_length_le (Nat.le_of_eq (encode_payload_length h hs))

/-! ## Lengths of the streams -/

/-- A legal entropy length gives whole windows, three for every four bytes, at most 24 (00_scope.md R13). -/
theorem streamLength_of_entLength {l : Nat} (hl : l ∈ Config.entLengths) :
    8 * l + csOfBytes l = 11 * (3 * l / 4) ∧ csOfBytes l ≤ 8 ∧ l ≤ 32 := by
  unfold csOfBytes
  simp only [Config.entLengths, List.mem_cons, List.not_mem_nil, or_false] at hl
  omega

theorem checksumBits_length (d : Vector Bool 256) {cs : Nat} (h : cs ≤ 256) : (checksumBits d cs).length = cs :=
  slice_length _ _ _ (by simpa using h)

theorem combinedStream_length (p : Params) {e : Bytes} (he : e.length ∈ Config.entLengths) :
    (combinedStream p e).length = 11 * (3 * e.length / 4) := by
  obtain ⟨hw, hcs, -⟩ := streamLength_of_entLength he
  rw [combinedStream, List.length_append, bits_length, checksumBits_length _ (by omega), hw]

/-- The entropy bits and the checksum bits of a word count are the whole stream (00_scope.md R13). -/
theorem entOfWords_add_csOfWords (n : Nat) : entOfWords n + csOfWords n = 11 * n := by
  unfold entOfWords csOfWords; omega

theorem entriesStream_append (xs ys : List (BitVec 16)) :
    entriesStream (xs ++ ys) = entriesStream xs ++ entriesStream ys := List.flatMap_append

/-! ## ENCODE -/

/-- ENC_CHECK loads the entropy or answers `InvalidEntropyLength` (40_encode.md R81). -/
theorem dataInv_encCheck {s : State} (h : Inv s) (hs : s.st = .encCheck) : DataInv Config.params (encCheck s) := by
  obtain ⟨hb, hc⟩ := running_encode (.inl hs)
  unfold encCheck
  split
  · constructor
    case enc_hash => exact fun _ => by rw [entropyOf_eq_payload h (.inl hs)]
    all_goals simp
  · refine dataInv_respond h hb hc (Nat.zero_le _) ?_
    simp [instrResponse, encodeResponse, failureResponse, *]

/-- ENC_HASH completes the CombinedBitStream; the defensive check does not fail (40_encode.md R82, R86). -/
theorem dataInv_encHash {s : State} (h : Inv s) (hd : DataInv Config.params s) (hs : s.st = .encHash) :
    DataInv Config.params (encHash Config.params s) := by
  obtain ⟨ha, hnbits, -⟩ := h.enc_hash hs
  obtain ⟨hwindows, hcs, ha32⟩ := streamLength_of_entLength ha
  have hlen := encode_payload_length h (.inr (.inl hs))
  have hdiv : (s.nbits + csOfBytes s.a.toNat) % 11 = 0 := by omega
  have hstream : putBits s.cbs s.nbits (checksumBits (Config.params.h256 (entropyOf s)) (csOfBytes s.a.toNat)) =
      fill 264 false (combinedStream Config.params s.pl) := by
    have hbits : s.nbits = (bits s.pl).length := by rw [bits_length, hlen, hnbits]
    rw [entropyOf_eq_payload h (.inr (.inl hs)), hd.enc_hash hs, hbits, combinedStream, hlen]
    exact putBits_fill _ _ (by rw [bits_length, checksumBits_length _ (by omega)]; omega)
  simp only [encHash, if_pos hdiv]
  constructor
  case enc_stream => exact fun _ => hstream
  all_goals simp

/-- In ENC_CHUNK the window under the cursor is the window of the CombinedBitStream at the word position (40_encode.md R83). -/
theorem uint_cbsSlice_eq_windowIndex {s : State} (h : Inv s) (hd : DataInv Config.params s) (hs : s.st = .encChunk)
    (hpos : s.pos < s.cnt) : uint (cbsSlice s.cbs s.cur 11) = windowIndex (combinedStream Config.params s.pl) s.pos := by
  obtain ⟨ha, -, hcnt⟩ := h.enc_chunk hs
  have hlen := encode_payload_length h (.inr (.inr hs))
  have hstream := combinedStream_length Config.params (hlen ▸ ha)
  have hcnt24 := h.cnt_le
  rw [hd.enc_stream hs, h.cursor (.inl hs), cbsSlice_fill _ _ _ (by omega) (by omega), windowIndex]

/-- ENC_CHUNK writes the next window index (40_encode.md R83). -/
theorem dataInv_encChunk {s : State} (h : Inv s) (hd : DataInv Config.params s) (hs : s.st = .encChunk)
    (hpos : s.pos < s.cnt) : DataInv Config.params (encChunk s) := by
  have hpos24 : s.pos < 24 := Nat.lt_of_lt_of_le hpos h.cnt_le
  unfold encChunk
  constructor
  case enc_stream => exact fun _ => hd.enc_stream hs
  case enc_index =>
    intro _ k (hk : k < s.pos + 1)
    refine (idxAt_set s s.pos hpos24 _ k).trans ?_
    split
    · subst k; rw [uint_cbsSlice_eq_windowIndex h hd hs hpos]
    · exact hd.enc_index hs k (by omega)
  all_goals simp [hs]

/-- ENC_DONE answers the command-level response (40_encode.md R84). -/
theorem dataInv_encDone {s : State} (h : Inv s) (hd : DataInv Config.params s) (hs : s.st = .encChunk)
    (hpos : s.pos = s.cnt) : DataInv Config.params (encDone s) := by
  obtain ⟨hb, hc⟩ := running_encode (.inr (.inr hs))
  obtain ⟨ha, -, hcnt⟩ := h.enc_chunk hs
  obtain ⟨hwindows, -, -⟩ := streamLength_of_entLength ha
  have hcnt24 := h.cnt_le
  have hwhole : (8 * s.a.toNat + csOfBytes s.a.toNat) % 11 = 0 := by omega
  have hcount : (8 * s.a.toNat + csOfBytes s.a.toNat) / 11 = s.cnt := by omega
  have hentry : ∀ k ∈ List.range s.cnt,
      entryBytes (idxOfWindow (windowIndex (combinedStream Config.params s.pl) k)) = entryBytes (idxAt s k) :=
    fun k hk => by rw [hd.enc_index hs k (by rw [hpos]; exact List.mem_range.mp hk)]
  have hdata : (List.range s.cnt).flatMap (fun k =>
      entryBytes (idxOfWindow (windowIndex (combinedStream Config.params s.pl) k))) = encodeData s := by
    rw [encodeData, List.flatMap_def, List.flatMap_def, List.map_congr_left hentry]
  refine dataInv_respond h hb hc (by rw [encodeData_length]; omega) ?_
  simp only [instrResponse, encodeResponse, if_pos ha, hwhole, hcount, hdata, if_true, successResponse]

theorem dataInv_encodeStep {s t : State} (h : Inv s) (hd : DataInv Config.params s) {a : Operand}
    (ht : encodeStep Config.params a s = .next t) : DataInv Config.params t := by
  rcases encodeStep_cases ht with
    ⟨_, rfl⟩ | ⟨hs, rfl⟩ | ⟨hs, rfl⟩ | ⟨hs, hpos, rfl⟩ | ⟨hs, hpos, rfl⟩ | ⟨_, _, _, _, rfl⟩
  · exact dataInv_issueAs hd _
  · exact dataInv_encCheck h hs
  · exact dataInv_encHash h hd hs
  · exact dataInv_encChunk h hd hs hpos
  · exact dataInv_encDone h hd hs hpos
  · exact hd

/-! ## DECODE -/

/-- DEC_CHECK loads the entries or answers `InvalidWordCount` (41_decode.md R91). -/
theorem dataInv_decCheck {s : State} (h : Inv s) (hs : s.st = .decCheck) : DataInv Config.params (decCheck s) := by
  obtain ⟨hb, hc⟩ := running_decode (.inl hs)
  unfold decCheck
  split
  · constructor
    case dec_index => exact fun _ => rfl
    case dec_stream => exact fun _ => (fill_nil 264 false).symm
    all_goals simp
  · refine dataInv_respond h hb hc (Nat.zero_le _) ?_
    simp [instrResponse, decodeResponse, failureResponse, *]

/-- In DEC_GATHER `IDX[POS]` is the entry at the word position (41_decode.md R91). -/
theorem idxAt_pos_eq_entry {s : State} (h : Inv s) (hd : DataInv Config.params s) (hs : s.st = .decGather)
    (hpos : s.pos < s.cnt) : idxAt s s.pos = idxOfEntry (entryAt s.pl s.pos) :=
  idxAt_of_payload s.cnt (hd.dec_index hs) s.pos hpos h.cnt_le

/-- DEC_GATHER appends the next WordIndex or answers the first miss (41_decode.md R92). -/
theorem dataInv_decGather {s : State} (h : Inv s) (hd : DataInv Config.params s) (hs : s.st = .decGather)
    (hpos : s.pos < s.cnt) : DataInv Config.params (decGather s) := by
  obtain ⟨hb, hc⟩ := running_decode (.inr hs)
  obtain ⟨ha, hcnt⟩ := h.dec_gather hs
  have hcnt24 := h.cnt_le
  unfold decGather
  rw [idxAt_pos_eq_entry h hd hs hpos, missFlag_idxOfEntry, wordIndex_idxOfEntry]
  split
  case isTrue hmiss =>
    have hfirst := firstMiss_some s.a.toNat s.pos s.pl (hcnt ▸ hpos) hmiss (hd.dec_no_miss hs)
    refine dataInv_respond h hb hc (Nat.zero_le _) ?_
    simp [instrResponse, decodeResponse, ha, hfirst, failureResponse]
  case isFalse hmiss =>
    have hcur := h.cursor (.inr hs)
    have hlen : (entriesStream (entriesOf s.pos s.pl)).length = s.cur := by
      rw [entriesStream_length, entriesOf_length, hcur]
    constructor
    case dec_index => exact fun _ => hd.dec_index hs
    case dec_stream =>
      intro _
      have hput := putBits_fill (entriesStream (entriesOf s.pos s.pl))
        (streamOf 11 (entryIndex (entryAt s.pl s.pos)).toNat) (by rw [hlen, streamOf_length]; omega)
      rw [hlen, ← hd.dec_stream hs] at hput
      simpa [entriesOf_succ, entriesStream_append, entriesStream] using hput
    case dec_no_miss =>
      intro _ k (hk : k < s.pos + 1)
      rcases Nat.lt_succ_iff_lt_or_eq.mp hk with hk | rfl
      · exact hd.dec_no_miss hs k hk
      · exact Bool.eq_false_iff.mpr hmiss
    all_goals simp [hs]

/-- At the end of DEC_GATHER every slice of CBS within the stream is that of the entries' stream (41_decode.md R92). -/
theorem cbsSlice_eq_slice_entries {s : State} (h : Inv s) (hd : DataInv Config.params s) (hs : s.st = .decGather)
    (hpos : s.pos = s.cnt) {i n : Nat} (hi : i + n ≤ 11 * s.cnt) :
    cbsSlice s.cbs i n = slice (entriesStream (entriesOf s.cnt s.pl)) i n := by
  have hcnt24 := h.cnt_le
  rw [hd.dec_stream hs, hpos]
  exact cbsSlice_fill _ _ _ (by rwa [entriesStream_length, entriesOf_length]) (by omega)

theorem candidateOf_eq_candidateEntropy {s : State} (h : Inv s) (hd : DataInv Config.params s) (hs : s.st = .decGather)
    (hpos : s.pos = s.cnt) : candidateOf s = candidateEntropy (entriesOf s.cnt s.pl) := by
  have hsum := entOfWords_add_csOfWords s.cnt
  rw [candidateOf, candidateEntropy, entriesOf_length, cbsSlice_eq_slice_entries h hd hs hpos (by omega)]

theorem claimedOf_eq_claimedBits {s : State} (h : Inv s) (hd : DataInv Config.params s) (hs : s.st = .decGather)
    (hpos : s.pos = s.cnt) : claimedOf s = claimedBits (entriesOf s.cnt s.pl) := by
  have hsum := entOfWords_add_csOfWords s.cnt
  rw [claimedOf, claimedBits, entriesOf_length, cbsSlice_eq_slice_entries h hd hs hpos (by omega)]

/-- The candidate entropy fits the response data, because CBS has 264 bits (41_decode.md R93). -/
theorem candidateOf_length_le (s : State) : (candidateOf s).length ≤ 64 := by
  simp only [candidateOf, cbsSlice, slice, bytes_length, List.length_take, List.length_drop, Vector.length_toList]
  omega

/-- DEC_VERIFY answers the verdict of the command-level function (41_decode.md R93, R94). -/
theorem dataInv_decVerify {s : State} (h : Inv s) (hd : DataInv Config.params s) (hs : s.st = .decGather)
    (hpos : s.pos = s.cnt) : DataInv Config.params (decVerify Config.params s) := by
  obtain ⟨hb, hc⟩ := running_decode (.inr hs)
  obtain ⟨ha, hcnt⟩ := h.dec_gather hs
  rw [← hcnt] at ha
  have hnone := firstMiss_none s.cnt s.pl (hpos ▸ hd.dec_no_miss hs)
  have hcand := candidateOf_eq_candidateEntropy h hd hs hpos
  have hclaim := claimedOf_eq_claimedBits h hd hs hpos
  have hresponse : instrResponse Config.params s.pl (.decode s.a) =
      if checksumEqual (Config.params.h256 (candidateOf s)) (csOfWords s.cnt) (claimedOf s) then
        successResponse (candidateOf s)
      else failureResponse .checksumMismatch 0 := by
    simp only [instrResponse, decodeResponse, if_pos ha, ← hcnt, hnone, ← hcand, ← hclaim, entriesOf_length]
  simp only [decVerify]
  split
  case isTrue hv =>
    exact dataInv_respond h hb hc (candidateOf_length_le s) (by rw [hresponse, if_pos hv, successResponse])
  case isFalse hv =>
    exact dataInv_respond h hb hc (Nat.zero_le _) (by rw [hresponse, if_neg hv, failureResponse])

theorem dataInv_decodeStep {s t : State} (h : Inv s) (hd : DataInv Config.params s) {a : Operand}
    (ht : decodeStep Config.params a s = .next t) : DataInv Config.params t := by
  rcases decodeStep_cases ht with ⟨_, rfl⟩ | ⟨hs, rfl⟩ | ⟨hs, hpos, rfl⟩ | ⟨hs, hpos, rfl⟩ | ⟨_, _, _, rfl⟩
  · exact dataInv_issueAs hd _
  · exact dataInv_decCheck h hs
  · exact dataInv_decGather h hd hs hpos
  · exact dataInv_decVerify h hd hs hpos
  · exact hd

/-! ## DERIVE -/

/-- The response of DERIVE in terms of the payload's two strings (42_derive.md R100). -/
theorem instrResponse_derive (p : Params) (s : State) :
    instrResponse p s.pl (.derive s.a s.b) = deriveResponse p (passwordOf s) (passphraseOf s) := rfl

/-- KDF_CHECK passes well-formed strings and answers `InvalidEncoding` otherwise (42_derive.md R104). -/
theorem dataInv_kdfCheck {s : State} (h : Inv s) (hs : s.st = .kdfCheck) :
    DataInv Config.params (kdfCheck Config.params s) := by
  obtain ⟨hb, hc⟩ := running_derive (.inl hs)
  unfold kdfCheck
  split
  case isTrue htext =>
    constructor
    case kdf_text => exact fun _ => Bool.and_eq_true_iff.mp htext
    all_goals simp
  case isFalse htext =>
    refine dataInv_respond h hb hc (Nat.zero_le _) ?_
    rw [instrResponse_derive, deriveResponse, if_neg htext, failureResponse]

/-- KDF_FIRST makes `U = T = U_1` (42_derive.md R105). -/
theorem dataInv_kdfFirst {p : Params} {s : State} (hd : DataInv p s) (hs : s.st = .kdfFirst) :
    DataInv p (kdfFirst p s) := by
  unfold kdfFirst
  constructor
  case kdf_text => exact fun _ => hd.kdf_text (.inl hs)
  case kdf_u => exact fun _ => rfl
  case kdf_t => exact fun _ => rfl
  all_goals simp

/-- KDF_ITER makes the next `U` and adds it to `T` (42_derive.md R106). -/
theorem dataInv_kdfIter {p : Params} {s : State} (h : Inv s) (hd : DataInv p s) (hs : s.st = .kdfIter) :
    DataInv p (kdfIter p s) := by
  have hiter : s.iter + 1 - 1 = s.iter - 1 + 1 := by have := h.kdf_iter hs; omega
  have hu : p.prf512 (passwordOf s) s.u.toList =
      stretchU p (passwordOf s) (saltOf (passphraseOf s)) (s.iter + 1 - 1) := by
    rw [hd.kdf_u hs, hiter, stretchU]
  have ht : xorBytes s.t (p.prf512 (passwordOf s) s.u.toList) =
      stretchT p (passwordOf s) (saltOf (passphraseOf s)) (s.iter + 1 - 1) := by
    rw [hu, hd.kdf_t hs, hiter, stretchT]
  unfold kdfIter
  constructor
  case kdf_text => exact fun _ => hd.kdf_text (.inr hs)
  case kdf_u => exact fun _ => hu
  case kdf_t => exact fun _ => ht
  all_goals simp [hs]

/-- KDF_DONE answers the stretch of 2048 terms (42_derive.md R107). -/
theorem dataInv_kdfDone {s : State} (h : Inv s) (hd : DataInv Config.params s) (hs : s.st = .kdfIter)
    (hiter : s.iter = 2048) : DataInv Config.params (kdfDone s) := by
  obtain ⟨hb, hc⟩ := running_derive (.inr (.inr hs))
  have ht : s.t = stretch Config.params (passwordOf s) (saltOf (passphraseOf s)) := by
    rw [hd.kdf_t hs, hiter, stretch]
  refine dataInv_respond h hb hc (by simp) ?_
  rw [instrResponse_derive, deriveResponse, if_pos (Bool.and_eq_true_iff.mpr (hd.kdf_text (.inr hs))), ← ht,
    successResponse]

theorem dataInv_deriveStep {s t : State} (h : Inv s) (hd : DataInv Config.params s) {a b : Operand}
    (ht : deriveStep Config.params a b s = .next t) : DataInv Config.params t := by
  rcases deriveStep_cases ht with
    ⟨_, rfl⟩ | ⟨hs, rfl⟩ | ⟨hs, rfl⟩ | ⟨hs, _, rfl⟩ | ⟨hs, hiter, rfl⟩ | ⟨_, _, _, _, rfl⟩
  · exact dataInv_issueAs hd _
  · exact dataInv_kdfCheck h hs
  · exact dataInv_kdfFirst hd hs
  · exact dataInv_kdfIter h hd hs
  · exact dataInv_kdfDone h hd hs hiter
  · exact hd

/-! ## The step -/

theorem dataInv_exec {s t : State} (h : Inv s) (hd : DataInv Config.params s) {i : Instr} (ht : exec i s = .next t) :
    DataInv Config.params t := by
  cases i with
  | encode a => exact dataInv_encodeStep h hd ((exec_encode a s).symm.trans ht)
  | decode a => exact dataInv_decodeStep h hd ((exec_decode a s).symm.trans ht)
  | derive a b => exact dataInv_deriveStep h hd ((exec_derive a b s).symm.trans ht)

theorem dataInv_hostStep {p : Params} {s : State} (hd : DataInv p s) : DataInv p (hostStep p s) := by
  rcases hostStep_cases p s with ⟨_, _, e⟩ | ⟨m, _, _, e⟩ | ⟨e, _⟩ <;> rw [e]
  · exact dataInv_of_start (.inl rfl)
  · exact dataInv_issue p m s
  · exact dataInv_passQuiet hd

/-- Settles O46, by the cases of the step: every micro-step writes the next piece of what the command-level function computes,
and every response is that function's. -/
theorem stepKeepsDataInvariants : Obligations.StepKeepsDataInvariants := by
  intro s t h hd ht
  rcases step_cases ht with ⟨_, rfl⟩ | ⟨_, i, _, he⟩ | ⟨_, _, rfl⟩
  · exact dataInv_of_start (.inl rfl)
  · exact dataInv_exec (inv_passQuiet h) (dataInv_passQuiet hd) he
  · exact dataInv_hostStep hd

end Sys2Proof.Machine

/-! PROOFS. The register invariants are kept by every step (10_state.md R34, R25), the frames of the micro-steps (10_state.md R20,
R22, R23, R29), the transitions of the sequencer (10_state.md R21) and what a step lets the host observe. -/

namespace Sys2Proof.Machine

open Sys2Proof

/-! ## What a micro-step with a check can do: go on, or fail -/

theorem encCheck_cases (s : State) :
    (s.a.toNat ∈ Config.entLengths ∧ encCheck s = { s with
      cbs := fill 264 false (bits (entropyOf s)), nbits := 8 * s.a.toNat, idx := Vector.replicate 24 0, st := .encHash }) ∨
    (s.a.toNat ∉ Config.entLengths ∧ encCheck s = respond .invalidEntropyLength 0 [] s) := by
  unfold encCheck
  split
  · exact .inl ⟨‹_›, rfl⟩
  · exact .inr ⟨‹_›, rfl⟩

theorem encHash_cases (p : Params) (s : State) :
    ((s.nbits + csOfBytes s.a.toNat) % 11 = 0 ∧ encHash p s = { s with
      dig := p.h256 (entropyOf s),
      cbs := putBits s.cbs s.nbits (checksumBits (p.h256 (entropyOf s)) (csOfBytes s.a.toNat)),
      nbits := s.nbits + csOfBytes s.a.toNat, cnt := (s.nbits + csOfBytes s.a.toNat) / 11, cur := 0, pos := 0,
      st := .encChunk }) ∨
    ((s.nbits + csOfBytes s.a.toNat) % 11 ≠ 0 ∧ encHash p s = respond .internalInvariantViolation 0 [] s) := by
  unfold encHash
  dsimp only
  split
  · exact .inl ⟨‹_›, rfl⟩
  · exact .inr ⟨‹_›, rfl⟩

theorem decCheck_cases (s : State) :
    (s.a.toNat ∈ Config.wordCounts ∧ decCheck s = { s with
      cnt := s.a.toNat, idx := idxOfPayload s.pl s.a.toNat, cbs := Vector.replicate 264 false, nbits := 0, cur := 0,
      pos := 0, st := .decGather }) ∨
    (s.a.toNat ∉ Config.wordCounts ∧ decCheck s = respond .invalidWordCount 0 [] s) := by
  unfold decCheck
  split
  · exact .inl ⟨‹_›, rfl⟩
  · exact .inr ⟨‹_›, rfl⟩

theorem decGather_cases (s : State) :
    (missFlag (idxAt s s.pos) = false ∧ decGather s = { s with
      cbs := putBits s.cbs s.cur (streamOf 11 (wordIndex (idxAt s s.pos)).toNat),
      cur := s.cur + 11, pos := s.pos + 1, nbits := s.cur + 11 }) ∨
    (missFlag (idxAt s s.pos) = true ∧ decGather s = respond .unknownWord (BitVec.ofNat 8 s.pos) [] s) := by
  unfold decGather
  split
  · exact .inr ⟨‹_›, rfl⟩
  · exact .inl ⟨Bool.eq_false_iff.mpr ‹_›, rfl⟩

/-- The digest that DEC_VERIFY writes is cleared by the response (00_scope.md R12). -/
theorem decVerify_cases (p : Params) (s : State) :
    (checksumEqual (p.h256 (candidateOf s)) (csOfWords s.cnt) (claimedOf s) = true ∧
      decVerify p s = respond .ok 0 (candidateOf s) s) ∨
    (checksumEqual (p.h256 (candidateOf s)) (csOfWords s.cnt) (claimedOf s) = false ∧
      decVerify p s = respond .checksumMismatch 0 [] s) := by
  unfold decVerify
  dsimp only
  split
  · exact .inl ⟨‹_›, rfl⟩
  · exact .inr ⟨Bool.eq_false_iff.mpr ‹_›, rfl⟩

theorem kdfCheck_cases (p : Params) (s : State) :
    ((p.utf8ok (passwordOf s) && p.utf8ok (passphraseOf s)) = true ∧ kdfCheck p s = { s with st := .kdfFirst }) ∨
    ((p.utf8ok (passwordOf s) && p.utf8ok (passphraseOf s)) = false ∧
      kdfCheck p s = respond .invalidEncoding 0 [] s) := by
  unfold kdfCheck
  split
  · exact .inl ⟨‹_›, rfl⟩
  · exact .inr ⟨Bool.eq_false_iff.mpr ‹_›, rfl⟩

/-! ## Frames: outside IDLE a step responds or writes the registers of its datapath alone (10_state.md R20) -/

/-- The step formed a response. -/
def Responds (s t : State) : Prop := ∃ k info data, t = respond k info data s

theorem Responds.st_eq {s t : State} (h : Responds s t) : t.st = .resp := by
  obtain ⟨k, info, data, rfl⟩ := h
  rfl

/-- Only registers that R20 lists as written by ENCODE's micro-steps changed. -/
def WritesEncode (s t : State) : Prop :=
  t = { s with st := t.st, cbs := t.cbs, nbits := t.nbits, cur := t.cur, pos := t.pos, cnt := t.cnt, idx := t.idx, dig := t.dig }

/-- Only registers that R20 lists as written by DECODE's micro-steps changed. -/
def WritesDecode (s t : State) : Prop :=
  t = { s with st := t.st, cbs := t.cbs, nbits := t.nbits, cur := t.cur, pos := t.pos, cnt := t.cnt, idx := t.idx }

/-- Only registers that R20 lists as written by DERIVE's micro-steps changed. -/
def WritesDerive (s t : State) : Prop := t = { s with st := t.st, u := t.u, t := t.t, iter := t.iter }

/-- Only the sequencer state and the datapath registers changed. -/
def WritesDatapath (s t : State) : Prop :=
  t = { s with
    st := t.st, cbs := t.cbs, nbits := t.nbits, cur := t.cur, pos := t.pos, cnt := t.cnt, idx := t.idx, dig := t.dig,
    u := t.u, t := t.t, iter := t.iter }

theorem encodeStep_frame {p : Params} {a : Operand} {s t : State} (hs : s.st ≠ .idle)
    (h : encodeStep p a s = .next t) : Responds s t ∨ WritesEncode s t := by
  rcases encodeStep_cases h with
    ⟨hi, -⟩ | ⟨-, rfl⟩ | ⟨-, rfl⟩ | ⟨-, -, rfl⟩ | ⟨-, -, rfl⟩ | ⟨-, -, -, -, rfl⟩
  · exact absurd hi hs
  · rcases encCheck_cases s with ⟨-, e⟩ | ⟨-, e⟩ <;> rw [e]
    · exact .inr rfl
    · exact .inl ⟨_, _, _, rfl⟩
  · rcases encHash_cases p s with ⟨-, e⟩ | ⟨-, e⟩ <;> rw [e]
    · exact .inr rfl
    · exact .inl ⟨_, _, _, rfl⟩
  · exact .inr rfl
  · exact .inl ⟨_, _, _, rfl⟩
  · exact .inr rfl

theorem decodeStep_frame {p : Params} {a : Operand} {s t : State} (hs : s.st ≠ .idle)
    (h : decodeStep p a s = .next t) : Responds s t ∨ WritesDecode s t := by
  rcases decodeStep_cases h with ⟨hi, -⟩ | ⟨-, rfl⟩ | ⟨-, -, rfl⟩ | ⟨-, -, rfl⟩ | ⟨-, -, -, rfl⟩
  · exact absurd hi hs
  · rcases decCheck_cases s with ⟨-, e⟩ | ⟨-, e⟩ <;> rw [e]
    · exact .inr rfl
    · exact .inl ⟨_, _, _, rfl⟩
  · rcases decGather_cases s with ⟨-, e⟩ | ⟨-, e⟩ <;> rw [e]
    · exact .inr rfl
    · exact .inl ⟨_, _, _, rfl⟩
  · rcases decVerify_cases p s with ⟨-, e⟩ | ⟨-, e⟩ <;> exact .inl ⟨_, _, _, e⟩
  · exact .inr rfl

theorem deriveStep_frame {p : Params} {a b : Operand} {s t : State} (hs : s.st ≠ .idle)
    (h : deriveStep p a b s = .next t) : Responds s t ∨ WritesDerive s t := by
  rcases deriveStep_cases h with
    ⟨hi, -⟩ | ⟨-, rfl⟩ | ⟨-, rfl⟩ | ⟨-, -, rfl⟩ | ⟨-, -, rfl⟩ | ⟨-, -, -, -, rfl⟩
  · exact absurd hi hs
  · rcases kdfCheck_cases p s with ⟨-, e⟩ | ⟨-, e⟩ <;> rw [e]
    · exact .inr rfl
    · exact .inl ⟨_, _, _, rfl⟩
  · exact .inr rfl
  · exact .inr rfl
  · exact .inl ⟨_, _, _, rfl⟩
  · exact .inr rfl

theorem WritesEncode.datapath {s t : State} (h : WritesEncode s t) : WritesDatapath s t := by
  rw [WritesEncode] at h
  rw [h]; rfl

theorem WritesDecode.datapath {s t : State} (h : WritesDecode s t) : WritesDatapath s t := by
  rw [WritesDecode] at h
  rw [h]; rfl

theorem WritesDerive.datapath {s t : State} (h : WritesDerive s t) : WritesDatapath s t := by
  rw [WritesDerive] at h
  rw [h]; rfl

/-- The latches, the response registers and the host's side are no datapath registers (10_state.md R22, R23, R29). -/
theorem WritesDatapath.frame {s t : State} (h : WritesDatapath s t) :
    t.cw = s.cw ∧ t.a = s.a ∧ t.b = s.b ∧ t.pl = s.pl ∧ t.pllen = s.pllen ∧ t.rv = s.rv ∧ t.rstat = s.rstat ∧
      t.rinfo = s.rinfo ∧ t.rlen = s.rlen ∧ t.rdata = s.rdata ∧ t.script = s.script ∧ t.issued = s.issued ∧
      t.obs = s.obs := by
  rw [WritesDatapath] at h
  rw [h]
  exact ⟨rfl, rfl, rfl, rfl, rfl, rfl, rfl, rfl, rfl, rfl, rfl, rfl, rfl⟩

/-- Outside IDLE a step of any command responds or writes the sequencer state and the datapath alone. -/
theorem exec_frame {i : Instr} {s t : State} (hs : s.st ≠ .idle) (h : exec i s = .next t) :
    Responds s t ∨ WritesDatapath s t := by
  cases i with
  | encode a => exact (encodeStep_frame hs h).imp_right WritesEncode.datapath
  | decode a => exact (decodeStep_frame hs h).imp_right WritesDecode.datapath
  | derive a b => exact (deriveStep_frame hs h).imp_right WritesDerive.datapath

/-- Settles O39: a step outside IDLE that does not respond writes the sequencer state and the datapath alone. -/
theorem microStepsKeepLatchesAndResponse : Obligations.MicroStepsKeepLatchesAndResponse := by
  intro i s t hs he hresp
  rcases exec_frame hs he with hr | hw
  · exact absurd hr.st_eq hresp
  · exact hw.frame

/-- Settles O40: a step outside IDLE that does not respond writes the registers of its own command alone. -/
theorem datapathsKeepEachOthersRegisters : Obligations.DatapathsKeepEachOthersRegisters := by
  refine ⟨fun a s t hs he hresp => ?_, fun a s t hs he hresp => ?_, fun a b s t hs he hresp => ?_⟩
  · have hw := (encodeStep_frame hs he).resolve_left fun hr => hresp hr.st_eq
    rw [WritesEncode] at hw
    rw [hw]
    exact ⟨rfl, rfl, rfl⟩
  · have hw := (decodeStep_frame hs he).resolve_left fun hr => hresp hr.st_eq
    rw [WritesDecode] at hw
    rw [hw]
    exact ⟨rfl, rfl, rfl, rfl⟩
  · have hw := (deriveStep_frame hs he).resolve_left fun hr => hresp hr.st_eq
    rw [WritesDerive] at hw
    rw [hw]
    exact ⟨rfl, rfl, rfl, rfl, rfl, rfl, rfl⟩

/-! ## The step of the command in progress (10_state.md R21, R54) -/

/-- When no reset is asserted, the step is that of the command `commandAt` names. -/
theorem step_of_commandAt {s : State} {i : Instr} (hr : nextInput s ≠ some .reset) (hi : commandAt s = some i) :
    step s = exec i (passQuiet s) := by
  have hreset : resetAsserted s = false := Bool.eq_false_iff.mpr (mt resetAsserted_iff.mp hr)
  simp [step, hreset, hi]

/-- In IDLE the command of the next step is the one whose word the host presents. -/
theorem commandAt_presented {s : State} {m : Message} {i : Instr} (hm : presented s = some m)
    (hi : decodeWord m.cw = .ok i) : commandAt s = some i := by
  simp [commandAt, idle_of_presented hm, hm, hi, Except.toOption]

/-- Settles O7: `commandAt` names the presented command in IDLE, where no quiet input stands before it, and the one in progress
in every working state. -/
theorem stepRunsDecodedCommand : Obligations.StepRunsDecodedCommand := by
  refine ⟨fun s m i _ hm hi => ?_, fun s hr => ⟨fun hs => ?_, fun hs => ?_, fun hs => ?_⟩⟩
  · have hp := presented_eq_some.mpr hm
    rw [step_of_commandAt (by simp [hm]) (commandAt_presented hp hi), presented_passQuiet hp]
  · exact step_of_commandAt hr (running_encode hs).2
  · exact step_of_commandAt hr (running_decode hs).2
  · exact step_of_commandAt hr (running_derive hs).2

/-! ## What the host observes (60_exceptions.md R157) -/

theorem issue_obs (p : Params) (m : Message) (s : State) : (issue p m s).obs = s.obs := by
  rcases issue_cases p m s with ⟨-, e⟩ | ⟨-, e⟩ <;> rw [e] <;> rfl

/-- The issue step of a command issues the presented message or waits (30_encoding.md R72). -/
theorem issueAs_cases (p : Params) (i : Instr) (s : State) :
    (∃ m, presented s = some m ∧ issueAs p i s = issue p m s) ∨ issueAs p i s = s := by
  unfold issueAs
  split
  · split
    · exact .inl ⟨_, ‹_›, rfl⟩
    · exact .inr rfl
  · exact .inr rfl

/-- In IDLE a step of a command is its issue step. -/
theorem exec_idle {i : Instr} {s t : State} (hs : s.st = .idle) (h : exec i s = .next t) :
    t = issueAs Config.params i s := by
  cases i with
  | encode a => simpa [exec_encode, encodeStep, hs] using h.symm
  | decode a => simpa [exec_decode, decodeStep, hs] using h.symm
  | derive a b => simpa [exec_derive, deriveStep, hs] using h.symm

/-- A step of a command adds no observation pair. -/
theorem exec_obs {i : Instr} {s t : State} (h : exec i s = .next t) : t.obs = s.obs := by
  by_cases hs : s.st = .idle
  · rw [exec_idle hs h]
    rcases issueAs_cases Config.params i s with ⟨m, -, e⟩ | e <;> rw [e]
    exact issue_obs _ _ _
  · rcases exec_frame hs h with ⟨_, _, _, rfl⟩ | hw
    · rfl
    · rw [WritesDatapath] at hw
      rw [hw]

/-- Settles O42: a reset, a command's step and a wait keep the observation; a take adds the message owed, if there is one. -/
theorem onlyTakeIsObserved : Obligations.OnlyTakeIsObserved := by
  intro s t h
  rcases step_cases h with ⟨-, rfl⟩ | ⟨-, i, -, he⟩ | ⟨-, -, rfl⟩
  · exact .inl rfl
  · exact .inl ((exec_obs he).trans (passQuiet_obs s))
  · rcases hostStep_cases Config.params s with ⟨hs, ht, e⟩ | ⟨m, -, -, e⟩ | ⟨e, -⟩ <;> rw [e]
    · cases hm : s.issued with
      | none => exact .inl (by simp [observe, hm])
      | some m => exact .inr ⟨hs, m, takeReady_iff.mp ht, rfl, by simp [observe, hm, responseOf]⟩
    · exact .inl (issue_obs _ _ _)
    · exact .inl (passQuiet_obs s)

/-! ## Transitions of the sequencer (10_state.md R21) -/

/-- The rows of the table of R21, then the two waits of the host's states. -/
def transitions : List (SeqState × SeqState) :=
  [(.idle, .encCheck), (.idle, .decCheck), (.idle, .kdfCheck), (.idle, .resp), (.encCheck, .encHash),
   (.encCheck, .resp), (.encHash, .encChunk), (.encHash, .resp), (.encChunk, .encChunk), (.encChunk, .resp),
   (.decCheck, .decGather), (.decCheck, .resp), (.decGather, .decGather), (.decGather, .resp),
   (.kdfCheck, .kdfFirst), (.kdfCheck, .resp), (.kdfFirst, .kdfIter), (.kdfIter, .kdfIter), (.kdfIter, .resp),
   (.resp, .idle), (.idle, .idle), (.resp, .resp)]

theorem issue_transition (p : Params) {m : Message} {s : State} (hm : presented s = some m) :
    (s.st, (issue p m s).st) ∈ transitions := by
  rw [idle_of_presented hm]
  rcases issue_cases p m s with ⟨-, e⟩ | ⟨-, e⟩ <;> rw [e]
  · rcases entryState_cases m.cw with hst | hst | hst <;> simp [hst, transitions]
  · simp [transitions]

theorem issueAs_transition {p : Params} {i : Instr} {s : State} (hs : s.st = .idle) :
    (s.st, (issueAs p i s).st) ∈ transitions := by
  rcases issueAs_cases p i s with ⟨m, hm, e⟩ | e <;> rw [e]
  · exact issue_transition p hm
  · simp [hs, transitions]

theorem encodeStep_transition {p : Params} {a : Operand} {s t : State}
    (hs : s.st = .encCheck ∨ s.st = .encHash ∨ s.st = .encChunk) (h : encodeStep p a s = .next t) :
    (s.st, t.st) ∈ transitions := by
  rcases encodeStep_cases h with
    ⟨hi, rfl⟩ | ⟨hs, rfl⟩ | ⟨hs, rfl⟩ | ⟨hs, -, rfl⟩ | ⟨hs, -, rfl⟩ | ⟨-, h1, h2, h3, -⟩
  · exact issueAs_transition hi
  · rcases encCheck_cases s with ⟨-, e⟩ | ⟨-, e⟩ <;> simp [e, hs, transitions]
  · rcases encHash_cases p s with ⟨-, e⟩ | ⟨-, e⟩ <;> simp [e, hs, transitions]
  · simp [encChunk, hs, transitions]
  · simp [encDone, hs, transitions]
  · simp [h1, h2, h3] at hs

theorem decodeStep_transition {p : Params} {a : Operand} {s t : State}
    (hs : s.st = .decCheck ∨ s.st = .decGather) (h : decodeStep p a s = .next t) : (s.st, t.st) ∈ transitions := by
  rcases decodeStep_cases h with ⟨hi, rfl⟩ | ⟨hs, rfl⟩ | ⟨hs, -, rfl⟩ | ⟨hs, -, rfl⟩ | ⟨-, h1, h2, -⟩
  · exact issueAs_transition hi
  · rcases decCheck_cases s with ⟨-, e⟩ | ⟨-, e⟩ <;> simp [e, hs, transitions]
  · rcases decGather_cases s with ⟨-, e⟩ | ⟨-, e⟩ <;> simp [e, hs, transitions]
  · rcases decVerify_cases p s with ⟨-, e⟩ | ⟨-, e⟩ <;> simp [e, hs, transitions]
  · simp [h1, h2] at hs

theorem deriveStep_transition {p : Params} {a b : Operand} {s t : State}
    (hs : s.st = .kdfCheck ∨ s.st = .kdfFirst ∨ s.st = .kdfIter) (h : deriveStep p a b s = .next t) :
    (s.st, t.st) ∈ transitions := by
  rcases deriveStep_cases h with
    ⟨hi, rfl⟩ | ⟨hs, rfl⟩ | ⟨hs, rfl⟩ | ⟨hs, -, rfl⟩ | ⟨hs, -, rfl⟩ | ⟨-, h1, h2, h3, -⟩
  · exact issueAs_transition hi
  · rcases kdfCheck_cases p s with ⟨-, e⟩ | ⟨-, e⟩ <;> simp [e, hs, transitions]
  · simp [kdfFirst, hs, transitions]
  · simp [kdfIter, hs, transitions]
  · simp [kdfDone, hs, transitions]
  · simp [h1, h2, h3] at hs

/-- A step of the command `commandAt` names is one of the table's. -/
theorem exec_transition {i : Instr} {s t : State} (hi : commandAt s = some i) (h : exec i (passQuiet s) = .next t) :
    (s.st, t.st) ∈ transitions := by
  rw [← passQuiet_st s]
  rcases commandAt_cases hi with ⟨hs, -⟩ | ⟨hs, rfl⟩ | ⟨hs, rfl⟩ | ⟨hs, rfl⟩ <;> rw [← passQuiet_st s] at hs
  · rw [exec_idle hs h]
    exact issueAs_transition hs
  · exact encodeStep_transition hs h
  · exact decodeStep_transition hs h
  · exact deriveStep_transition hs h

/-- Where `commandAt` names no command, the sequencer is in one of the host's two states. -/
theorem idle_or_resp_of_commandAt {s : State} (h : commandAt s = none) : s.st = .idle ∨ s.st = .resp := by
  unfold commandAt at h
  split at h <;> simp_all

theorem hostStep_transition {p : Params} {s : State} (h : commandAt s = none) :
    (s.st, (hostStep p s).st) ∈ transitions := by
  rcases hostStep_cases p s with ⟨hs, -, e⟩ | ⟨m, -, hm, e⟩ | ⟨e, -⟩ <;> rw [e]
  · simp [hs, transitions]
  · exact issue_transition p hm
  · rcases idle_or_resp_of_commandAt h with hs | hs <;> simp [hs, transitions]

/-- Settles O43, by the cases of the step. -/
theorem transitionsAreThoseOfTheTable : Obligations.TransitionsAreThoseOfTheTable := by
  intro s t h
  rcases step_cases h with ⟨hr, rfl⟩ | ⟨-, i, hi, he⟩ | ⟨-, hn, rfl⟩
  · exact .inl ⟨resetAsserted_iff.mp hr, rfl⟩
  · exact .inr (exec_transition hi he)
  · exact .inr (hostStep_transition hn)

/-- Settles O44: the reset state meets the register invariants, is in IDLE, and nothing has been observed in it. -/
theorem invariantsHoldAtReset : Obligations.InvariantsHoldAtReset :=
  ⟨inv_reset [] [], dataInv_of_start (.inl rfl), fun _ hx => absurd hx List.not_mem_nil⟩

/-! ## The invariants of a running command -/

/-- The part of `Inv` that speaks of the datapath, the only part a micro-step has to keep by its own writes: the ranges of the
counters and what each working state asks of them (10_state.md R34 (c), (d), (e), R25). -/
structure DatapathInv (s : State) : Prop where
  cbs_beyond : ∀ q, (h : q < 264) → s.nbits ≤ q → s.cbs[q] = false
  idx_beyond : ∀ k, (h : k < 24) → s.cnt ≤ k → s.idx[k] = 0
  nbits_le : s.nbits ≤ 264
  cur_le : s.cur ≤ s.nbits
  pos_le : s.pos ≤ s.cnt
  cnt_le : s.cnt ≤ 24
  iter_le : s.iter ≤ 2048
  cursor : s.st = .encChunk ∨ s.st = .decGather → s.cur = 11 * s.pos
  gather_cur : s.st = .decGather → s.cur = s.nbits
  start_clear : s.st = .encCheck ∨ s.st = .decCheck ∨ s.st = .kdfCheck → DatapathZero s
  enc_hash : s.st = .encHash → s.a.toNat ∈ Config.entLengths ∧ s.nbits = 8 * s.a.toNat ∧ s.cnt = 0
  enc_chunk : s.st = .encChunk →
    s.a.toNat ∈ Config.entLengths ∧ s.nbits = 11 * s.cnt ∧ 4 * s.cnt = 3 * s.a.toNat
  dec_gather : s.st = .decGather → s.a.toNat ∈ Config.wordCounts ∧ s.cnt = s.a.toNat
  kdf_iter : s.st = .kdfIter → 1 ≤ s.iter

theorem Inv.datapath {s : State} (h : Inv s) : DatapathInv s := { h with }

/-- In a working state three facts make up `Inv`: no response, a latched message that is owed its response, and the datapath's
part. -/
theorem inv_of_busy {s : State} (hb : Busy s) (hr : ResponseZero s)
    (hl : s.a = cwA s.cw ∧ s.b = cwB s.cw ∧ s.pllen = s.pl.length ∧ commandAt s = (decodeWord s.cw).toOption ∧
      framingLegal Config.params ⟨s.cw, s.pl⟩ = true ∧ s.issued = some ⟨s.cw, s.pl⟩)
    (hd : DatapathInv s) : Inv s :=
  { hd with
    idle_clear := fun hs => absurd hs hb.1
    resp_iff_rv := by simp [hb.2, hr.rv]
    resp_clear := fun hs => absurd hs hb.2
    no_response := fun _ => hr
    rlen_le := by simp [hr.rlen]
    rdata_beyond := fun j hj _ => by simp [hr.rdata]
    latched := fun _ => hl
    owed := by simp [hl, hb.1]
    status := by simp [hr.rstat]
    failure_empty := fun _ => hr.rlen
    info := by simp [hr.rinfo] }

/-- A micro-step that leaves its command in progress keeps the invariants if it keeps the datapath's part. -/
theorem inv_of_microStep {s t : State} {i : Instr} (h : Inv s) (hs : Busy s ∧ commandAt s = some i)
    (ht : Busy t ∧ commandAt t = some i) (hw : WritesDatapath s t) (hd : DatapathInv t) : Inv t := by
  obtain ⟨hcw, ha, hb, hpl, hpllen, hrv, hrstat, hrinfo, hrlen, hrdata, -, hissued, -⟩ := hw.frame
  obtain ⟨hbusy, hcmd⟩ := hs
  obtain ⟨hbusy', hcmd'⟩ := ht
  have hr := h.no_response hbusy.2
  refine inv_of_busy hbusy' ⟨hrv.trans hr.rv, hrstat.trans hr.rstat, hrinfo.trans hr.rinfo, hrlen.trans hr.rlen,
    hrdata.trans hr.rdata⟩ ?_ hd
  rw [hcw, ha, hb, hpl, hpllen, hissued, hcmd', ← hcmd]
  exact h.latched hbusy

/-- At the start of a command, with the datapath at its reset values, the datapath's part of the invariants holds. -/
theorem datapathInv_of_start {s : State} (hz : DatapathZero s) (hs : s.st = .encCheck ∨ s.st = .decCheck ∨ s.st = .kdfCheck) :
    DatapathInv s := by
  constructor
  case start_clear => exact fun _ => hz
  case cbs_beyond => simp [hz.cbs]
  case idx_beyond => simp [hz.idx]
  case nbits_le => simp [hz.nbits]
  case cur_le => simp [hz.cur]
  case pos_le => simp [hz.pos]
  case cnt_le => simp [hz.cnt]
  case iter_le => simp [hz.iter]
  all_goals rcases hs with hs | hs | hs <;> simp [hs]

/-- Past the end of the list a filled register holds the filler. -/
theorem fill_getElem_beyond {α : Type} (n : Nat) (d : α) (l : List α) (k : Nat) (h : k < n) (hl : l.length ≤ k) :
    (fill n d l)[k] = d := by
  rw [fill_getElem, List.getD_eq_getElem?_getD, List.getElem?_eq_none hl, Option.getD_none]

/-! ## Responses -/

/-- Outside IDLE a response is owed (60_exceptions.md R157). -/
theorem issued_ne_none {s : State} (h : Inv s) (hs : s.st ≠ .idle) : s.issued ≠ none := mt h.owed.mp hs

/-- A failure without information leaves the invariants (60_exceptions.md R149). -/
theorem inv_failure {s : State} {k : Status} (hissued : s.issued ≠ none) (hk : k ≠ .internalInvariantViolation) :
    Inv (respond k 0 [] s) :=
  inv_respond k 0 [] hissued hk (Nat.zero_le _) (fun _ => rfl) (absurd rfl) (Nat.zero_le _)

/-- A success leaves the invariants when its data fits RDATA (30_encoding.md R67). -/
theorem inv_success {s : State} {data : Bytes} (hissued : s.issued ≠ none) (hd : data.length ≤ 64) :
    Inv (respond .ok 0 data s) :=
  inv_respond .ok 0 data hissued (by decide) hd (absurd rfl) (absurd rfl) (Nat.zero_le _)

/-! ## Issue and take -/

/-- A legal word enters the state whose command is the word's (30_encoding.md R73). -/
theorem commandAt_latch {p : Params} {m : Message} (hf : framingLegal p m = true) (s : State) :
    commandAt (latch m s) = (decodeWord m.cw).toOption := by
  rcases framingLegal_cases hf with ⟨hop, hb, -⟩ | ⟨hop, hb, -⟩ | ⟨hop, -⟩
  · simp [commandAt, entryState, hop, decodeWord_op1 hop hb, Except.toOption]
  · simp [commandAt, entryState, hop, decodeWord_op2 hop hb, Except.toOption]
  · simp [commandAt, entryState, hop, decodeWord_op3 hop, Except.toOption]

/-- `issue` in IDLE keeps the invariants: it latches a legal message over zero registers, or fails (30_encoding.md R73). -/
theorem inv_issue {s : State} (h : Inv s) (hs : s.st = .idle) (m : Message) : Inv (issue Config.params m s) := by
  obtain ⟨hwork, hresp⟩ := h.idle_clear hs
  rcases issue_cases Config.params m s with ⟨hf, e⟩ | ⟨-, e⟩ <;> rw [e]
  · have hstart := entryState_cases m.cw
    have hbusy : Busy (latch m (handOver m s)) := by
      rcases hstart with hst | hst | hst <;> simp [Busy, hst]
    refine inv_of_busy hbusy { hresp with } ⟨rfl, rfl, rfl, commandAt_latch hf _, hf, rfl⟩ ?_
    exact datapathInv_of_start { hwork with } hstart
  · exact inv_failure (by simp) (by decide)

theorem inv_issueAs {s : State} (h : Inv s) (hs : s.st = .idle) (i : Instr) : Inv (issueAs Config.params i s) := by
  rcases issueAs_cases Config.params i s with ⟨m, -, e⟩ | e <;> rw [e]
  · exact inv_issue h hs m
  · exact h

/-- `take` clears what RESP still holds, so it leaves the reset state but for the host's side (60_exceptions.md R147). -/
theorem take_eq_reset {s : State} (h : Inv s) (hs : s.st = .resp) :
    take s = { State.reset with script := laterInputs s, obs := observe s } := by
  obtain ⟨⟨hcbs, hnbits, hcur, hpos, hcnt, hidx, hdig, hu, ht, hiter⟩, hcw, ha, hb, hpl, hpllen⟩ := h.resp_clear hs
  simp [take, clearResponse, advanceHost, State.reset, *]

theorem inv_take {s : State} (h : Inv s) (hs : s.st = .resp) : Inv (take s) := by
  rw [take_eq_reset h hs]
  exact inv_reset _ _

/-! ## ENCODE -/

/-- ENC_CHECK loads as many bits as the latched length announces (40_encode.md R81). -/
theorem inv_encCheck {s : State} (h : Inv s) (hs : s.st = .encCheck) : Inv (encCheck s) := by
  have hrun := running_encode (.inl hs)
  rcases encCheck_cases s with ⟨ha, e⟩ | ⟨-, e⟩ <;> rw [e]
  · have hz := h.start_clear (.inl hs)
    obtain ⟨-, -, ha32⟩ := streamLength_of_entLength ha
    have hlen : (bits (entropyOf s)).length = 8 * s.a.toNat := by
      rw [bits_length, entropyOf_eq_payload h (.inl hs), encode_payload_length h (.inl hs)]
    refine inv_of_microStep h hrun (running_encode (.inr (.inl rfl))) rfl ?_
    constructor
    case cbs_beyond => exact fun q hq hn => fill_getElem_beyond _ _ _ q hq (hlen ▸ hn)
    case nbits_le => exact (show 8 * s.a.toNat ≤ 264 by omega)
    case cur_le => exact hz.cur ▸ Nat.zero_le _
    case pos_le => exact h.pos_le
    case cnt_le => exact h.cnt_le
    case iter_le => exact h.iter_le
    case enc_hash => exact fun _ => ⟨ha, rfl, hz.cnt⟩
    all_goals simp
  · exact inv_failure (issued_ne_none h (by simp [hs])) (by decide)

/-- A legal entropy length is a whole number of groups of four bytes (00_scope.md R13). -/
theorem four_dvd_of_entLength {l : Nat} (hl : l ∈ Config.entLengths) : 4 ∣ l := by
  simp only [Config.entLengths, List.mem_cons, List.not_mem_nil, or_false] at hl
  omega

/-- ENC_HASH completes the stream to a whole number of windows, so its defensive check passes (40_encode.md R82, R86). -/
theorem inv_encHash {s : State} (h : Inv s) (hs : s.st = .encHash) : Inv (encHash Config.params s) := by
  have hrun := running_encode (.inr (.inl hs))
  obtain ⟨ha, hnbits, hcnt⟩ := h.enc_hash hs
  obtain ⟨hwindows, hcs, ha32⟩ := streamLength_of_entLength ha
  have hfour := four_dvd_of_entLength ha
  rcases encHash_cases Config.params s with ⟨hdiv, e⟩ | ⟨hdiv, -⟩
  · rw [e]
    refine inv_of_microStep h hrun (running_encode (.inr (.inr rfl))) rfl ?_
    constructor
    case cbs_beyond =>
      intro q hq (hn : s.nbits + csOfBytes s.a.toNat ≤ q)
      refine ((putBits_getElem _ _ _ q hq).1 (.inr ?_)).trans (h.cbs_beyond q hq (by omega))
      rwa [checksumBits_length _ (by omega)]
    case idx_beyond => exact fun k hk _ => h.idx_beyond k hk (by omega)
    case nbits_le => exact (show s.nbits + csOfBytes s.a.toNat ≤ 264 by omega)
    case cnt_le => exact (show (s.nbits + csOfBytes s.a.toNat) / 11 ≤ 24 by omega)
    case iter_le => exact h.iter_le
    case enc_chunk => exact fun _ => ⟨ha, by dsimp only; omega, by dsimp only; omega⟩
    all_goals simp
  · omega

/-- ENC_CHUNK moves the cursor by one window of the `CNT` that the stream has (40_encode.md R83). -/
theorem inv_encChunk {s : State} (h : Inv s) (hs : s.st = .encChunk) (hpos : s.pos < s.cnt) : Inv (encChunk s) := by
  have hrun := running_encode (.inr (.inr hs))
  obtain ⟨-, hnbits, -⟩ := h.enc_chunk hs
  have hcur := h.cursor (.inl hs)
  refine inv_of_microStep h hrun (running_encode (.inr (.inr hs))) rfl ?_
  unfold encChunk
  constructor
  case cbs_beyond => exact h.cbs_beyond
  case idx_beyond =>
    intro k hk (hn : s.cnt ≤ k)
    exact (Vector.getElem_setIfInBounds_ne hk (by omega)).trans (h.idx_beyond k hk hn)
  case nbits_le => exact h.nbits_le
  case cur_le => exact (show s.cur + 11 ≤ s.nbits by omega)
  case pos_le => exact hpos
  case cnt_le => exact h.cnt_le
  case iter_le => exact h.iter_le
  case cursor => exact fun _ => (show s.cur + 11 = 11 * (s.pos + 1) by omega)
  case enc_chunk => exact h.enc_chunk
  all_goals simp [hs]

/-- ENC_DONE answers at most 48 bytes (40_encode.md R84). -/
theorem inv_encDone {s : State} (h : Inv s) (hs : s.st = .encChunk) : Inv (encDone s) := by
  have hcnt := h.cnt_le
  exact inv_success (issued_ne_none h (by simp [hs])) (by rw [encodeData_length]; omega)

theorem inv_encodeStep {a : Operand} {s t : State} (h : Inv s) (ht : encodeStep Config.params a s = .next t) : Inv t := by
  rcases encodeStep_cases ht with
    ⟨hs, rfl⟩ | ⟨hs, rfl⟩ | ⟨hs, rfl⟩ | ⟨hs, hpos, rfl⟩ | ⟨hs, -, rfl⟩ | ⟨-, -, -, -, rfl⟩
  · exact inv_issueAs h hs _
  · exact inv_encCheck h hs
  · exact inv_encHash h hs
  · exact inv_encChunk h hs hpos
  · exact inv_encDone h hs
  · exact h

/-! ## DECODE -/

theorem wordCount_le {n : Nat} (hn : n ∈ Config.wordCounts) : n ≤ 24 := by
  simp only [Config.wordCounts, List.mem_cons, List.not_mem_nil, or_false] at hn
  omega

/-- DEC_CHECK loads as many entries as the latched count announces and starts the cursor (41_decode.md R91). -/
theorem inv_decCheck {s : State} (h : Inv s) (hs : s.st = .decCheck) : Inv (decCheck s) := by
  have hrun := running_decode (.inl hs)
  rcases decCheck_cases s with ⟨ha, e⟩ | ⟨-, e⟩ <;> rw [e]
  · refine inv_of_microStep h hrun (running_decode (.inr rfl)) rfl ?_
    constructor
    case idx_beyond =>
      exact fun k hk hn => fill_getElem_beyond _ _ _ k hk (by simpa using hn)
    case cnt_le => exact wordCount_le ha
    case iter_le => exact h.iter_le
    case dec_gather => exact fun _ => ⟨ha, rfl⟩
    all_goals simp
  · exact inv_failure (issued_ne_none h (by simp [hs])) (by decide)

/-- DEC_GATHER moves the cursor and the end of the stream by one window, or answers a position below 24 (41_decode.md R92). -/
theorem inv_decGather {s : State} (h : Inv s) (hs : s.st = .decGather) (hpos : s.pos < s.cnt) : Inv (decGather s) := by
  have hrun := running_decode (.inr hs)
  have hcur := h.cursor (.inr hs)
  have hend := h.gather_cur hs
  have hcnt := h.cnt_le
  rcases decGather_cases s with ⟨-, e⟩ | ⟨-, e⟩ <;> rw [e]
  · refine inv_of_microStep h hrun (running_decode (.inr hs)) rfl ?_
    constructor
    case cbs_beyond =>
      intro q hq (hn : s.cur + 11 ≤ q)
      refine ((putBits_getElem _ _ _ q hq).1 (.inr ?_)).trans (h.cbs_beyond q hq (by omega))
      rwa [streamOf_length]
    case idx_beyond => exact h.idx_beyond
    case nbits_le => exact (show s.cur + 11 ≤ 264 by omega)
    case pos_le => exact hpos
    case cnt_le => exact hcnt
    case iter_le => exact h.iter_le
    case cursor => exact fun _ => (show s.cur + 11 = 11 * (s.pos + 1) by omega)
    case dec_gather => exact h.dec_gather
    all_goals simp [hs]
  · have hinfo : (BitVec.ofNat 8 s.pos).toNat ≤ 23 := by
      rw [BitVec.toNat_ofNat]
      omega
    exact inv_respond _ _ _ (issued_ne_none h (by simp [hs])) (by decide) (Nat.zero_le _) (fun _ => rfl) (fun _ => rfl) hinfo

/-- DEC_VERIFY answers the candidate entropy or ChecksumMismatch (41_decode.md R93). -/
theorem inv_decVerify {p : Params} {s : State} (h : Inv s) (hs : s.st = .decGather) : Inv (decVerify p s) := by
  have hissued := issued_ne_none h (by simp [hs])
  rcases decVerify_cases p s with ⟨-, e⟩ | ⟨-, e⟩ <;> rw [e]
  · exact inv_success hissued (candidateOf_length_le s)
  · exact inv_failure hissued (by decide)

theorem inv_decodeStep {a : Operand} {s t : State} (h : Inv s) (ht : decodeStep Config.params a s = .next t) : Inv t := by
  rcases decodeStep_cases ht with ⟨hs, rfl⟩ | ⟨hs, rfl⟩ | ⟨hs, hpos, rfl⟩ | ⟨hs, -, rfl⟩ | ⟨-, -, -, rfl⟩
  · exact inv_issueAs h hs _
  · exact inv_decCheck h hs
  · exact inv_decGather h hs hpos
  · exact inv_decVerify h hs
  · exact h

/-! ## DERIVE -/

/-- KDF_CHECK goes on without a write to the datapath, or answers InvalidEncoding (42_derive.md R104). -/
theorem inv_kdfCheck {p : Params} {s : State} (h : Inv s) (hs : s.st = .kdfCheck) : Inv (kdfCheck p s) := by
  have hrun := running_derive (.inl hs)
  rcases kdfCheck_cases p s with ⟨-, e⟩ | ⟨-, e⟩ <;> rw [e]
  · refine inv_of_microStep h hrun (running_derive (.inr (.inl rfl))) rfl { h.datapath with
      cursor := ?_, gather_cur := ?_, start_clear := ?_, enc_hash := ?_, enc_chunk := ?_, dec_gather := ?_, kdf_iter := ?_ }
    all_goals simp
  · exact inv_failure (issued_ne_none h (by simp [hs])) (by decide)

/-- KDF_FIRST makes ITER 1 (42_derive.md R105). -/
theorem inv_kdfFirst {p : Params} {s : State} (h : Inv s) (hs : s.st = .kdfFirst) : Inv (kdfFirst p s) := by
  refine inv_of_microStep h (running_derive (.inr (.inl hs))) (running_derive (.inr (.inr rfl))) rfl { h.datapath with
    iter_le := ?_, cursor := ?_, gather_cur := ?_, start_clear := ?_, enc_hash := ?_, enc_chunk := ?_, dec_gather := ?_,
    kdf_iter := ?_ }
  all_goals simp [kdfFirst]

/-- KDF_ITER counts up to 2048 (42_derive.md R106). -/
theorem inv_kdfIter {p : Params} {s : State} (h : Inv s) (hs : s.st = .kdfIter) (hiter : s.iter < 2048) :
    Inv (kdfIter p s) := by
  refine inv_of_microStep h (running_derive (.inr (.inr hs))) (running_derive (.inr (.inr hs))) rfl { h.datapath with
    iter_le := hiter, start_clear := ?_, kdf_iter := ?_ }
  all_goals simp [kdfIter, hs]

/-- KDF_DONE answers 64 bytes (42_derive.md R107). -/
theorem inv_kdfDone {s : State} (h : Inv s) (hs : s.st = .kdfIter) : Inv (kdfDone s) :=
  inv_success (issued_ne_none h (by simp [hs])) (by simp)

theorem inv_deriveStep {a b : Operand} {s t : State} (h : Inv s) (ht : deriveStep Config.params a b s = .next t) :
    Inv t := by
  rcases deriveStep_cases ht with
    ⟨hs, rfl⟩ | ⟨hs, rfl⟩ | ⟨hs, rfl⟩ | ⟨hs, hiter, rfl⟩ | ⟨hs, -, rfl⟩ | ⟨-, -, -, -, rfl⟩
  · exact inv_issueAs h hs _
  · exact inv_kdfCheck h hs
  · exact inv_kdfFirst h hs
  · exact inv_kdfIter h hs hiter
  · exact inv_kdfDone h hs
  · exact h

/-! ## The step -/

theorem inv_exec {i : Instr} {s t : State} (h : Inv s) (ht : exec i s = .next t) : Inv t := by
  cases i with
  | encode a => exact inv_encodeStep h ht
  | decode a => exact inv_decodeStep h ht
  | derive a b => exact inv_deriveStep h ht

theorem inv_hostStep {s : State} (h : Inv s) : Inv (hostStep Config.params s) := by
  rcases hostStep_cases Config.params s with ⟨hs, -, e⟩ | ⟨m, -, hm, e⟩ | ⟨e, -⟩ <;> rw [e]
  · exact inv_take h hs
  · exact inv_issue h (idle_of_presented hm) m
  · exact inv_passQuiet h

/-- Settles O45, by the cases of the step: in a working state the datapath's part of the invariants is kept by each micro-step,
and a response, a take and a reset leave cleared registers. -/
theorem stepKeepsInvariants : Obligations.StepKeepsInvariants := by
  intro s t h ht
  rcases step_cases ht with ⟨-, rfl⟩ | ⟨-, i, -, he⟩ | ⟨-, -, rfl⟩
  · exact inv_reset _ _
  · exact inv_exec (inv_passQuiet h) he
  · exact inv_hostStep h

end Sys2Proof.Machine

/-! PROOFS. Noninterference: outside IDLE a command's step neither reads nor writes the host's side (20_memory.md R54,
10_state.md R33). -/

namespace Sys2Proof.Machine

open Sys2Proof

/-! ## The host's side replaced -/

/-- The registers of `s` beside another host: its script, the message it is owed a response to and what it has observed. -/
def withHost (script : List HostInput) (issued : Option Message) (obs : List (Message × Response)) (s : State) : State :=
  { s with script := script, issued := issued, obs := obs }

section
variable (script : List HostInput) (issued : Option Message) (obs : List (Message × Response)) (p : Params) (s : State)

@[simp] theorem withHost_st : (withHost script issued obs s).st = s.st := rfl
@[simp] theorem withHost_pos : (withHost script issued obs s).pos = s.pos := rfl
@[simp] theorem withHost_cnt : (withHost script issued obs s).cnt = s.cnt := rfl
@[simp] theorem withHost_iter : (withHost script issued obs s).iter = s.iter := rfl

/-! ## Each micro-step commutes with the replacement

A micro-step with a check tests registers alone, so both sides take the same branch (`apply_ite`); one without a check
writes registers from registers. -/

@[simp] theorem encCheck_withHost :
    encCheck (withHost script issued obs s) = withHost script issued obs (encCheck s) := by
  unfold encCheck
  rw [apply_ite (withHost script issued obs)]
  rfl

@[simp] theorem encHash_withHost :
    encHash p (withHost script issued obs s) = withHost script issued obs (encHash p s) := by
  unfold encHash
  dsimp only
  rw [apply_ite (withHost script issued obs)]
  rfl

@[simp] theorem encChunk_withHost :
    encChunk (withHost script issued obs s) = withHost script issued obs (encChunk s) := rfl

@[simp] theorem encDone_withHost :
    encDone (withHost script issued obs s) = withHost script issued obs (encDone s) := rfl

@[simp] theorem decCheck_withHost :
    decCheck (withHost script issued obs s) = withHost script issued obs (decCheck s) := by
  unfold decCheck
  rw [apply_ite (withHost script issued obs)]
  rfl

@[simp] theorem decGather_withHost :
    decGather (withHost script issued obs s) = withHost script issued obs (decGather s) := by
  unfold decGather
  rw [apply_ite (withHost script issued obs)]
  rfl

@[simp] theorem decVerify_withHost :
    decVerify p (withHost script issued obs s) = withHost script issued obs (decVerify p s) := by
  unfold decVerify
  dsimp only
  rw [apply_ite (withHost script issued obs)]
  rfl

@[simp] theorem kdfCheck_withHost :
    kdfCheck p (withHost script issued obs s) = withHost script issued obs (kdfCheck p s) := by
  unfold kdfCheck
  rw [apply_ite (withHost script issued obs)]
  rfl

@[simp] theorem kdfFirst_withHost :
    kdfFirst p (withHost script issued obs s) = withHost script issued obs (kdfFirst p s) := rfl

@[simp] theorem kdfIter_withHost :
    kdfIter p (withHost script issued obs s) = withHost script issued obs (kdfIter p s) := rfl

@[simp] theorem kdfDone_withHost :
    kdfDone (withHost script issued obs s) = withHost script issued obs (kdfDone s) := rfl

end

/-! ## A command that is neither presented nor in progress waits (30_encoding.md R72) -/

theorem encodeStep_wait {p : Params} {a : Operand} {s : State} (h1 : s.st ≠ .idle) (h2 : s.st ≠ .encCheck)
    (h3 : s.st ≠ .encHash) (h4 : s.st ≠ .encChunk) : encodeStep p a s = .next s := by
  unfold encodeStep
  split <;> simp_all

theorem decodeStep_wait {p : Params} {a : Operand} {s : State} (h1 : s.st ≠ .idle) (h2 : s.st ≠ .decCheck)
    (h3 : s.st ≠ .decGather) : decodeStep p a s = .next s := by
  unfold decodeStep
  split <;> simp_all

theorem deriveStep_wait {p : Params} {a b : Operand} {s : State} (h1 : s.st ≠ .idle) (h2 : s.st ≠ .kdfCheck)
    (h3 : s.st ≠ .kdfFirst) (h4 : s.st ≠ .kdfIter) : deriveStep p a b s = .next s := by
  unfold deriveStep
  split <;> simp_all

/-! ## Each command's step commutes with the replacement, outside IDLE -/

section
variable {script : List HostInput} {issued : Option Message} {obs : List (Message × Response)} {p : Params} {s t : State}

theorem encodeStep_withHost {a : Operand} (hs : s.st ≠ .idle) (h : encodeStep p a s = .next t) :
    encodeStep p a (withHost script issued obs s) = .next (withHost script issued obs t) := by
  rcases encodeStep_cases h with
    ⟨hi, -⟩ | ⟨hst, rfl⟩ | ⟨hst, rfl⟩ | ⟨hst, hpos, rfl⟩ | ⟨hst, hpos, rfl⟩ | ⟨h1, h2, h3, h4, rfl⟩
  · exact absurd hi hs
  · simp [encodeStep, hst]
  · simp [encodeStep, hst]
  · simp [encodeStep, hst, hpos]
  · simp [encodeStep, hst, hpos]
  · exact encodeStep_wait h1 h2 h3 h4

theorem decodeStep_withHost {a : Operand} (hs : s.st ≠ .idle) (h : decodeStep p a s = .next t) :
    decodeStep p a (withHost script issued obs s) = .next (withHost script issued obs t) := by
  rcases decodeStep_cases h with ⟨hi, -⟩ | ⟨hst, rfl⟩ | ⟨hst, hpos, rfl⟩ | ⟨hst, hpos, rfl⟩ | ⟨h1, h2, h3, rfl⟩
  · exact absurd hi hs
  · simp [decodeStep, hst]
  · simp [decodeStep, hst, hpos]
  · simp [decodeStep, hst, hpos]
  · exact decodeStep_wait h1 h2 h3

theorem deriveStep_withHost {a b : Operand} (hs : s.st ≠ .idle) (h : deriveStep p a b s = .next t) :
    deriveStep p a b (withHost script issued obs s) = .next (withHost script issued obs t) := by
  rcases deriveStep_cases h with
    ⟨hi, -⟩ | ⟨hst, rfl⟩ | ⟨hst, rfl⟩ | ⟨hst, hiter, rfl⟩ | ⟨hst, hiter, rfl⟩ | ⟨h1, h2, h3, h4, rfl⟩
  · exact absurd hi hs
  · simp [deriveStep, hst]
  · simp [deriveStep, hst]
  · simp [deriveStep, hst, hiter]
  · simp [deriveStep, hst, hiter]
  · exact deriveStep_wait h1 h2 h3 h4

end

/-- Settles O41: outside IDLE every micro-step of the command, and its wait, commutes with replacing the host's side. -/
theorem sequencerIgnoresTheHostSide : Obligations.SequencerIgnoresTheHostSide := by
  intro i s t script issued obs hs h
  cases i with
  | encode a => exact encodeStep_withHost hs h
  | decode a => exact decodeStep_withHost hs h
  | derive a b => exact deriveStep_withHost hs h

end Sys2Proof.Machine

/-! PROOFS. Command words (30_encoding.md R61 to R63, R71) and framing (R64). -/

namespace Sys2Proof

/-! ## Words and fields -/

/-- The word assembled from three fields is `w` iff they are the fields of `w` (30_encoding.md R61). -/
theorem cwAssemble_eq_iff {op : BitVec 4} {b a : Operand} {w : CommandWord} :
    cwAssemble op b a = w ↔ cwOp w = op ∧ cwB w = b ∧ cwA w = a := by
  constructor
  · rintro rfl
    exact ⟨cwOp_cwAssemble op b a, cwB_cwAssemble op b a, cwA_cwAssemble op b a⟩
  · rintro ⟨rfl, rfl, rfl⟩
    exact cwAssemble_fields w

/-- The mask of ENCODE and DECODE tests `op` and `b` (30_encoding.md R63). -/
theorem and_opb_eq_iff {op : BitVec 4} {b : Operand} {w : CommandWord} :
    w &&& 0xFFFFC000 = cwAssemble op b 0 ↔ cwOp w = op ∧ cwB w = b := by
  have hmask : w &&& 0xFFFFC000 = cwAssemble (cwOp w) (cwB w) 0 := by
    rw [← Laws.OpcodeRow.assemble_and_opb (cwOp w) (cwB w) (cwA w), cwAssemble_fields]
  rw [hmask, cwAssemble_eq_iff]
  simp [cwOp_cwAssemble, cwB_cwAssemble, cwA_cwAssemble, eq_comm]

/-- The mask of DERIVE tests `op` (30_encoding.md R63). -/
theorem and_op_eq_iff {op : BitVec 4} {w : CommandWord} : w &&& 0xF0000000 = cwAssemble op 0 0 ↔ cwOp w = op := by
  have hmask : w &&& 0xF0000000 = cwAssemble (cwOp w) 0 0 := by
    rw [← Laws.OpcodeRow.assemble_and_op (cwOp w) (cwB w) (cwA w), cwAssemble_fields]
  rw [hmask, cwAssemble_eq_iff]
  simp [cwOp_cwAssemble, cwB_cwAssemble, cwA_cwAssemble, eq_comm]

/-! ## Decoder and encoder -/

/-! The fields of each command's word (30_encoding.md R63). -/

theorem fields_encode (a : Operand) : cwOp (encodeWord (.encode a)) = 0x1#4 ∧ cwB (encodeWord (.encode a)) = 0 ∧
    cwA (encodeWord (.encode a)) = a := cwAssemble_eq_iff.mp rfl

theorem fields_decode (a : Operand) : cwOp (encodeWord (.decode a)) = 0x2#4 ∧ cwB (encodeWord (.decode a)) = 0 ∧
    cwA (encodeWord (.decode a)) = a := cwAssemble_eq_iff.mp rfl

theorem fields_derive (a b : Operand) : cwOp (encodeWord (.derive a b)) = 0x3#4 ∧ cwB (encodeWord (.derive a b)) = b ∧
    cwA (encodeWord (.derive a b)) = a := cwAssemble_eq_iff.mp rfl

/-- Settles O1: each command's word has the command's `op` and operands as its fields, and these select the command's row. -/
theorem decodeOfEncodedCommandIsTheCommand : Obligations.DecodeOfEncodedCommandIsTheCommand := by
  intro i
  cases i with
  | encode a =>
    obtain ⟨hop, hb, ha⟩ := fields_encode a
    rw [decodeWord_op1 hop hb, ha]
  | decode a =>
    obtain ⟨hop, hb, ha⟩ := fields_decode a
    rw [decodeWord_op2 hop hb, ha]
  | derive a b =>
    obtain ⟨hop, hb, ha⟩ := fields_derive a b
    rw [decodeWord_op3 hop, ha, hb]

/-- Settles O2: the row a word selects fixes its `op`, and its `b` where the command has none, so the word is reassembled. -/
theorem encodeOfDecodedWordIsTheWord : Obligations.EncodeOfDecodedWordIsTheWord := by
  intro w i h
  rcases decodeWord_cases h with ⟨hop, hb, rfl⟩ | ⟨hop, hb, rfl⟩ | ⟨hop, rfl⟩
  · exact cwAssemble_eq_iff.mpr ⟨hop, hb, rfl⟩
  · exact cwAssemble_eq_iff.mpr ⟨hop, hb, rfl⟩
  · exact cwAssemble_eq_iff.mpr ⟨hop, rfl, rfl⟩

/-- The decoder is the inverse of the encoder (30_encoding.md R63). -/
theorem decodeWord_eq_ok_iff {w : CommandWord} {i : Instr} : decodeWord w = .ok i ↔ encodeWord i = w := by
  constructor
  · exact encodeOfDecodedWordIsTheWord w i
  · rintro rfl
    exact decodeOfEncodedCommandIsTheCommand i

/-- A word that selects ENCODE, by its fields. -/
theorem decodeWord_eq_encode_iff {w : CommandWord} :
    decodeWord w = .ok (.encode (cwA w)) ↔ cwOp w = 0x1#4 ∧ cwB w = 0 := by
  rw [decodeWord_eq_ok_iff, encodeWord, cwAssemble_eq_iff]
  simp

/-- A word that selects DECODE, by its fields. -/
theorem decodeWord_eq_decode_iff {w : CommandWord} :
    decodeWord w = .ok (.decode (cwA w)) ↔ cwOp w = 0x2#4 ∧ cwB w = 0 := by
  rw [decodeWord_eq_ok_iff, encodeWord, cwAssemble_eq_iff]
  simp

/-- A word that selects DERIVE, by its fields. -/
theorem decodeWord_eq_derive_iff {w : CommandWord} :
    decodeWord w = .ok (.derive (cwA w) (cwB w)) ↔ cwOp w = 0x3#4 := by
  rw [decodeWord_eq_ok_iff, encodeWord, cwAssemble_eq_iff]
  simp

/-- A word whose `op` is in no row selects no command (30_encoding.md R63). -/
theorem decodeWord_unknownOp {w : CommandWord} (h1 : cwOp w ≠ 0x1#4) (h2 : cwOp w ≠ 0x2#4) (h3 : cwOp w ≠ 0x3#4) :
    decodeWord w = .error (.unknownOp (cwOp w)) := by simp [decodeWord, h1, h2, h3]

/-- Settles O3: both sides of each row say the same of `op` and `b`. -/
theorem wordSelectsRowIffMaskedBitsMatch : Obligations.WordSelectsRowIffMaskedBitsMatch := by
  have hencode : (0x10000000 : CommandWord) = cwAssemble 0x1 0 0 := by decide
  have hdecode : (0x20000000 : CommandWord) = cwAssemble 0x2 0 0 := by decide
  have hderive : (0x30000000 : CommandWord) = cwAssemble 0x3 0 0 := by decide
  refine ⟨fun w => ⟨?_, ?_, ?_, fun h1 h2 h3 => ⟨_, decodeWord_unknownOp h1 h2 h3⟩⟩,
    fun _ => rfl, fun _ => rfl, fun _ _ => rfl⟩
  · rw [hencode]
    exact and_opb_eq_iff.trans decodeWord_eq_encode_iff.symm
  · rw [hdecode]
    exact and_opb_eq_iff.trans decodeWord_eq_decode_iff.symm
  · rw [hderive]
    exact and_op_eq_iff.trans decodeWord_eq_derive_iff.symm

/-- Settles O4: the first eight words are the encodings of their commands; the last two are in no row. -/
theorem exampleWordsDecode : Obligations.ExampleWordsDecode := by
  refine ⟨?_, ?_, ?_, ?_, ?_, ?_, ?_, ?_, rfl, rfl⟩ <;> exact ⟨decodeWord_eq_ok_iff.mpr rfl, rfl⟩

/-! ## Framing -/

/-- Framing legality in the fields of the word (30_encoding.md R64): `framingLegal_cases` and its converse. -/
theorem framingLegal_iff {p : Params} {m : Message} : framingLegal p m = true ↔
    (cwOp m.cw = 0x1#4 ∧ cwB m.cw = 0 ∧ m.payload.length = (cwA m.cw).toNat) ∨
    (cwOp m.cw = 0x2#4 ∧ cwB m.cw = 0 ∧ m.payload.length = 2 * (cwA m.cw).toNat) ∨
    (cwOp m.cw = 0x3#4 ∧ (cwA m.cw).toNat ≤ p.pwMax ∧ (cwB m.cw).toNat ≤ p.ppMax ∧
      m.payload.length = (cwA m.cw).toNat + (cwB m.cw).toNat) := by
  refine ⟨framingLegal_cases, ?_⟩
  rintro (⟨hop, hb, hlen⟩ | ⟨hop, hb, hlen⟩ | ⟨hop, ha, hb, hlen⟩)
  · simp [framingLegal, hop, hb, hlen]
  · simp [framingLegal, hop, hb, hlen]
  · simp [framingLegal, hop, lengthFits_iff, ha, hb, hlen]

/-- Settles O5: the statement writes out the fields that `framingLegal_iff` names. -/
theorem framingLegalIffOneOfThreeForms : Obligations.FramingLegalIffOneOfThreeForms :=
  fun _ _ => framingLegal_iff

@[simp] theorem carries_iff {m : Message} {i : Instr} : m.carries i = true ↔ m.payload.length = i.payloadLength :=
  decide_eq_true_iff

/-- Only DERIVE has lengths to keep within bounds (30_encoding.md R64). -/
@[simp] theorem wellFormed_encode (p : Params) (a : Operand) : (Instr.encode a).wellFormed p = true := rfl

@[simp] theorem wellFormed_decode (p : Params) (a : Operand) : (Instr.decode a).wellFormed p = true := rfl

@[simp] theorem wellFormed_derive_iff {p : Params} {a b : Operand} :
    (Instr.derive a b).wellFormed p = true ↔ a.toNat ≤ p.pwMax ∧ b.toNat ≤ p.ppMax := by
  simp [Instr.wellFormed]

/-- A framing-legal message selects a command (30_encoding.md R63, R64). -/
theorem decodes_of_framingLegal {p : Params} {m : Message} (h : framingLegal p m = true) : ∃ i, decodeWord m.cw = .ok i := by
  rcases framingLegal_cases h with ⟨hop, hb, -⟩ | ⟨hop, hb, -⟩ | ⟨hop, -⟩
  · exact ⟨_, decodeWord_op1 hop hb⟩
  · exact ⟨_, decodeWord_op2 hop hb⟩
  · exact ⟨_, decodeWord_op3 hop⟩

/-- A message whose word selects a command is framing-legal iff the command is well formed and the payload has the announced
length (30_encoding.md R64). -/
theorem framingLegal_iff_of_decodes {p : Params} {m : Message} {i : Instr} (h : decodeWord m.cw = .ok i) :
    framingLegal p m = true ↔ i.wellFormed p = true ∧ m.carries i = true := by
  rw [framingLegal_iff, carries_iff]
  rcases decodeWord_cases h with ⟨hop, hb, rfl⟩ | ⟨hop, hb, rfl⟩ | ⟨hop, rfl⟩
  · simp [hop, hb, Instr.payloadLength]
  · simp [hop, hb, Instr.payloadLength]
  · simp [hop, Instr.payloadLength, and_assoc]

/-- Settles O6: a framing-legal message selects a command, and for a message that does framing asks no more than that the
command fits. -/
theorem framingLegalIffDecodedCommandFits : Obligations.FramingLegalIffDecodedCommandFits := by
  intro p m
  constructor
  · intro h
    obtain ⟨i, hi⟩ := decodes_of_framingLegal h
    exact ⟨i, hi, (framingLegal_iff_of_decodes hi).mp h⟩
  · rintro ⟨i, hi, hfit⟩
    exact (framingLegal_iff_of_decodes hi).mpr hfit

end Sys2Proof

/-! PROOFS. The issue step and the messages that wait (30_encoding.md R65, R72, R73). -/

namespace Sys2Proof.Machine

open Sys2Proof

/-! ## The issue step (30_encoding.md R73) -/

/-- In IDLE a step of a command is its issue step, and it answers a next state. -/
theorem exec_of_idle {s : State} (hs : s.st = .idle) (i : Instr) : exec i s = .next (issueAs Config.params i s) := by
  cases i with
  | encode a => simp [exec_encode, encodeStep, hs]
  | decode a => simp [exec_decode, decodeStep, hs]
  | derive a b => simp [exec_derive, deriveStep, hs]

/-- In IDLE a step of the command whose word is presented issues the message. -/
theorem exec_presented {s : State} {m : Message} {i : Instr} (hm : nextInput s = some (.issue m))
    (hi : decodeWord m.cw = .ok i) : exec i s = .next (issue Config.params m s) := by
  have hp := presented_eq_some.mpr hm
  rw [exec_of_idle (idle_of_presented hp), issueAs_presented hp (decodeWord_eq_ok_iff.mp hi).symm]

/-- When no reset is asserted and no command has the step, it is the host's. -/
theorem step_of_no_command {s : State} (hr : nextInput s ≠ some .reset) (hn : commandAt s = none) :
    step s = .next (hostStep Config.params s) := by
  have hreset : resetAsserted s = false := Bool.eq_false_iff.mpr (mt resetAsserted_iff.mp hr)
  simp [step, hreset, hn]

/-- The step in which the host presents a message issues it, its word selecting a command or not (30_encoding.md R73). -/
theorem step_presented {s : State} {m : Message} (hm : nextInput s = some (.issue m)) :
    step s = .next (issue Config.params m s) := by
  have hp := presented_eq_some.mpr hm
  have hs := idle_of_presented hp
  cases hd : decodeWord m.cw with
  | ok i => rw [stepRunsDecodedCommand.1 s m i hs hm hd, exec_presented hm hd]
  | error e =>
    have hnone : commandAt s = none := by simp [commandAt, hs, hp, hd, Except.toOption]
    rw [step_of_no_command (by simp [hm]) hnone]
    simp [hostStep, hs, hp]

/-- Settles O9: the step issues the message, and `issue` is this choice. -/
theorem issueStepOfEveryMessage : Obligations.IssueStepOfEveryMessage := by
  intro s m _ hm
  rw [step_presented hm]
  rfl

/-! The latches of each command's message (30_encoding.md R73). -/

theorem latch_encode (a : Operand) (pl : Bytes) (s : State) : latch ⟨encodeWord (.encode a), pl⟩ s =
    { s with cw := encodeWord (.encode a), a := a, b := 0, pl := pl, pllen := pl.length, st := .encCheck } := by
  obtain ⟨hop, hb, ha⟩ := fields_encode a
  simp [latch, entryState, hop, hb, ha]

theorem latch_decode (a : Operand) (pl : Bytes) (s : State) : latch ⟨encodeWord (.decode a), pl⟩ s =
    { s with cw := encodeWord (.decode a), a := a, b := 0, pl := pl, pllen := pl.length, st := .decCheck } := by
  obtain ⟨hop, hb, ha⟩ := fields_decode a
  simp [latch, entryState, hop, hb, ha]

theorem latch_derive (a b : Operand) (pl : Bytes) (s : State) : latch ⟨encodeWord (.derive a b), pl⟩ s =
    { s with cw := encodeWord (.derive a b), a := a, b := b, pl := pl, pllen := pl.length, st := .kdfCheck } := by
  obtain ⟨hop, hb, ha⟩ := fields_derive a b
  simp [latch, entryState, hop, hb, ha]

/-- The issue step of command `i`: its word is the encoder's, so framing asks whether the command fits (30_encoding.md R64). -/
theorem exec_presented_encodeWord {s : State} {i : Instr} {pl : Bytes}
    (hm : nextInput s = some (.issue ⟨encodeWord i, pl⟩)) :
    exec i s = .next (if i.wellFormed Config.params = true ∧ pl.length = i.payloadLength
      then latch ⟨encodeWord i, pl⟩ (handOver ⟨encodeWord i, pl⟩ s)
      else raiseError .illegalCommand 0 (handOver ⟨encodeWord i, pl⟩ s)) := by
  have hd := decodeOfEncodedCommandIsTheCommand i
  rw [exec_presented hm hd, issue]
  simp [framingLegal_iff_of_decodes (m := ⟨encodeWord i, pl⟩) hd]

/-- Settles O8: `exec_presented_encodeWord` of each command, with the latches written out. -/
theorem issueLatchesLegalMessages : Obligations.IssueLatchesLegalMessages := by
  refine fun s pl _ => ⟨fun a hm => ?_, fun a hm => ?_, fun a b hm => ?_⟩ <;> rw [exec_presented_encodeWord hm]
  · simp [latch_encode, Instr.payloadLength, handOver, advanceHost]
  · simp [latch_decode, Instr.payloadLength, handOver, advanceHost]
  · simp [latch_derive, Instr.payloadLength, handOver, advanceHost, and_assoc]

/-- Failure entry in full: the reset state but for the response registers and the host's side (00_scope.md R12, 60_exceptions.md
R149). -/
theorem raiseError_eq_reset (k : Status) (info : BitVec 8) (s : State) :
    raiseError k info s = { State.reset with
      st := .resp, rv := true, rstat := statusCode k, rinfo := info,
      script := s.script, issued := s.issued, obs := s.obs } := by
  rw [raiseError_eq, respond, fill_nil]
  rfl

/-- Settles O10: the step raises `IllegalCommand`. -/
theorem illegalMessageAnsweredAtIssue : Obligations.IllegalMessageAnsweredAtIssue := by
  intro s m _ hm hf
  rw [step_presented hm, issue, if_neg (by simp [hf]), raiseError_eq_reset]
  rfl

/-! ## Waiting (30_encoding.md R72) -/

/-- Settles O12: outside IDLE by the table of each command, in IDLE because its issue step waits for its word. -/
theorem unpresentedCommandWaits : Obligations.UnpresentedCommandWaits := by
  refine ⟨fun _ _ => encodeStep_wait, fun _ _ => decodeStep_wait, fun _ _ _ => deriveStep_wait, fun i s hs hw => ?_⟩
  rw [exec_of_idle hs, issueAs_wait fun m hm => hw m (presented_eq_some.mp hm)]

/-! ## A step outside IDLE answers, and loses no message (30_encoding.md R72, 70_reset_and_hazards.md R163) -/

theorem encodeStep_answers {s : State} (h : s.pos ≤ s.cnt) (p : Params) (a : Operand) :
    ∃ t, encodeStep p a s = .next t := by
  unfold encodeStep
  split
  case h_4 =>
    rcases Nat.lt_or_eq_of_le h with hlt | heq
    · simp [hlt]
    · simp [heq]
  all_goals exact ⟨_, rfl⟩

theorem decodeStep_answers {s : State} (h : s.pos ≤ s.cnt) (p : Params) (a : Operand) :
    ∃ t, decodeStep p a s = .next t := by
  unfold decodeStep
  split
  case h_3 =>
    rcases Nat.lt_or_eq_of_le h with hlt | heq
    · simp [hlt]
    · simp [heq]
  all_goals exact ⟨_, rfl⟩

theorem deriveStep_answers {s : State} (h : s.iter ≤ 2048) (p : Params) (a b : Operand) :
    ∃ t, deriveStep p a b s = .next t := by
  unfold deriveStep
  split
  case h_4 =>
    rcases Nat.lt_or_eq_of_le h with hlt | heq
    · simp [hlt]
    · simp [heq]
  all_goals exact ⟨_, rfl⟩

/-- The ranges of the counters leave a command no state without a step (10_state.md R34 (e)). -/
theorem exec_answers {s : State} (h : Inv s) (i : Instr) : ∃ t, exec i s = .next t := by
  cases i with
  | encode a => exact encodeStep_answers h.pos_le _ a
  | decode a => exact decodeStep_answers h.pos_le _ a
  | derive a b => exact deriveStep_answers h.iter_le _ a b

theorem step_answers {s : State} (h : Inv s) : ∃ t, step s = .next t := by
  unfold step
  split
  · exact ⟨_, rfl⟩
  · split
    · exact exec_answers (inv_passQuiet h) _
    · exact ⟨_, rfl⟩

/-- Using up an input that presents no message leaves the messages. -/
theorem messagesOf_laterInputs_of_offered_none {s : State} {x : HostInput} (h : nextInput s = some x)
    (hx : offered x = none) : messagesOf (laterInputs s) = messagesOf s.script := by
  simp [messagesOf_laterInputs h, hx]

theorem messagesOf_passQuiet (s : State) : messagesOf (passQuiet s).script = messagesOf s.script := by
  rcases passQuiet_cases s with ⟨-, e⟩ | ⟨hq, e⟩ <;> rw [e]
  exact messagesOf_laterInputs_of_offered_none hq rfl

/-- Outside IDLE a step of a command leaves the host's script and the message owed (10_state.md R33). -/
theorem exec_keeps_host {i : Instr} {s t : State} (hs : s.st ≠ .idle) (h : exec i s = .next t) :
    t.script = s.script ∧ t.issued = s.issued := by
  rcases exec_frame hs h with ⟨_, _, _, rfl⟩ | hw
  · exact ⟨rfl, rfl⟩
  · obtain ⟨-, -, -, -, -, -, -, -, -, -, hscript, hissued, -⟩ := hw.frame
    exact ⟨hscript, hissued⟩

/-- Outside IDLE every step keeps the messages presented and accepts none. -/
theorem step_holds_messages {s t : State} (hs : s.st ≠ .idle) (h : step s = .next t) :
    messagesOf t.script = messagesOf s.script ∧ (t.issued = s.issued ∨ t.issued = none) := by
  rcases step_cases h with ⟨hr, rfl⟩ | ⟨-, i, -, he⟩ | ⟨-, -, rfl⟩
  · exact ⟨messagesOf_laterInputs_of_offered_none (resetAsserted_iff.mp hr) rfl, .inr rfl⟩
  · obtain ⟨hscript, hissued⟩ := exec_keeps_host (by simpa using hs) he
    exact ⟨hscript ▸ messagesOf_passQuiet s, .inl (hissued.trans (passQuiet_issued s))⟩
  · rcases hostStep_cases Config.params s with ⟨-, ht, e⟩ | ⟨m, -, hm, -⟩ | ⟨e, -⟩
    · rw [e]
      exact ⟨messagesOf_laterInputs_of_offered_none (takeReady_iff.mp ht) rfl, .inr rfl⟩
    · exact absurd (idle_of_presented hm) hs
    · rw [e]
      exact ⟨messagesOf_passQuiet s, .inl (passQuiet_issued s)⟩

/-- In RESP a take that is the host's next input is performed (60_exceptions.md R147). -/
theorem step_take {s : State} (hs : s.st = .resp) (h : nextInput s = some .take) : step s = .next (take s) := by
  rw [step_of_no_command (by simp [h]) (commandAt_resp hs)]
  simp [hostStep, hs, takeReady_iff.mpr h]

/-- An issued message is owed its response, and the block has left IDLE (30_encoding.md R73). -/
theorem issue_accepts (p : Params) (m : Message) (s : State) :
    (issue p m s).st ≠ .idle ∧ (issue p m s).issued = some m ∧ (issue p m s).script = laterInputs s := by
  rcases issue_cases p m s with ⟨-, e⟩ | ⟨-, e⟩ <;> rw [e]
  · refine ⟨?_, rfl, rfl⟩
    rcases entryState_cases m.cw with hst | hst | hst <;> simp [hst]
  · exact ⟨by simp, rfl, rfl⟩

/-- Settles O13: messages are not enabled outside IDLE, so the take behind them comes first; back in IDLE the first message is
enabled and stands at the head. -/
theorem messagePresentedWhileBusyIsHeld : Obligations.MessagePresentedWhileBusyIsHeld := by
  constructor
  · intro s h hs
    obtain ⟨t, ht⟩ := step_answers h
    exact ⟨t, ht, step_holds_messages hs ht⟩
  · intro s m pre rest _ hs hscript hpre
    have hheld : ∀ y ∈ HostInput.issue m :: pre, enabled s.st y = false := by
      intro y hy
      obtain ⟨k, rfl⟩ : ∃ k, y = .issue k := by
        rcases List.mem_cons.mp hy with rfl | hy
        · exact ⟨m, rfl⟩
        · exact hpre y hy
      simp [enabled, hs]
    obtain ⟨htake, hlater⟩ := nextInput_append hscript hheld (by simp [enabled, hs])
    have hscript' : (take s).script = [] ++ .issue m :: (pre ++ rest) := hlater
    obtain ⟨hissue, hlater'⟩ := nextInput_append hscript' (by simp) (by simp [enabled])
    obtain ⟨hst, hissued, hrest⟩ := issue_accepts Config.params m (take s)
    exact ⟨take s, step_take hs htake, rfl, hlater, _, step_presented hissue, hst, hissued, hrest.trans hlater'⟩

end Sys2Proof.Machine

/-! PROOFS. A message is answered by its command-level function, after exactly the micro-steps of the table
(70_reset_and_hazards.md R170; 40_encode.md R87, 41_decode.md R95, 42_derive.md R108). -/

namespace Sys2Proof.Machine

open Sys2Proof

/-! ## The micro-steps still to come -/

/-- The word position at which DECODE ends: that of the first miss, or the position after the last entry (41_decode.md R92, R93). -/
def lastPosition (n : Nat) (pl : Bytes) : Nat := (firstMiss (entriesOf n pl)).getD n

/-- The micro-steps that the command in progress still takes to RESP. -/
def stepsLeft (p : Params) (s : State) : Nat :=
  match s.st with
  | .idle => 0
  | .encCheck => instrSteps p s.pl (.encode s.a)
  | .encHash => 2 + 3 * s.a.toNat / 4
  | .encChunk => s.cnt + 1 - s.pos
  | .decCheck => instrSteps p s.pl (.decode s.a)
  | .decGather => lastPosition s.cnt s.pl + 1 - s.pos
  | .kdfCheck => instrSteps p s.pl (.derive s.a s.b)
  | .kdfFirst => 2049
  | .kdfIter => 2049 - s.iter
  | .resp => 0

theorem stepsLeft_resp {p : Params} {s : State} (hs : s.st = .resp) : stepsLeft p s = 0 := by simp [stepsLeft, hs]

@[simp] theorem stepsLeft_respond (p : Params) (k : Status) (info : BitVec 8) (data : Bytes) (s : State) :
    stepsLeft p (respond k info data s) = 0 := rfl

/-- The count does not look at the host's side. -/
@[simp] theorem stepsLeft_passQuiet (p : Params) (s : State) : stepsLeft p (passQuiet s) = stepsLeft p s := by
  rcases passQuiet_cases s with ⟨-, e⟩ | ⟨-, e⟩ <;> rw [e]
  rfl

theorem lastPosition_of_miss {n k : Nat} {pl : Bytes} (hk : k < n) (hmiss : entryMiss (entryAt pl k) = true)
    (hbefore : ∀ j, j < k → entryMiss (entryAt pl j) = false) : lastPosition n pl = k := by
  rw [lastPosition, firstMiss_some n k pl hk hmiss hbefore, Option.getD_some]

theorem lastPosition_of_no_miss {n : Nat} {pl : Bytes} (h : ∀ j, j < n → entryMiss (entryAt pl j) = false) :
    lastPosition n pl = n := by
  rw [lastPosition, firstMiss_none n pl h, Option.getD_none]

/-- Where no entry up to a position misses, DECODE ends behind it. -/
theorem lt_lastPosition {n k : Nat} {pl : Bytes} (hk : k < n) (h : ∀ j, j ≤ k → entryMiss (entryAt pl j) = false) :
    k < lastPosition n pl := by
  unfold lastPosition
  cases hm : firstMiss (entriesOf n pl) with
  | none => exact hk
  | some m =>
    obtain ⟨hlen, hmiss, -⟩ := List.findIdx?_eq_some_iff_getElem.mp hm
    have hentry : (entriesOf n pl)[m] = entryAt pl m := by simp only [entriesOf, List.getElem_map, List.getElem_range]
    rw [Option.getD_some]
    refine Nat.lt_of_not_le fun hle => ?_
    rw [hentry, h m hle] at hmiss
    exact Bool.false_ne_true hmiss

/-- The step count of DECODE by the position at which it ends (70_reset_and_hazards.md R170). -/
theorem instrSteps_decode (p : Params) (pl : Bytes) (a : Operand) :
    instrSteps p pl (.decode a) = if a.toNat ∈ Config.wordCounts then 2 + lastPosition a.toNat pl else 1 := by
  cases hm : firstMiss (entriesOf a.toNat pl) <;> simp [instrSteps, lastPosition, hm]

/-! ## Each micro-step is one of them -/

theorem stepsLeft_encCheck {p : Params} {s : State} (hs : s.st = .encCheck) :
    stepsLeft p s = stepsLeft p (encCheck s) + 1 := by
  rcases encCheck_cases s with ⟨ha, e⟩ | ⟨ha, e⟩
  · simp only [e, stepsLeft, hs, instrSteps, if_pos ha]
    omega
  · simp [e, stepsLeft, hs, instrSteps, ha]

/-- In ENC_HASH entropy and checksum are a whole number of windows, three for every four bytes (40_encode.md R86). -/
theorem encHash_streamLength {s : State} (h : Inv s) (hs : s.st = .encHash) :
    s.nbits + csOfBytes s.a.toNat = 11 * (3 * s.a.toNat / 4) := by
  obtain ⟨ha, hnbits, -⟩ := h.enc_hash hs
  obtain ⟨hwindows, -, -⟩ := streamLength_of_entLength ha
  rw [hnbits, hwindows]

theorem stepsLeft_encHash {p : Params} {s : State} (h : Inv s) (hs : s.st = .encHash) :
    stepsLeft p s = stepsLeft p (encHash p s) + 1 := by
  have hwindows := encHash_streamLength h hs
  rcases encHash_cases p s with ⟨-, e⟩ | ⟨hdiv, -⟩
  · simp only [e, stepsLeft, hs]
    omega
  · omega

theorem stepsLeft_encChunk {p : Params} {s : State} (hs : s.st = .encChunk) (hpos : s.pos < s.cnt) :
    stepsLeft p s = stepsLeft p (encChunk s) + 1 := by
  simp only [encChunk, stepsLeft, hs]
  omega

theorem stepsLeft_encDone {p : Params} {s : State} (hs : s.st = .encChunk) (hpos : s.pos = s.cnt) :
    stepsLeft p s = stepsLeft p (encDone s) + 1 := by
  simp [encDone, stepsLeft, hs, hpos]

theorem stepsLeft_encodeStep {p : Params} {a : Operand} {s t : State} (h : Inv s)
    (hs : s.st = .encCheck ∨ s.st = .encHash ∨ s.st = .encChunk) (ht : encodeStep p a s = .next t) :
    stepsLeft p s = stepsLeft p t + 1 := by
  rcases encodeStep_cases ht with
    ⟨hi, -⟩ | ⟨hst, rfl⟩ | ⟨hst, rfl⟩ | ⟨hst, hpos, rfl⟩ | ⟨hst, hpos, rfl⟩ | ⟨-, h1, h2, h3, -⟩
  · simp [hi] at hs
  · exact stepsLeft_encCheck hst
  · exact stepsLeft_encHash h hst
  · exact stepsLeft_encChunk hst hpos
  · exact stepsLeft_encDone hst hpos
  · simp [h1, h2, h3] at hs

theorem stepsLeft_decCheck {p : Params} {s : State} (hs : s.st = .decCheck) :
    stepsLeft p s = stepsLeft p (decCheck s) + 1 := by
  rcases decCheck_cases s with ⟨ha, e⟩ | ⟨ha, e⟩
  · simp only [e, stepsLeft, hs, instrSteps_decode, if_pos ha]
    omega
  · simp [e, stepsLeft, hs, instrSteps_decode, ha]

/-- DEC_GATHER ends the command at the first miss and goes on at every position before it (41_decode.md R92). -/
theorem stepsLeft_decGather {p : Params} {s : State} (h : Inv s) (hd : DataInv p s) (hs : s.st = .decGather)
    (hpos : s.pos < s.cnt) : stepsLeft p s = stepsLeft p (decGather s) + 1 := by
  have hbefore := hd.dec_no_miss hs
  have hentry : missFlag (idxAt s s.pos) = entryMiss (entryAt s.pl s.pos) := by
    rw [idxAt_of_payload s.cnt (hd.dec_index hs) s.pos hpos h.cnt_le, missFlag_idxOfEntry]
  rcases decGather_cases s with ⟨hm, e⟩ | ⟨hm, e⟩
  · have hupto : ∀ j, j ≤ s.pos → entryMiss (entryAt s.pl j) = false := by
      intro j hj
      rcases Nat.lt_or_eq_of_le hj with hj | rfl
      · exact hbefore j hj
      · exact hentry.symm.trans hm
    have hlast := lt_lastPosition hpos hupto
    simp only [e, stepsLeft, hs]
    omega
  · have hlast := lastPosition_of_miss hpos (hentry.symm.trans hm) hbefore
    simp [e, stepsLeft, hs, hlast]

theorem stepsLeft_decVerify {p : Params} {s : State} (hd : DataInv p s) (hs : s.st = .decGather)
    (hpos : s.pos = s.cnt) : stepsLeft p s = stepsLeft p (decVerify p s) + 1 := by
  have hlast : lastPosition s.cnt s.pl = s.cnt := lastPosition_of_no_miss (hpos ▸ hd.dec_no_miss hs)
  rcases decVerify_cases p s with ⟨-, e⟩ | ⟨-, e⟩ <;> simp [e, stepsLeft, hs, hlast, hpos]

theorem stepsLeft_decodeStep {p : Params} {a : Operand} {s t : State} (h : Inv s) (hd : DataInv p s)
    (hs : s.st = .decCheck ∨ s.st = .decGather) (ht : decodeStep p a s = .next t) :
    stepsLeft p s = stepsLeft p t + 1 := by
  rcases decodeStep_cases ht with ⟨hi, -⟩ | ⟨hst, rfl⟩ | ⟨hst, hpos, rfl⟩ | ⟨hst, hpos, rfl⟩ | ⟨-, h1, h2, -⟩
  · simp [hi] at hs
  · exact stepsLeft_decCheck hst
  · exact stepsLeft_decGather h hd hst hpos
  · exact stepsLeft_decVerify hd hst hpos
  · simp [h1, h2] at hs

theorem stepsLeft_kdfCheck {p : Params} {s : State} (hs : s.st = .kdfCheck) :
    stepsLeft p s = stepsLeft p (kdfCheck p s) + 1 := by
  have hsteps : stepsLeft p s = if p.utf8ok (passwordOf s) && p.utf8ok (passphraseOf s) then 2050 else 1 := by
    simp only [stepsLeft, hs]
    rfl
  rcases kdfCheck_cases p s with ⟨htext, e⟩ | ⟨htext, e⟩ <;> rw [hsteps, htext, e] <;> rfl

theorem stepsLeft_deriveStep {p : Params} {a b : Operand} {s t : State}
    (hs : s.st = .kdfCheck ∨ s.st = .kdfFirst ∨ s.st = .kdfIter) (ht : deriveStep p a b s = .next t) :
    stepsLeft p s = stepsLeft p t + 1 := by
  rcases deriveStep_cases ht with
    ⟨hi, -⟩ | ⟨hst, rfl⟩ | ⟨hst, rfl⟩ | ⟨hst, hiter, rfl⟩ | ⟨hst, hiter, rfl⟩ | ⟨-, h1, h2, h3, -⟩
  · simp [hi] at hs
  · exact stepsLeft_kdfCheck hst
  · simp [kdfFirst, stepsLeft, hst]
  · simp only [kdfIter, stepsLeft, hst]
    omega
  · simp [kdfDone, stepsLeft, hst, hiter]
  · simp [h1, h2, h3] at hs

/-- A step of the command in progress is one of the micro-steps it still takes. -/
theorem stepsLeft_exec {i : Instr} {s t : State} (h : Inv s) (hd : DataInv Config.params s) (hs : s.st ≠ .idle)
    (hi : commandAt s = some i) (ht : exec i s = .next t) :
    stepsLeft Config.params s = stepsLeft Config.params t + 1 := by
  rcases commandAt_cases hi with ⟨hidle, -⟩ | ⟨hst, rfl⟩ | ⟨hst, rfl⟩ | ⟨hst, rfl⟩
  · exact absurd hidle hs
  · exact stepsLeft_encodeStep h hst ht
  · exact stepsLeft_decodeStep h hd hst ht
  · exact stepsLeft_deriveStep hst ht

/-! ## The way from the issue step to RESP -/

/-- The block answers message `m`, and no reset will interrupt it: the invariants hold, the response is owed, and the
observation is still `obs`. -/
structure Answering (m : Message) (obs : List (Message × Response)) (s : State) : Prop where
  inv : Inv s
  data : DataInv Config.params s
  resetFree : ResetFree s.script
  not_idle : s.st ≠ .idle
  issued : s.issued = some m
  obs_eq : s.obs = obs

theorem resetFree_passQuiet {s : State} (h : ResetFree s.script) : ResetFree (passQuiet s).script := by
  rcases passQuiet_cases s with ⟨-, e⟩ | ⟨-, e⟩ <;> rw [e]
  · exact h
  · exact fun x hx => h x (mem_of_laterInputs hx)

/-- No step of the table leads from a working state to IDLE (10_state.md R21). -/
theorem ne_idle_of_transition {s t : SeqState} (h : (s, t) ∈ transitions) (hs : s ≠ .resp) (hi : s ≠ .idle) : t ≠ .idle := by
  rintro rfl
  simp [transitions, hs, hi] at h

/-- Until RESP the next step is one of the command's micro-steps, and the block goes on answering. -/
theorem Answering.step {m : Message} {obs : List (Message × Response)} {s : State} (h : Answering m obs s)
    (hs : s.st ≠ .resp) : ∃ t, Machine.step s = .next t ∧ Answering m obs t ∧
      stepsLeft Config.params s = stepsLeft Config.params t + 1 := by
  obtain ⟨hinv, hdata, hfree, hidle, hissued, hobs⟩ := h
  obtain ⟨t, ht⟩ := step_answers hinv
  obtain ⟨i, hi⟩ : ∃ i, commandAt s = some i := Option.ne_none_iff_exists'.mp fun hn =>
    (idle_or_resp_of_commandAt hn).elim hidle hs
  have hreset : nextInput s ≠ some .reset := fun hr => hfree _ (mem_of_nextInput hr) rfl
  have hexec : exec i (passQuiet s) = .next t := (step_of_commandAt hreset hi).symm.trans ht
  have hidle' : (passQuiet s).st ≠ .idle := by simpa using hidle
  have hi' : commandAt (passQuiet s) = some i := by
    rcases passQuiet_cases s with ⟨-, e⟩ | ⟨-, e⟩ <;> rw [e]
    · exact hi
    · exact (commandAt_script hidle _).trans hi
  obtain ⟨hscript, hissued'⟩ := exec_keeps_host hidle' hexec
  refine ⟨t, ht, ⟨stepKeepsInvariants s t hinv ht, stepKeepsDataInvariants s t hinv hdata ht,
    hscript ▸ resetFree_passQuiet hfree, ne_idle_of_transition (exec_transition hi hexec) hs hidle,
    (hissued'.trans (passQuiet_issued s)).trans hissued, ((exec_obs hexec).trans (passQuiet_obs s)).trans hobs⟩, ?_⟩
  rw [← stepsLeft_passQuiet]
  exact stepsLeft_exec (inv_passQuiet hinv) (dataInv_passQuiet hdata) hidle' hi' hexec

/-- After any number of the micro-steps still to come the block is answering, with so many fewer to come. -/
theorem Answering.run {m : Message} {obs : List (Message × Response)} {s : State} (h : Answering m obs s) {j : Nat}
    (hj : j ≤ stepsLeft Config.params s) : ∃ t : State, Host.Core.run core j s = .next t ∧ Answering m obs t ∧
      stepsLeft Config.params s = stepsLeft Config.params t + j := by
  induction j generalizing s with
  | zero => exact ⟨s, run_zero s, h, rfl⟩
  | succ j ih =>
    have hs : s.st ≠ .resp := fun hs => by simp [stepsLeft_resp hs] at hj
    obtain ⟨u, hu, hans, hsteps⟩ := h.step hs
    obtain ⟨t, ht, hans', hsteps'⟩ := ih hans (by omega)
    exact ⟨t, (run_succ j s u hu).trans ht, hans', by omega⟩

/-- With no micro-step to come the block is in RESP. -/
theorem Answering.resp_of_stepsLeft {m : Message} {obs : List (Message × Response)} {s : State} (h : Answering m obs s)
    (hz : stepsLeft Config.params s = 0) : s.st = .resp := Decidable.byContradiction fun hs => by
  obtain ⟨t, -, -, hsteps⟩ := h.step hs
  omega

/-- With micro-steps to come the sequencer steps. -/
theorem Answering.busy_of_stepsLeft {m : Message} {obs : List (Message × Response)} {s : State} (h : Answering m obs s)
    (hz : stepsLeft Config.params s ≠ 0) : Busy s :=
  ⟨h.not_idle, fun hs => hz (stepsLeft_resp hs)⟩

/-! ## The issue step -/

/-- The issue step of a message begins its answer (30_encoding.md R73). -/
theorem answering_issue {s : State} {m : Message} (h : Inv s) (hs : s.st = .idle) (hfree : ResetFree (laterInputs s)) :
    Answering m s.obs (issue Config.params m s) := by
  obtain ⟨hst, hissued, hscript⟩ := issue_accepts Config.params m s
  exact ⟨inv_issue h hs m, dataInv_issue _ m s, hscript ▸ hfree, hst, hissued, issue_obs _ m s⟩

/-- After the issue step all the micro-steps of the message are still to come (70_reset_and_hazards.md R170). -/
theorem stepsLeft_issue (p : Params) (m : Message) (s : State) : stepsLeft p (issue p m s) = messageSteps p m := by
  rcases issue_cases p m s with ⟨hf, e⟩ | ⟨hf, e⟩
  · rcases framingLegal_cases hf with ⟨hop, hb, -⟩ | ⟨hop, hb, -⟩ | ⟨hop, -⟩
    · simp [e, messageSteps, hf, stepsLeft, entryState, hop, decodeWord_op1 hop hb]
    · simp [e, messageSteps, hf, stepsLeft, entryState, hop, decodeWord_op2 hop hb]
    · simp [e, messageSteps, hf, stepsLeft, entryState, hop, decodeWord_op3 hop]
  · simp [e, messageSteps, hf]

/-- Settles O49: the issue step begins the answer with all micro-steps to come; each step makes one of them, and in RESP, where
none is to come, the data invariants give the response. -/
theorem messageAnsweredByCommandLevelFunction : Obligations.MessageAnsweredByCommandLevelFunction := by
  intro s m h hs hm hfree
  have hstart : Answering m s.obs (issue Config.params m s) := answering_issue h hs hfree
  have hcount := stepsLeft_issue Config.params m s
  have hrun : ∀ j, Host.Core.run core (1 + j) s = Host.Core.run core j (issue Config.params m s) := fun j => by
    rw [Nat.add_comm]
    exact run_succ j s _ (step_presented hm)
  constructor
  · obtain ⟨t, ht, hans, hsteps⟩ := hstart.run (Nat.le_of_eq hcount.symm)
    have hresp := hans.resp_of_stepsLeft (by omega)
    exact ⟨t, (hrun _).trans ht, hresp, hans.issued, hans.obs_eq, hans.data.pending hresp m hans.issued⟩
  · intro j hj
    obtain ⟨t, ht, hans, hsteps⟩ := hstart.run (j := j) (by omega)
    exact ⟨t, (hrun j).trans ht, hans.busy_of_stepsLeft (by omega)⟩

end Sys2Proof.Machine

/-! PROOFS. ENCODE: its micro-steps register by register (40_encode.md R81 to R84, R86), the byte form of the window (R85) and
the command-level function (R88). -/

namespace Sys2Proof.Machine

open Sys2Proof

/-! ## The micro-step that each state of ENCODE runs (10_state.md R21) -/

theorem exec_encCheck {s : State} (hs : s.st = .encCheck) (x : Operand) : exec (.encode x) s = .next (encCheck s) := by
  simp [exec_encode, encodeStep, hs]

theorem exec_encHash {s : State} (hs : s.st = .encHash) (x : Operand) :
    exec (.encode x) s = .next (encHash Config.params s) := by
  simp [exec_encode, encodeStep, hs]

theorem exec_encChunk {s : State} (hs : s.st = .encChunk) (hpos : s.pos < s.cnt) (x : Operand) :
    exec (.encode x) s = .next (encChunk s) := by
  simp [exec_encode, encodeStep, hs, hpos]

theorem exec_encDone {s : State} (hs : s.st = .encChunk) (hpos : s.pos = s.cnt) (x : Operand) :
    exec (.encode x) s = .next (encDone s) := by
  simp [exec_encode, encodeStep, hs, hpos]

/-! ## ENC_CHECK (40_encode.md R81) -/

/-- Bit `8j + r` of the loaded entropy is bit `7 - r` of payload byte `j`. -/
theorem entropyBits_getElem (s : State) {j r : Nat} (hj : j < s.a.toNat) (hr : r < 8) (h : 8 * j + r < 264) :
    (fill 264 false (bits (entropyOf s)))[8 * j + r] = (s.pl.getD j 0).getLsbD (7 - r) := by
  have hbyte : (entropyOf s).getD j 0 = s.pl.getD j 0 := by
    simp [entropyOf, List.getD_eq_getElem?_getD, hj]
  rw [fill_getElem, getD_bits _ _ _ hr, hbyte]

theorem entropyOf_length_le (s : State) : (entropyOf s).length ≤ s.a.toNat := List.length_take_le ..

/-- Settles O19: a legal length is loaded bit by bit, and positions past the entropy are filled with 0. -/
theorem encCheckLoadsEntropy : Obligations.EncCheckLoadsEntropy := by
  intro x s hs
  rw [exec_encCheck hs]
  constructor
  · intro ha
    obtain ⟨-, e⟩ := (encCheck_cases s).resolve_right fun h => h.1 ha
    rw [e]
    refine ⟨_, rfl, fun j r hj hr h => entropyBits_getElem s hj hr h, fun q hq hn => ?_, rfl⟩
    have hlen := entropyOf_length_le s
    exact fill_getElem_beyond _ _ _ q hq (by rw [bits_length]; omega)
  · intro ha
    obtain ⟨-, e⟩ := (encCheck_cases s).resolve_left fun h => ha h.1
    rw [e, raiseError_eq]

/-! ## ENC_HASH (40_encode.md R82, R86) -/

/-- The checksum bits are the first bits of the digest (10_state.md R27). -/
theorem checksumBits_getElem (d : Vector Bool 256) (cs j : Nat) (hj : j < (checksumBits d cs).length) (hd : j < 256) :
    (checksumBits d cs)[j] = d[j] := by
  simp [checksumBits, slice]

/-- In ENC_HASH the stream holds the bytes that are hashed. -/
theorem bytes_stream_eq_entropy {s : State} (h : Inv s) (hd : DataInv Config.params s) (hs : s.st = .encHash) :
    bytes (s.cbs.toList.take s.nbits) = entropyOf s := by
  obtain ⟨-, hnbits, -⟩ := h.enc_hash hs
  have hlen : s.nbits = (bits s.pl).length := by rw [bits_length, encode_payload_length h (.inr (.inl hs)), hnbits]
  have hle := h.nbits_le
  rw [hd.enc_hash hs, fill_take _ _ _ _ (Nat.le_of_eq hlen) hle, hlen, List.take_length, bytes_bits,
    entropyOf_eq_payload h (.inr (.inl hs))]

/-- Settles O20: the first digest bits are inserted at NBITS; in reachable states the bits below NBITS are those of the bytes
hashed. -/
theorem encHashInsertsChecksum : Obligations.EncHashInsertsChecksum := by
  refine ⟨fun x s hs ha => ?_, fun s h hd hs => bytes_stream_eq_entropy h hd hs⟩
  rw [exec_encHash hs]
  have hcs : csOfBytes s.a.toNat ≤ 8 := (streamLength_of_entLength ha).2.1
  have hlen : (checksumBits (Config.params.h256 (entropyOf s)) (csOfBytes s.a.toNat)).length = csOfBytes s.a.toNat :=
    checksumBits_length _ (by omega)
  constructor
  · intro hdiv
    obtain ⟨-, e⟩ := (encHash_cases Config.params s).resolve_right fun h => h.1 hdiv
    rw [e]
    refine ⟨_, rfl, fun j hj h hj256 => ?_, fun q hq hout => ?_, rfl⟩
    · have hj : j < (checksumBits (Config.params.h256 (entropyOf s)) (csOfBytes s.a.toNat)).length := hlen.symm ▸ hj
      exact ((putBits_getElem _ _ _ _ h).2 j hj rfl).trans (checksumBits_getElem _ _ _ hj hj256)
    · exact (putBits_getElem _ _ _ q hq).1 (hlen.symm ▸ hout)
  · intro hdiv
    obtain ⟨-, e⟩ := (encHash_cases Config.params s).resolve_left fun h => hdiv h.1
    rw [e, raiseError_eq]

/-- Settles O21: entropy and checksum are whole windows, so the defensive check passes. -/
theorem encHashNeverFailsInReachableStates : Obligations.EncHashNeverFailsInReachableStates := by
  intro x s h hs
  rw [exec_encHash hs]
  obtain ⟨ha, -, -⟩ := h.enc_hash hs
  have hwindows := encHash_streamLength h hs
  have hfour := four_dvd_of_entLength ha
  rcases encHash_cases Config.params s with ⟨-, e⟩ | ⟨hdiv, -⟩
  · rw [e]
    exact ⟨_, rfl, rfl, by dsimp only; omega, by dsimp only; omega⟩
  · omega

/-! ## ENC_CHUNK (40_encode.md R83) -/

/-- Bit `10 - j` of the entry of an 11-bit window is window bit `j`. -/
theorem idxOfWindow_getLsbD {t : Stream} (ht : t.length = 11) {j : Nat} (hj : j < 11) :
    (idxOfWindow (uint t)).getLsbD (10 - j) = t[j] := by
  have hbit := testBit_uint t j (ht.symm ▸ hj)
  simp only [ht] at hbit
  rw [idxOfWindow, BitVec.getLsbD_ofNat, ← hbit, decide_eq_true (show 10 - j < 12 by omega), Bool.true_and]

/-- The entry of an 11-bit window has miss bit 0. -/
theorem idxOfWindow_miss {t : Stream} (ht : t.length = 11) : (idxOfWindow (uint t)).getLsbD 11 = false := by
  have hlt := uint_lt t
  rw [ht] at hlt
  rw [idxOfWindow, BitVec.getLsbD_ofNat, Nat.testBit_lt_two_pow hlt, Bool.and_false]

theorem cbsSlice_length (s : Vector Bool 264) {i n : Nat} (h : i + n ≤ 264) : (cbsSlice s i n).length = n :=
  slice_length _ _ _ (by simpa using h)

theorem cbsSlice_getElem (s : Vector Bool 264) {i n j : Nat} (hj : j < (cbsSlice s i n).length) (h : i + j < 264) :
    (cbsSlice s i n)[j] = s[i + j] := by
  simp [cbsSlice, slice]

/-- ENC_CHUNK writes the window under the cursor as the entry at the word position. -/
theorem encChunk_idx_pos {s : State} (h : s.pos < 24) :
    (encChunk s).idx[s.pos] = idxOfWindow (uint (cbsSlice s.cbs s.cur 11)) := Vector.getElem_setIfInBounds_self h

/-- Settles O22: the window under the cursor becomes the entry at the word position; the cursor, 11 times that position, leaves
room for it. -/
theorem encChunkCutsOneWindow : Obligations.EncChunkCutsOneWindow := by
  refine ⟨fun x s hs hpos hc hcur => ?_, fun s h hs hpos => ?_⟩
  · have hlen := cbsSlice_length s.cbs hcur
    rw [exec_encChunk hs hpos]
    refine ⟨_, rfl, fun j hj h hp => ?_, fun hp => ?_, fun k hk hne => ?_, rfl⟩
    · rw [encChunk_idx_pos hp, idxOfWindow_getLsbD hlen hj, cbsSlice_getElem s.cbs _ h]
    · rw [encChunk_idx_pos hp, idxOfWindow_miss hlen]
    · exact Vector.getElem_setIfInBounds_ne hk hne.symm
  · obtain ⟨-, hnbits, -⟩ := h.enc_chunk hs
    have hcursor := h.cursor (.inl hs)
    omega

/-! ## ENC_DONE (40_encode.md R84) -/

theorem idxAt_of_lt (s : State) {k : Nat} (h : k < 24) : idxAt s k = s.idx[k] := by simp [idxAt, h]

/-- The two data bytes of a word are those of its entry. -/
theorem encodeData_getD (s : State) {k : Nat} (hk : k < s.cnt) (h : k < 24) :
    (encodeData s).getD (2 * k) 0 = (s.idx[k].extractLsb' 8 4).setWidth 8 ∧
      (encodeData s).getD (2 * k + 1) 0 = s.idx[k].extractLsb' 0 8 := by
  obtain ⟨hhigh, hlow⟩ :=
    getD_flatMap_pair 0 (List.range s.cnt) (fun k => entryBytes (idxAt s k)) (fun _ => rfl) k (by simpa using hk)
  rw [List.getElem_range, idxAt_of_lt s h] at hhigh hlow
  exact ⟨hhigh, hlow⟩

/-- Settles O23: the data are two bytes for each entry, and `Respond` clears the rest. -/
theorem encDoneRespondsWithEntries : Obligations.EncDoneRespondsWithEntries := by
  intro x s hs hpos _
  rw [exec_encDone hs hpos]
  refine ⟨_, rfl, fun k hk h h2 => ?_, fun j hj hn => ?_, ?_⟩
  · obtain ⟨hhigh, hlow⟩ := encodeData_getD s hk h
    exact ⟨(fill_getElem _ _ _ _ _).trans hhigh, (fill_getElem _ _ _ _ _).trans hlow⟩
  · exact fill_getElem_beyond _ _ _ j hj (by rwa [encodeData_length])
  · rw [← encodeData_length]
    rfl

/-! ## The window from bytes (40_encode.md R85) -/

theorem uint_byteBits (b : Byte) : uint (byteBits b) = b.toNat := by
  rw [byteBits_eq, uint_streamOf, Nat.mod_eq_of_lt b.isLt]

/-- The value of three bytes, the first most significant. -/
theorem uint_bits_three (b0 b1 b2 : Byte) :
    uint (bits [b0, b1, b2]) = b0.toNat * 65536 + b1.toNat * 256 + b2.toNat := by
  have hnil : uint (bits []) = 0 := rfl
  simp only [bits_cons, uint_append, uint_byteBits, List.length_append, byteBits_length, bits_length, List.length_nil, hnil]
  omega

/-- The window `o` bits from the start of three bytes is a shift and a remainder of their value. -/
theorem uint_slice_three (b0 b1 b2 : Byte) {o : Nat} (h : o ≤ 13) : uint (slice (bits [b0, b1, b2]) o 11) =
    ((b0.toNat * 65536 + b1.toNat * 256 + b2.toNat) >>> (13 - o)) % 2048 := by
  have hlen : (bits [b0, b1, b2]).length = 24 := rfl
  have hshift : 24 - o - 11 = 13 - o := by omega
  rw [uint_slice _ _ _ (by omega), uint_bits_three, hlen, hshift, show 2 ^ 11 = 2048 from rfl]

/-- A slice of whole bytes. -/
theorem slice_bits (bs : Bytes) {j n : Nat} (h : j + n ≤ bs.length) :
    slice (bits bs) (8 * j) (8 * n) = bits ((bs.drop j).take n) := by
  have hparts : bits bs = bits (bs.take j) ++ (bits ((bs.drop j).take n) ++ bits ((bs.drop j).drop n)) := by
    rw [← bits_append, ← bits_append, List.take_append_drop, List.take_append_drop]
  have hj : 8 * j = (bits (bs.take j)).length := by rw [bits_length, List.length_take_of_le (by omega)]
  have hn : 8 * n = (bits ((bs.drop j).take n)).length := by
    rw [bits_length, List.length_take_of_le (by rw [List.length_drop]; omega)]
  rw [hparts, hj, slice_append_right, hn, List.take_left]

theorem take_three_drop (bs : Bytes) {j : Nat} (h : j + 3 ≤ bs.length) :
    (bs.drop j).take 3 = [bs.getD j 0, bs.getD (j + 1) 0, bs.getD (j + 2) 0] := by
  have h0 : j < bs.length := by omega
  have h1 : j + 1 < bs.length := by omega
  have h2 : j + 2 < bs.length := by omega
  rw [List.drop_eq_getElem_cons h0, List.drop_eq_getElem_cons h1, List.drop_eq_getElem_cons h2]
  simp only [List.take_succ_cons, List.take_zero, List.getD_eq_getElem?_getD, List.getElem?_eq_getElem h0,
    List.getElem?_eq_getElem h1, List.getElem?_eq_getElem h2, Option.getD_some]

/-- A slice of a slice is a slice. -/
theorem slice_slice (s : Stream) {i m o n : Nat} (h : o + n ≤ m) : slice (slice s i m) o n = slice s (i + o) n := by
  unfold slice
  rw [List.drop_take, List.take_take, Nat.min_eq_left (by omega), List.drop_drop]

/-- Settles O24: the window lies in the three bytes from the one its first bit lies in, `o` bits from their start. -/
theorem windowOfBytesIsWindowOfStream : Obligations.WindowOfBytesIsWindowOfStream := by
  intro cbs k hk
  have hlen : (bytes cbs.toList ++ [0]).length = 34 := by simp
  have hbits : bits (bytes cbs.toList ++ [0]) = cbs.toList ++ bits [0] := by
    rw [bits_append, bits_bytes 33 _ (by simp)]
  have hthree : slice (cbs.toList ++ bits [0]) (8 * (11 * k / 8)) (8 * 3) = bits
      [(bytes cbs.toList ++ [0]).getD (11 * k / 8) 0, (bytes cbs.toList ++ [0]).getD (11 * k / 8 + 1) 0,
        (bytes cbs.toList ++ [0]).getD (11 * k / 8 + 2) 0] := by
    rw [← hbits, slice_bits _ (by omega), take_three_drop _ (by omega)]
  have hwindow : cbsSlice cbs (11 * k) 11 =
      slice (slice (cbs.toList ++ bits [0]) (8 * (11 * k / 8)) (8 * 3)) (11 * k % 8) 11 := by
    rw [slice_slice _ (by omega), Nat.div_add_mod, slice_append_left _ _ _ _ (by rw [Vector.length_toList]; omega), cbsSlice]
  rw [hwindow, hthree, uint_slice_three _ _ _ (by omega), windowOfBytes]

/-! ## The command-level function (40_encode.md R80, R88) -/

/-- A window within the entropy is a window of the entropy's bits. -/
theorem windowIndex_combinedStream (p : Params) {e : Bytes} {k : Nat} (hk : k < 8 * e.length / 11) :
    windowIndex (combinedStream p e) k = windowIndex (bits e) k := by
  rw [windowIndex, combinedStream, slice_append_left _ _ _ _ (by rw [bits_length]; omega), windowIndex]

/-- Settles O26: both are the window of the entropy's bits. -/
theorem leadingIndicesIgnoreTheDigest : Obligations.LeadingIndicesIgnoreTheDigest := by
  intro p q e k hk
  rw [windowIndex_combinedStream p hk, windowIndex_combinedStream q hk]

/-- ENCODE of a legal length answers the entries of all windows, three for every four bytes (40_encode.md R80). -/
theorem encodeResponse_legal (p : Params) {l : Nat} (hl : l ∈ Config.entLengths) (e : Bytes) :
    encodeResponse p l e = successResponse
      ((List.range (3 * l / 4)).flatMap fun k => entryBytes (idxOfWindow (windowIndex (combinedStream p e) k))) := by
  obtain ⟨hwindows, -, -⟩ := streamLength_of_entLength hl
  simp only [encodeResponse, if_pos hl, hwindows, Nat.mul_mod_right, if_true, Nat.mul_div_cancel_left _ (show 0 < 11 by decide)]

/-- Settles O25: a success with two bytes for each of the three words that four entropy bytes give. -/
theorem encodeWordCount : Obligations.EncodeWordCount := by
  intro p l e hl _
  obtain ⟨m, rfl⟩ := four_dvd_of_entLength hl
  rw [encodeResponse_legal p hl]
  refine ⟨rfl, rfl, ?_⟩
  rw [successResponse, flatMap_length_const 2 _ _ (fun _ _ => rfl), List.length_range]
  omega

end Sys2Proof.Machine

/-! PROOFS. DECODE, command level: the response as a function of the entries' stream, the round trip (41_decode.md R90, R96), the
first miss (R90, R143, R148) and flipped checksum bits (R97). -/

namespace Sys2Proof.Machine

open Sys2Proof

/-! ## The response of DECODE (41_decode.md R90) -/

/-- A missing entry ends the command before any digest. -/
theorem decodeResponse_of_miss {p : Params} {n k : Nat} {pl : Bytes} (hn : n ∈ Config.wordCounts)
    (hmiss : firstMiss (entriesOf n pl) = some k) :
    decodeResponse p n pl = failureResponse .unknownWord (BitVec.ofNat 8 k) := by
  simp only [decodeResponse, if_pos hn, hmiss]

/-- Without a missing entry the stream of the entries is the candidate entropy's bits and then the claimed bits, and the leading
digest bits decide. -/
theorem decodeResponse_of_stream {p : Params} {n : Nat} {pl : Bytes} {entropyBits claimed : Stream}
    (hn : n ∈ Config.wordCounts) (hmiss : firstMiss (entriesOf n pl) = none)
    (hstream : entriesStream (entriesOf n pl) = entropyBits ++ claimed)
    (hent : entropyBits.length = entOfWords n) (hcs : claimed.length = csOfWords n) :
    decodeResponse p n pl =
      if checksumBits (p.h256 (bytes entropyBits)) (csOfWords n) = claimed then successResponse (bytes entropyBits)
      else failureResponse .checksumMismatch 0 := by
  have hcandidate : candidateEntropy (entriesOf n pl) = bytes entropyBits := by
    rw [candidateEntropy, hstream, entriesOf_length, ← hent, slice, List.drop_zero, List.take_left]
  have hclaimed : claimedBits (entriesOf n pl) = claimed := by
    rw [claimedBits, hstream, entriesOf_length, ← hent, slice_append_right, ← hcs, List.take_length]
  simp only [decodeResponse, if_pos hn, hmiss, hcandidate, hclaimed, entriesOf_length, checksumEqual, decide_eq_true_eq]

/-- Settles O31: no entry before `k` misses, so `k` is the least missing position. -/
theorem firstMissIsReported : Obligations.FirstMissIsReported := by
  intro p n k pl hn hk hmiss hbefore
  exact decodeResponse_of_miss hn (firstMiss_some n k pl hk hmiss hbefore)

/-! ## The entries that ENCODE returns (40_encode.md R84, 41_decode.md R96) -/

/-- The entries read from output entries are these entries, with zero bits above. -/
theorem entriesOf_entryBytes (n : Nat) (f : Nat → BitVec 12) :
    entriesOf n ((List.range n).flatMap fun k => entryBytes (f k)) = (List.range n).map fun k => (f k).setWidth 16 := by
  refine List.map_congr_left fun k hk => ?_
  have hk : k < (List.range n).length := by simpa using hk
  obtain ⟨hhigh, hlow⟩ := getD_flatMap_pair 0 (List.range n) (fun k => entryBytes (f k)) (fun _ => rfl) k hk
  rw [List.getElem_range] at hhigh hlow
  exact entryAt_of_entryBytes (f k) _ k hhigh hlow

/-- An output entry has miss bit 0. -/
theorem entryMiss_setWidth (e : BitVec 12) : entryMiss (e.setWidth 16) = false := by
  rw [entryMiss, BitVec.getLsbD_setWidth, BitVec.getLsbD_of_ge _ _ (by decide), Bool.and_false]

/-- The output entry of a window carries the window. -/
theorem streamOf_entryIndex_idxOfWindow {t : Stream} (ht : t.length = 11) :
    streamOf 11 (entryIndex ((idxOfWindow (uint t)).setWidth 16)).toNat = t := by
  have hlt := uint_lt t
  rw [ht] at hlt
  have hindex : (entryIndex ((idxOfWindow (uint t)).setWidth 16)).toNat = uint t := by
    simp only [entryIndex, idxOfWindow, BitVec.extractLsb'_toNat, BitVec.toNat_setWidth, BitVec.toNat_ofNat,
      Nat.shiftRight_zero]
    omega
  rw [hindex, ← ht, streamOf_uint]

/-- The output entries of all windows of a stream carry the stream. -/
theorem entriesStream_windows {c : Stream} {n : Nat} (hc : c.length = 11 * n) :
    entriesStream ((List.range n).map fun k => (idxOfWindow (windowIndex c k)).setWidth 16) = c := by
  have hwindow : ∀ k ∈ List.range n,
      streamOf 11 (entryIndex ((idxOfWindow (windowIndex c k)).setWidth 16)).toNat = slice c (11 * k) 11 := fun k hk => by
    have hk : k < n := List.mem_range.mp hk
    exact streamOf_entryIndex_idxOfWindow (slice_length c (11 * k) 11 (by omega))
  rw [entriesStream, List.flatMap_map, List.flatMap_def, List.map_congr_left hwindow, ← List.flatMap_def,
    flatMap_slices c n hc]

theorem firstMiss_windows (n : Nat) (f : Nat → BitVec 12) :
    firstMiss ((List.range n).map fun k => (f k).setWidth 16) = none := by
  rw [firstMiss, List.findIdx?_eq_none_iff]
  intro e he
  obtain ⟨k, -, rfl⟩ := List.mem_map.mp he
  exact entryMiss_setWidth (f k)

/-- The word count of a legal entropy is legal and splits the stream as ENCODE joined it (00_scope.md R13). -/
theorem wordCount_of_entLength {l : Nat} (hl : l ∈ Config.entLengths) :
    3 * l / 4 ∈ Config.wordCounts ∧ entOfWords (3 * l / 4) = 8 * l ∧ csOfWords (3 * l / 4) = csOfBytes l := by
  unfold entOfWords csOfWords csOfBytes
  simp only [Config.entLengths, Config.wordCounts, List.mem_cons, List.not_mem_nil, or_false] at hl ⊢
  omega

/-- Settles O33: the entries' stream is the CombinedBitStream, entropy bits and then the digest bits that DECODE asks for. -/
theorem decodeOfEncodeIsTheEntropy : Obligations.DecodeOfEncodeIsTheEntropy := by
  rintro p _ e hl rfl
  have hl : e.length ∈ Config.entLengths := hl
  obtain ⟨hn, hent, hcs⟩ := wordCount_of_entLength hl
  obtain ⟨-, hcs8, -⟩ := streamLength_of_entLength hl
  have hclaimed := checksumBits_length (p.h256 e) (show csOfBytes e.length ≤ 256 by omega)
  rw [encodeResponse_legal p hl, successResponse]
  refine (decodeResponse_of_stream (entropyBits := bits e) (claimed := checksumBits (p.h256 e) (csOfBytes e.length))
    hn ?_ ?_ ?_ ?_).trans ?_
  · rw [entriesOf_entryBytes, firstMiss_windows]
  · rw [entriesOf_entryBytes, entriesStream_windows (combinedStream_length p hl), combinedStream]
  · rw [bits_length, hent]
  · rw [hclaimed, hcs]
  · rw [bytes_bits, hcs, if_pos rfl]
    rfl

/-! ## Flipped checksum bits (41_decode.md R97) -/

/-- A stream of `m + n` bits is that of the upper `m` bits and then that of the lower `n` bits. -/
theorem streamOf_add (m n v : Nat) : streamOf (m + n) v = streamOf m (v >>> n) ++ streamOf n v := by
  induction m with
  | zero => rw [Nat.zero_add]; rfl
  | succ m ih => rw [Nat.succ_add, streamOf_succ, streamOf_succ, ih, Nat.testBit_shiftRight, Nat.add_comm n m, List.cons_append]

/-- Flipping bits of a value within its stream changes the stream. -/
theorem streamOf_xor_ne {n v f : Nat} (hf : f ≠ 0) (hlt : f < 2 ^ n) : streamOf n (v ^^^ f) ≠ streamOf n v := by
  intro h
  have hmod := congrArg uint h
  rw [uint_streamOf, uint_streamOf, Nat.xor_mod_two_pow, Nat.mod_eq_of_lt hlt] at hmod
  have hcancel := congrArg (v % 2 ^ n ^^^ ·) hmod
  simp only [← Nat.xor_assoc, Nat.xor_self, Nat.zero_xor] at hcancel
  exact hf hcancel

/-- Flipping bits below bit `n` leaves the bits from `n` on. -/
theorem xor_shiftRight_of_lt {n v f : Nat} (hlt : f < 2 ^ n) : (v ^^^ f) >>> n = v >>> n := by
  rw [Nat.shiftRight_xor_distrib, Nat.shiftRight_eq_div_pow f, Nat.div_eq_of_lt hlt, Nat.xor_zero]

/-- The last payload byte is the low byte of the last entry, and no other entry reads it. -/
theorem entriesOf_concat {front : Bytes} {m : Nat} (hlen : front.length = 2 * m + 1) (x : Byte) :
    entriesOf (m + 1) (front ++ [x]) = entriesOf m front ++ [front.getD (2 * m) 0 ++ x] := by
  rw [entriesOf_succ]
  congr 1
  · refine List.map_congr_left fun k hk => ?_
    have hk : k < m := List.mem_range.mp hk
    rw [entryAt, getD_append_left _ _ _ _ (by omega), getD_append_left _ _ _ _ (by omega), entryAt]
  · rw [entryAt, getD_append_left _ _ _ _ (by omega), getD_append_right _ _ _ _ (by omega), hlen, Nat.sub_self,
      List.getD_cons_zero]

/-- The miss bit of an entry lies in its high byte. -/
theorem entryMiss_append (high low : Byte) : entryMiss (high ++ low) = high.getLsbD 7 := by
  rw [entryMiss, BitVec.getLsbD_append]
  rfl

/-- Flipping bits of the low byte of an entry flips these bits of its index. -/
theorem entryIndex_append_xor (high low flip : Byte) :
    (entryIndex (high ++ (low ^^^ flip))).toNat = (entryIndex (high ++ low)).toNat ^^^ flip.toNat := by
  have happend : (high ++ (low ^^^ flip) : BitVec 16) = (high ++ low) ^^^ (0#8 ++ flip) := by
    rw [BitVec.xor_append, BitVec.xor_zero]
  have hflip : (entryIndex (0#8 ++ flip)).toNat = flip.toNat := by
    have hlt := flip.isLt
    simp only [entryIndex, BitVec.extractLsb'_toNat, BitVec.toNat_append, BitVec.toNat_ofNat, Nat.zero_mod, Nat.zero_shiftLeft,
      Nat.zero_or, Nat.shiftRight_zero]
    omega
  rw [happend, ← hflip, ← BitVec.toNat_xor, entryIndex, BitVec.extractLsb'_xor, entryIndex, entryIndex]

/-- The first miss depends on the miss bits alone. -/
theorem firstMiss_concat_congr (es : List (BitVec 16)) {e e' : BitVec 16} (h : entryMiss e = entryMiss e') :
    firstMiss (es ++ [e]) = firstMiss (es ++ [e']) := by
  simp only [firstMiss, List.findIdx?_append, List.findIdx?_singleton, h]

/-- The last `cs` bits of the stream are the low bits of the last index. -/
theorem entriesStream_concat (es : List (BitVec 16)) (e : BitVec 16) {cs : Nat} (hcs : cs ≤ 11) :
    entriesStream (es ++ [e]) = (entriesStream es ++ streamOf (11 - cs) ((entryIndex e).toNat >>> cs)) ++
      streamOf cs (entryIndex e).toNat := by
  rw [List.append_assoc, ← streamOf_add, Nat.sub_add_cancel hcs, entriesStream_append]
  simp only [entriesStream, List.flatMap_singleton]

/-- The candidate entropy of the entries of `front` and one more, whose index is `v`. -/
def candidateOfLast (m : Nat) (front : Bytes) (v : Nat) : Bytes :=
  bytes (entriesStream (entriesOf m front) ++ streamOf (11 - csOfWords (m + 1)) (v >>> csOfWords (m + 1)))

/-- The claimed bits of the last index are no part of the candidate entropy. -/
theorem candidateOfLast_xor (m : Nat) (front : Bytes) {v f : Nat} (hlt : f < 2 ^ csOfWords (m + 1)) :
    candidateOfLast m front (v ^^^ f) = candidateOfLast m front v := by
  rw [candidateOfLast, xor_shiftRight_of_lt hlt, candidateOfLast]

/-- DECODE of a payload by the index `v` that its last byte completes. -/
theorem decodeResponse_concat {p : Params} {m : Nat} {front : Bytes} (hn : m + 1 ∈ Config.wordCounts)
    (hlen : front.length = 2 * m + 1) {x : Byte} {v : Nat} (hv : (entryIndex (front.getD (2 * m) 0 ++ x)).toNat = v)
    (hmiss : firstMiss (entriesOf (m + 1) (front ++ [x])) = none) :
    decodeResponse p (m + 1) (front ++ [x]) =
      if checksumBits (p.h256 (candidateOfLast m front v)) (csOfWords (m + 1)) = streamOf (csOfWords (m + 1)) v then
        successResponse (candidateOfLast m front v)
      else failureResponse .checksumMismatch 0 := by
  have hsum := entOfWords_add_csOfWords (m + 1)
  have hcs : csOfWords (m + 1) ≤ 11 := by
    have hle := wordCount_le hn
    unfold csOfWords
    omega
  refine decodeResponse_of_stream hn hmiss ?_ ?_ (streamOf_length ..)
  · rw [entriesOf_concat hlen, entriesStream_concat _ _ hcs, hv]
  · rw [List.length_append, entriesStream_length, entriesOf_length, streamOf_length]
    omega

/-- A payload that decodes has no missing entry. -/
theorem firstMiss_of_decodes {p : Params} {n : Nat} {pl e : Bytes} (hn : n ∈ Config.wordCounts)
    (hok : decodeResponse p n pl = ⟨0x00, 0, e⟩) : firstMiss (entriesOf n pl) = none := by
  cases hfirst : firstMiss (entriesOf n pl) with
  | none => rfl
  | some k =>
    rw [decodeResponse_of_miss hn hfirst] at hok
    exact absurd (congrArg Response.stat hok) (show statusCode .unknownWord ≠ 0x00 by decide)

/-- Settles O32: the flip leaves the candidate entropy and changes the claimed bits, which were the digest bits. -/
theorem flippedChecksumBitIsDetected : Obligations.FlippedChecksumBitIsDetected := by
  intro p n front last flip e hn hlen hflip hlt hok
  obtain ⟨m, rfl⟩ : ∃ m, n = m + 1 := ⟨n - 1, by omega⟩
  have hlen : front.length = 2 * m + 1 := by omega
  have hlt : flip.toNat < 2 ^ csOfWords (m + 1) := hlt
  have hflip : flip.toNat ≠ 0 := fun h => hflip (BitVec.eq_of_toNat_eq h)
  have hmiss := firstMiss_of_decodes hn hok
  have hmiss' : firstMiss (entriesOf (m + 1) (front ++ [last ^^^ flip])) = none := by
    rw [← hmiss, entriesOf_concat hlen, entriesOf_concat hlen]
    exact firstMiss_concat_congr _ (by rw [entryMiss_append, entryMiss_append])
  rw [decodeResponse_concat hn hlen rfl hmiss] at hok
  split at hok
  case isFalse => exact absurd (congrArg Response.stat hok) (show statusCode .checksumMismatch ≠ 0x00 by decide)
  case isTrue hverdict =>
    have hclaimed := streamOf_xor_ne (v := (entryIndex (front.getD (2 * m) 0 ++ last)).toNat) hflip hlt
    rw [decodeResponse_concat hn hlen (entryIndex_append_xor ..) hmiss', candidateOfLast_xor m front hlt, hverdict,
      if_neg hclaimed.symm]
    rfl

end Sys2Proof.Machine

/-! PROOFS. DECODE: its micro-steps register by register (41_decode.md R91 to R93) and the checksum verdict (R94). -/

namespace Sys2Proof.Machine

open Sys2Proof

/-! ## The micro-step that each state of DECODE runs (10_state.md R21) -/

theorem exec_decCheck {s : State} (hs : s.st = .decCheck) (x : Operand) : exec (.decode x) s = .next (decCheck s) := by
  simp [exec_decode, decodeStep, hs]

theorem exec_decGather {s : State} (hs : s.st = .decGather) (hpos : s.pos < s.cnt) (x : Operand) :
    exec (.decode x) s = .next (decGather s) := by
  simp [exec_decode, decodeStep, hs, hpos]

theorem exec_decVerify {s : State} (hs : s.st = .decGather) (hpos : s.pos = s.cnt) (x : Operand) :
    exec (.decode x) s = .next (decVerify Config.params s) := by
  simp [exec_decode, decodeStep, hs, hpos]

/-! ## Bits of entries (30_encoding.md R66) -/

theorem entryAt_getLsbD_low (bs : Bytes) (k : Nat) {r : Nat} (hr : r < 8) :
    (entryAt bs k).getLsbD r = (bs.getD (2 * k + 1) 0).getLsbD r := by
  rw [entryAt, BitVec.getLsbD_append, if_pos hr]

theorem entryAt_getLsbD_high (bs : Bytes) (k r : Nat) :
    (entryAt bs k).getLsbD (8 + r) = (bs.getD (2 * k) 0).getLsbD r := by
  rw [entryAt, BitVec.getLsbD_append, if_neg (by omega), Nat.add_sub_cancel_left]

theorem wordIndex_getLsbD (e : BitVec 12) {r : Nat} (hr : r < 11) : (wordIndex e).getLsbD r = e.getLsbD r := by
  rw [wordIndex, BitVec.getLsbD_extractLsb', decide_eq_true hr, Bool.true_and, Nat.zero_add]

/-- The index bits of an entry are kept in its IDX entry (41_decode.md R91). -/
theorem idxOfEntry_getLsbD (e : BitVec 16) {r : Nat} (hr : r < 11) : (idxOfEntry e).getLsbD r = e.getLsbD r := by
  rw [← wordIndex_getLsbD _ hr, wordIndex_idxOfEntry, entryIndex, BitVec.getLsbD_extractLsb', decide_eq_true hr,
    Bool.true_and, Nat.zero_add]

/-! ## DEC_CHECK (41_decode.md R91) -/

theorem idxOfPayload_getElem (pl : Bytes) {n k : Nat} (hk : k < n) (h : k < 24) :
    (idxOfPayload pl n)[k] = idxOfEntry (entryAt pl k) := by
  rw [idxOfPayload, fill_getElem]
  simp [hk]

/-- Settles O27: a legal count loads every entry bit by bit, and the entries past the count are filled with 0. -/
theorem decCheckLoadsEntries : Obligations.DecCheckLoadsEntries := by
  intro x s hs
  rw [exec_decCheck hs]
  constructor
  · intro ha
    obtain ⟨-, e⟩ := (decCheck_cases s).resolve_right fun h => h.1 ha
    rw [e]
    refine ⟨_, rfl, fun k h hk => ?_, fun k h hk => ?_, rfl⟩
    · dsimp only
      rw [idxOfPayload_getElem _ hk h]
      refine ⟨?_, fun r hr => ?_, fun r hr => ?_⟩
      · exact (missFlag_idxOfEntry _).trans (entryAt_getLsbD_high _ _ 7)
      · rw [idxOfEntry_getLsbD _ (by omega), entryAt_getLsbD_low _ _ hr]
      · rw [idxOfEntry_getLsbD _ (by omega), entryAt_getLsbD_high]
    · exact fill_getElem_beyond _ _ _ k h (by simpa using hk)
  · intro ha
    obtain ⟨-, e⟩ := (decCheck_cases s).resolve_left fun h => ha h.1
    rw [e, raiseError_eq]

/-! ## DEC_GATHER (41_decode.md R92) -/

/-- Bit `j` of the stream of an IDX entry's index is bit `10 - j` of the entry. -/
theorem streamOf_wordIndex_getElem (e : BitVec 12) {j : Nat} (hj : j < (streamOf 11 (wordIndex e).toNat).length) :
    (streamOf 11 (wordIndex e).toNat)[j] = e.getLsbD (10 - j) := by
  rw [← wordIndex_getLsbD e (show 10 - j < 11 by omega)]
  simp [streamOf, BitVec.getLsbD]

/-- Settles O28: the index at the word position becomes the 11 bits under the cursor, unless its miss flag is set; the cursor, 11
times that position, leaves room for it. -/
theorem decGatherAppendsOneIndex : Obligations.DecGatherAppendsOneIndex := by
  refine ⟨fun x s hs hpos _ hp _ => ?_, fun s h hs hpos => ?_⟩
  · rw [exec_decGather hs hpos, ← idxAt_of_lt s hp]
    constructor
    · intro hmiss
      obtain ⟨-, e⟩ := (decGather_cases s).resolve_left fun h => Bool.eq_false_iff.mp h.1 hmiss
      rw [e, raiseError_eq]
    · intro hmiss
      obtain ⟨-, e⟩ := (decGather_cases s).resolve_right fun h => Bool.eq_false_iff.mp hmiss h.1
      rw [e]
      refine ⟨_, rfl, fun j hj h => ?_, fun q h hout => ?_, rfl⟩
      · have hj : j < (streamOf 11 (wordIndex (idxAt s s.pos)).toNat).length := by rwa [streamOf_length]
        exact ((putBits_getElem _ _ _ _ h).2 j hj rfl).trans (streamOf_wordIndex_getElem _ hj)
      · exact (putBits_getElem _ _ _ q h).1 (by rwa [streamOf_length])
  · have hcursor := h.cursor (.inr hs)
    have hcnt := h.cnt_le
    omega

/-! ## DEC_VERIFY (41_decode.md R93) -/

/-- `Respond` in full: the reset state but for the response registers and the host's side (00_scope.md R12). -/
theorem respond_eq_reset (k : Status) (info : BitVec 8) (data : Bytes) (s : State) :
    respond k info data s = { State.reset with
      st := .resp, rv := true, rstat := statusCode k, rinfo := info, rlen := data.length, rdata := fill 64 0 data,
      script := s.script, issued := s.issued, obs := s.obs } := rfl

/-- The entropy bits of a legal word count are whole bytes and fit CBS (00_scope.md R13). -/
theorem entOfWords_of_wordCount {n : Nat} (hn : n ∈ Config.wordCounts) :
    entOfWords n ≤ 264 ∧ 8 * (entOfWords n / 8) = entOfWords n := by
  unfold entOfWords csOfWords
  simp only [Config.wordCounts, List.mem_cons, List.not_mem_nil, or_false] at hn
  omega

/-- The candidate entropy is the bytes of the first `ENT` bits of CBS. -/
theorem bits_candidateOf {s : State} (hcnt : s.cnt ∈ Config.wordCounts) :
    8 * (candidateOf s).length = entOfWords s.cnt ∧ bits (candidateOf s) = s.cbs.toList.take (entOfWords s.cnt) := by
  obtain ⟨hle, hbytes⟩ := entOfWords_of_wordCount hcnt
  have hlen : (cbsSlice s.cbs 0 (entOfWords s.cnt)).length = entOfWords s.cnt := cbsSlice_length _ (by omega)
  constructor
  · rw [candidateOf, bytes_length, hlen, hbytes]
  · rw [candidateOf, bits_bytes (entOfWords s.cnt / 8) _ (by rw [hlen, hbytes])]
    rfl

/-- The verdict compares the first `CS` digest bits with the `CS` bits of CBS from `ENT`. -/
theorem checksumEqual_claimedOf_iff (d : Vector Bool 256) (s : State) :
    checksumEqual d (csOfWords s.cnt) (claimedOf s) = true ↔
      d.toList.take (s.cnt / 3) = (s.cbs.toList.drop (11 * s.cnt - s.cnt / 3)).take (s.cnt / 3) :=
  decide_eq_true_iff

/-- Settles O29: the bytes hashed are the candidate entropy, and `Respond` clears the rest. -/
theorem decVerifyComparesChecksum : Obligations.DecVerifyComparesChecksum := by
  intro x s hs hpos hcnt
  obtain ⟨hlen, hbits⟩ := bits_candidateOf hcnt
  refine ⟨candidateOf s, hlen, hbits, ?_⟩
  rw [exec_decVerify hs hpos]
  rcases decVerify_cases Config.params s with ⟨hv, e⟩ | ⟨hv, e⟩ <;> rw [e]
  · rw [if_pos ((checksumEqual_claimedOf_iff _ s).mp hv), respond_eq_reset]
    rfl
  · rw [if_neg (mt (checksumEqual_claimedOf_iff _ s).mpr (Bool.eq_false_iff.mp hv)), raiseError_eq]

/-! ## The checksum verdict (41_decode.md R94) -/

/-- Streams of one length with one value are the same stream. -/
theorem uint_inj {t t' : Stream} (hlen : t.length = t'.length) : uint t = uint t' ↔ t = t' := by
  refine ⟨fun h => ?_, congrArg uint⟩
  rw [← streamOf_uint t, ← streamOf_uint t', hlen, h]

/-- Shifting the last bits of a stream out leaves the value of the bits before them. -/
theorem uint_append_shiftRight (s t : Stream) : uint (s ++ t) >>> t.length = uint s := by
  rw [uint_append, Nat.shiftRight_eq_div_pow, Nat.add_comm, Nat.add_mul_div_right _ _ (Nat.two_pow_pos _),
    Nat.div_eq_of_lt (uint_lt t), Nat.zero_add]

/-- The first digest byte shifted right holds the checksum bits. -/
theorem uint_firstByte_shiftRight (d : Vector Bool 256) {cs : Nat} (hcs : cs ≤ 8) :
    uint (d.toList.take 8) >>> (8 - cs) = uint (checksumBits d cs) := by
  have hlen : ((d.toList.drop cs).take (8 - cs)).length = 8 - cs := slice_length _ _ _ (by rw [Vector.length_toList]; omega)
  have hsplit : d.toList.take 8 = checksumBits d cs ++ (d.toList.drop cs).take (8 - cs) := by
    rw [checksumBits, slice, List.drop_zero, ← List.take_add, Nat.add_sub_cancel' hcs]
  rw [hsplit, ← uint_append_shiftRight (checksumBits d cs) ((d.toList.drop cs).take (8 - cs)), hlen]

/-- The checksum bits read with a default are those of the digest. -/
theorem checksumBits_getD (d : Vector Bool 256) {cs j : Nat} (hj : j < cs) :
    (checksumBits d cs).getD j false = d.toList.getD j false := by
  simp [checksumBits, slice, List.getD_eq_getElem?_getD, hj]

/-- Streams of one length are equal when they agree at every position. -/
theorem stream_ext_getD {t t' : Stream} (hlen : t.length = t'.length) :
    t = t' ↔ ∀ j, j < t.length → t.getD j false = t'.getD j false := by
  refine ⟨fun h j _ => by rw [h], fun h => List.ext_getElem hlen fun j hj hj' => ?_⟩
  simpa [List.getD_eq_getElem?_getD, hj, hj'] using h j hj

/-- Settles O30: the verdict is equality of two streams of `CS` bits, and so are both comparisons. -/
theorem checksumComparisonAsBytes : Obligations.ChecksumComparisonAsBytes := by
  intro d cs c _ hcs hc
  have hlen := checksumBits_length d (show cs ≤ 256 by omega)
  rw [checksumEqual, decide_eq_true_eq]
  constructor
  · rw [stream_ext_getD (hlen.trans hc.symm), hlen]
    exact forall₂_congr fun j hj => by rw [checksumBits_getD d hj]
  · rw [uint_firstByte_shiftRight d hcs, uint_inj (hlen.trans hc.symm)]

end Sys2Proof.Machine

/-! PROOFS. DERIVE: its micro-steps register by register (42_derive.md R104 to R107) and the stretch under a constant PRF
(R101). -/

namespace Sys2Proof.Machine

open Sys2Proof

/-! ## The micro-step that each state of DERIVE runs (10_state.md R21) -/

theorem exec_kdfCheck {s : State} (hs : s.st = .kdfCheck) (x y : Operand) :
    exec (.derive x y) s = .next (kdfCheck Config.params s) := by
  simp [exec_derive, deriveStep, hs]

theorem exec_kdfFirst {s : State} (hs : s.st = .kdfFirst) (x y : Operand) :
    exec (.derive x y) s = .next (kdfFirst Config.params s) := by
  simp [exec_derive, deriveStep, hs]

theorem exec_kdfIter {s : State} (hs : s.st = .kdfIter) (hiter : s.iter < 2048) (x y : Operand) :
    exec (.derive x y) s = .next (kdfIter Config.params s) := by
  simp [exec_derive, deriveStep, hs, hiter]

theorem exec_kdfDone {s : State} (hs : s.st = .kdfIter) (hiter : s.iter = 2048) (x y : Operand) :
    exec (.derive x y) s = .next (kdfDone s) := by
  simp [exec_derive, deriveStep, hs, hiter]

/-! ## Bytewise exclusive-or (00_scope.md R14) -/

theorem xorBytes_getElem (x y : Bytes64) {j : Nat} (h : j < 64) : (xorBytes x y)[j] = x[j] ^^^ y[j] :=
  Vector.getElem_zipWith h

theorem xorBytes_self (x : Bytes64) : xorBytes x x = Vector.replicate 64 0 :=
  Vector.ext fun j h => by
    rw [xorBytes_getElem _ _ h, Vector.getElem_replicate]
    exact BitVec.xor_self

/-- Adding a value twice cancels it. -/
theorem xorBytes_xorBytes_cancel_right (x y : Bytes64) : xorBytes (xorBytes x y) y = x :=
  Vector.ext fun j h => by
    rw [xorBytes_getElem _ _ h, xorBytes_getElem _ _ h, BitVec.xor_assoc, BitVec.xor_self, BitVec.xor_zero]

/-! ## The stretch under a constant PRF (42_derive.md R101) -/

/-- Every term of the stretch is an answer of the PRF. -/
theorem stretchU_of_constant {p : Params} {c : Bytes64} (hc : ∀ k m, p.prf512 k m = c) (pw salt : Bytes) (i : Nat) :
    stretchU p pw salt i = c := by
  cases i with
  | zero => exact hc _ _
  | succ i => exact hc _ _

/-- An even number of equal terms adds up to zero: each two further terms cancel. -/
theorem stretchT_odd_of_constant {p : Params} {c : Bytes64} (hc : ∀ k m, p.prf512 k m = c) (pw salt : Bytes) (n : Nat) :
    stretchT p pw salt (2 * n + 1) = Vector.replicate 64 0 := by
  have hu := stretchU_of_constant hc pw salt
  induction n with
  | zero => rw [stretchT, stretchT, hu, hu, xorBytes_self]
  | succ n ih =>
    calc stretchT p pw salt (2 * n + 3)
        = xorBytes (xorBytes (stretchT p pw salt (2 * n + 1)) c) c := by rw [stretchT, stretchT, hu, hu]
      _ = stretchT p pw salt (2 * n + 1) := xorBytes_xorBytes_cancel_right _ c
      _ = Vector.replicate 64 0 := ih

/-- Settles O38: the 2048 terms are an even number of equal ones. -/
theorem stretchOfConstantPrfIsZero : Obligations.StretchOfConstantPrfIsZero := by
  intro p c pw salt hc
  exact stretchT_odd_of_constant hc pw salt 1023

/-! ## KDF_CHECK and KDF_FIRST (42_derive.md R104, R105) -/

/-- Settles O34: the verdict is the conjunction of the two tests. -/
theorem kdfCheckTestsBothTexts : Obligations.KdfCheckTestsBothTexts := by
  intro x y s hs
  refine (exec_kdfCheck hs x y).trans (congrArg _ ?_)
  rcases kdfCheck_cases Config.params s with ⟨htext, e⟩ | ⟨htext, e⟩
  · exact e.trans (if_pos (Bool.and_eq_true_iff.mp htext)).symm
  · exact e.trans (if_neg (mt Bool.and_eq_true_iff.mpr (Bool.eq_false_iff.mp htext))).symm

/-- The bytes of the first message around the passphrase (42_derive.md R102, R105). -/
theorem firstMessage_saltOf (pp : Bytes) :
    firstMessage (saltOf pp) = [0x6D, 0x6E, 0x65, 0x6D, 0x6F, 0x6E, 0x69, 0x63] ++ pp ++ [0, 0, 0, 1] := rfl

/-- Settles O35: U and T are the PRF's answer to the first message. -/
theorem kdfFirstMakesTheFirstCall : Obligations.KdfFirstMakesTheFirstCall := by
  intro x y s hs
  rw [exec_kdfFirst hs, kdfFirst, firstMessage_saltOf]
  rfl

/-! ## KDF_ITER and KDF_DONE (42_derive.md R106, R107) -/

/-- Settles O36: the new T is the exclusive-or of the old one and the new U. -/
theorem kdfIterMakesOneCall : Obligations.KdfIterMakesOneCall := by
  intro x y s hs hiter
  exact ⟨kdfIter Config.params s, exec_kdfIter hs hiter x y, rfl, fun _ h => xorBytes_getElem _ _ h, rfl⟩

/-- A register filled with its own cells is unchanged. -/
theorem fill_toList_self {α : Type} {n : Nat} (d : α) (v : Vector α n) : fill n d v.toList = v :=
  Vector.ext fun k h => by
    have hk : k < v.toList.length := by rwa [Vector.length_toList]
    rw [fill_getElem _ _ _ _ h, List.getD_eq_getElem?_getD, List.getElem?_eq_getElem hk, Option.getD_some,
      Vector.getElem_toList]

/-- Settles O37: the data are the 64 bytes of T, and `Respond` clears the rest. -/
theorem kdfDoneRespondsWithSeed : Obligations.KdfDoneRespondsWithSeed := by
  intro x y s hs hiter
  rw [exec_kdfDone hs hiter, kdfDone, respond_eq_reset, fill_toList_self, Vector.length_toList]
  rfl

end Sys2Proof.Machine

/-! PROOFS. The word layer: the reverse lookup and the text form (43_wordlayer.md R122, R124), the three operations over words (R125
to R127), their correspondence (R129) and the flows (R128). -/

namespace Sys2Proof.Machine

open Sys2Proof

/-! ## The reverse lookup (43_wordlayer.md R122) -/

/-- The lookup searches all the indices there are. -/
theorem mem_allIndices (i : BitVec 11) : i ∈ (List.range 2048).map fun n => BitVec.ofNat 11 n :=
  List.mem_map.mpr ⟨i.toNat, List.mem_range.mpr i.isLt, by rw [BitVec.ofNat_toNat, BitVec.setWidth_eq]⟩

theorem lookupWord_eq_none_iff {p : Params} {wl : Wordlist p} {w : Bytes} :
    lookupWord wl w = none ↔ ∀ i, wl.word i ≠ w := by
  rw [lookupWord, List.find?_eq_none]
  exact ⟨fun h i => by simpa using h i (mem_allIndices i), fun h i _ => by simpa using h i⟩

/-- A lookup of a listed word finds some index of it, and a Wordlist has it at one index alone. -/
@[simp] theorem lookupWord_word {p : Params} (wl : Wordlist p) (i : BitVec 11) : lookupWord wl (wl.word i) = some i := by
  cases h : lookupWord wl (wl.word i) with
  | none => exact absurd rfl (lookupWord_eq_none_iff.mp h i)
  | some j =>
    have hj : wl.word j = wl.word i := by simpa using List.find?_some h
    rw [wl.unique j i hj]

/-- Settles O53: the lookup finds a listed word at its one index, and finds nothing if no index has the word. -/
theorem lookupInvertsTheWordlist : Obligations.LookupInvertsTheWordlist :=
  fun _ wl => ⟨lookupWord_word wl, fun _ => lookupWord_eq_none_iff.mpr⟩

/-! ## The text form (43_wordlayer.md R124) -/

/-- Bytes without a space extend the first piece. -/
theorem splitText_append {w s v : Bytes} {vs : List Bytes} (hw : Config.space ∉ w) (hs : splitText s = v :: vs) :
    splitText (w ++ s) = (w ++ v) :: vs := by
  induction w with
  | nil => exact hs
  | cons c w ih =>
    obtain ⟨hc, hw⟩ : Config.space ≠ c ∧ Config.space ∉ w := by simpa using hw
    rw [List.cons_append, splitText, if_neg hc.symm, ih hw]
    rfl

/-- A word without a space is one piece. -/
theorem splitText_word {w : Bytes} (hw : Config.space ∉ w) : splitText w = [w] := by
  simpa using splitText_append (s := []) hw rfl

/-- A space ends the piece before it. -/
theorem splitText_word_space {w : Bytes} (hw : Config.space ∉ w) (s : Bytes) :
    splitText (w ++ Config.space :: s) = w :: splitText s := by
  rw [splitText_append hw (v := []) (vs := splitText s) (by rw [splitText, if_pos rfl]), List.append_nil]

/-- Settles O58, by induction along `sentence`: each space of the sentence ends a word. -/
theorem splitTextInvertsSentence : Obligations.SplitTextInvertsSentence := by
  intro ws hne hspace
  fun_induction sentence ws with
  | case1 => exact absurd rfl hne
  | case2 w => exact splitText_word (hspace w (by simp))
  | case3 w v ws ih =>
    rw [splitText_word_space (hspace w (by simp)), ih (by simp) fun u hu => hspace u (List.mem_cons_of_mem w hu)]

/-! ## The response to each operation's message (43_wordlayer.md R125 to R127) -/

theorem toNat_operand {n : Nat} (h : n ≤ maxOperand) : (BitVec.ofNat 14 n).toNat = n :=
  (BitVec.toNat_ofNat n 14).trans (Nat.mod_eq_of_lt (Nat.lt_succ_of_le h))

/-- A well-formed command with the payload it announces is answered by its command-level function (30_encoding.md R65). -/
theorem messageResponse_of_fits {p : Params} {i : Instr} {pl : Bytes} (hi : i.wellFormed p = true)
    (hpl : pl.length = i.payloadLength) : messageResponse p ⟨encodeWord i, pl⟩ = instrResponse p pl i := by
  have hdecodes : decodeWord (encodeWord i) = .ok i := decodeOfEncodedCommandIsTheCommand i
  have hlegal : framingLegal p ⟨encodeWord i, pl⟩ = true :=
    (framingLegal_iff_of_decodes (m := ⟨encodeWord i, pl⟩) hdecodes).mpr ⟨hi, carries_iff.mpr hpl⟩
  simp only [messageResponse, if_pos hlegal, hdecodes]

theorem messageResponse_encodeMessage (p : Params) {e : Bytes} (he : e.length ≤ maxOperand) :
    messageResponse p (encodeMessage e) = encodeResponse p e.length e := by
  rw [encodeMessage, messageResponse_of_fits rfl (toNat_operand he).symm, instrResponse, toNat_operand he]

/-- The payload that `decode_words` sends: two bytes for the entry of each word (43_wordlayer.md R125). -/
def entriesPayload {p : Params} (wl : Wordlist p) (ws : List Bytes) : Bytes := (ws.map (entryOfWord wl)).flatMap bytesOfEntry

theorem messageResponse_decodeMessage {p : Params} (wl : Wordlist p) {ws : List Bytes} (hws : ws.length ≤ maxOperand) :
    messageResponse p (decodeMessage (ws.map (entryOfWord wl))) = decodeResponse p ws.length (entriesPayload wl ws) := by
  have hlen : (entriesPayload wl ws).length = 2 * ws.length := by
    rw [entriesPayload, flatMap_length_const 2 _ _ (fun _ _ => rfl), List.length_map]
  rw [decodeMessage, List.length_map, ← entriesPayload,
    messageResponse_of_fits rfl (by rw [hlen, Instr.payloadLength, toNat_operand hws]), instrResponse, toNat_operand hws]

theorem messageResponse_deriveMessage {p : Params} {pw pp : Bytes} (hpw : pw.length ≤ maxOperand) (hpp : pp.length ≤ maxOperand)
    (hpwMax : pw.length ≤ p.pwMax) (hppMax : pp.length ≤ p.ppMax) :
    messageResponse p (deriveMessage pw pp) = deriveResponse p pw pp := by
  have hfits : (Instr.derive (BitVec.ofNat 14 pw.length) (BitVec.ofNat 14 pp.length)).wellFormed p = true := by
    rw [wellFormed_derive_iff, toNat_operand hpw, toNat_operand hpp]
    exact ⟨hpwMax, hppMax⟩
  have hlen : (pw ++ pp).length = (Instr.derive (BitVec.ofNat 14 pw.length) (BitVec.ofNat 14 pp.length)).payloadLength := by
    rw [List.length_append, Instr.payloadLength, toNat_operand hpw, toNat_operand hpp]
  rw [deriveMessage, messageResponse_of_fits hfits hlen, instrResponse, toNat_operand hpw, toNat_operand hpp, List.take_left,
    List.drop_left, List.take_length]

/-! ## What `decode_words` makes of a response (43_wordlayer.md R125) -/

section DecodeOutcome

variable {p : Params} {wl : Wordlist p} {ws : List Bytes} (hutf8 : ws.all p.utf8ok = true) (hws : ws.length ≤ maxOperand)

include hutf8 hws

theorem decodeWords_of_success {e : Bytes} (h : decodeResponse p ws.length (entriesPayload wl ws) = successResponse e) :
    decodeWords p wl ws = .ok e := by
  simp only [decodeWords, if_pos hutf8, if_pos hws, messageResponse_decodeMessage wl hws, h]
  rfl

theorem decodeWords_of_invalidWordCount {info : BitVec 8}
    (h : decodeResponse p ws.length (entriesPayload wl ws) = failureResponse .invalidWordCount info) :
    decodeWords p wl ws = .error .invalidWordCount := by
  simp only [decodeWords, if_pos hutf8, if_pos hws, messageResponse_decodeMessage wl hws, h]
  rfl

theorem decodeWords_of_unknownWord {info : BitVec 8}
    (h : decodeResponse p ws.length (entriesPayload wl ws) = failureResponse .unknownWord info) :
    decodeWords p wl ws = .error (.unknownWord (ws.getD info.toNat []) info.toNat) := by
  simp only [decodeWords, if_pos hutf8, if_pos hws, messageResponse_decodeMessage wl hws, h]
  rfl

end DecodeOutcome

/-! ## Words that are not on the list (43_wordlayer.md R125) -/

/-- The miss bit of a word's entry is that of its lookup. -/
theorem entryMiss_entryOfWord {p : Params} (wl : Wordlist p) (w : Bytes) :
    entryMiss (entryOfWord wl w) = (lookupWord wl w).isNone := by
  cases h : lookupWord wl w with
  | none => rw [entryOfWord_miss wl h]; rfl
  | some i =>
    rw [entryOfWord_hit wl h, entryMiss, BitVec.getLsbD_setWidth, BitVec.getLsbD_of_ge _ _ (by decide), Bool.and_false]
    rfl

/-- Entry `k` of the payload is that of word `k`. -/
theorem entryAt_entriesPayload {p : Params} (wl : Wordlist p) {ws : List Bytes} {k : Nat} (hk : k < ws.length) :
    entryAt (entriesPayload wl ws) k = entryOfWord wl (ws.getD k []) := by
  rw [entriesPayload, entryAt_flatMap _ k (by rwa [List.length_map]), List.getElem_map, List.getD_eq_getElem?_getD,
    List.getElem?_eq_getElem hk, Option.getD_some]

/-- Settles O55: the entry of word `k` is the first with the miss bit set, and the response names its position. -/
theorem unknownWordNamesWordAndPosition : Obligations.UnknownWordNamesWordAndPosition := by
  intro p wl ws k hn hutf8 hk hmiss hbefore
  have hle : ws.length ≤ 24 := wordCount_le hn
  have hresponse : decodeResponse p ws.length (entriesPayload wl ws) = failureResponse .unknownWord (BitVec.ofNat 8 k) := by
    refine firstMissIsReported p ws.length k _ hn hk ?_ fun j hj => ?_
    · rw [entryAt_entriesPayload wl hk, entryMiss_entryOfWord, hmiss]
      rfl
    · rw [entryAt_entriesPayload wl (by omega), entryMiss_entryOfWord]
      exact Option.isNone_eq_false_iff.mpr (Option.isSome_iff_ne_none.mpr (hbefore j hj))
  have hposition : (BitVec.ofNat 8 k).toNat = k := by
    rw [BitVec.toNat_ofNat, Nat.mod_eq_of_lt (by omega)]
  rw [decodeWords_of_unknownWord hutf8 (by unfold maxOperand; omega) hresponse, hposition]

/-! ## Illegal lengths (43_wordlayer.md R125, R126, R129) -/

theorem encodeWords_illegal {p : Params} (wl : Wordlist p) {e : Bytes} (he : e.length ≤ maxOperand)
    (hl : e.length ∉ Config.entLengths) : encodeWords p wl e = .error .invalidEntropyLength := by
  simp only [encodeWords, if_pos he, messageResponse_encodeMessage p he, encodeResponse, if_neg hl]
  rfl

/-- Settles O56: ill-formed words are found before anything is sent; the block answers an illegal length before anything else. -/
theorem illegalLengthsFailInTheWordLayer : Obligations.IllegalLengthsFailInTheWordLayer := by
  intro p wl
  refine ⟨fun e he hl => encodeWords_illegal wl he hl, fun ws hws hn hutf8 => ?_, fun ws hill => ?_⟩
  · exact decodeWords_of_invalidWordCount (info := 0) hutf8 hws (if_neg hn)
  · rw [decodeWords, hill]
    rfl

/-! ## The round trip (43_wordlayer.md R129) -/

/-- A WordIndex has 11 bits. -/
theorem windowIndex_lt (s : Stream) (k : Nat) : windowIndex s k < 2 ^ 11 :=
  Nat.lt_of_lt_of_le (uint_lt _) (Nat.pow_le_pow_right (by decide) (List.length_take_le ..))

/-- The index of a window's output entry is the window. -/
theorem entryIndex_idxOfWindow (v : Nat) : entryIndex ((idxOfWindow v).setWidth 16) = BitVec.ofNat 11 v := by
  apply BitVec.eq_of_toNat_eq
  simp only [entryIndex, idxOfWindow, BitVec.extractLsb'_toNat, BitVec.toNat_setWidth, BitVec.toNat_ofNat, Nat.shiftRight_zero]
  omega

/-- The entry of an index, as the word layer sends it, has the bytes of the output entry of that index. -/
theorem bytesOfEntry_ofNat {v : Nat} (hv : v < 2 ^ 11) :
    bytesOfEntry ((BitVec.ofNat 11 v).setWidth 16) = entryBytes (idxOfWindow v) := by
  have hhigh : ((BitVec.ofNat 11 v).setWidth 16).extractLsb' 8 8 = ((idxOfWindow v).extractLsb' 8 4).setWidth 8 := by
    apply BitVec.eq_of_toNat_eq
    simp only [idxOfWindow, BitVec.extractLsb'_toNat, BitVec.toNat_setWidth, BitVec.toNat_ofNat, Nat.shiftRight_eq_div_pow]
    omega
  have hlow : ((BitVec.ofNat 11 v).setWidth 16).extractLsb' 0 8 = (idxOfWindow v).extractLsb' 0 8 := by
    apply BitVec.eq_of_toNat_eq
    simp only [idxOfWindow, BitVec.extractLsb'_toNat, BitVec.toNat_setWidth, BitVec.toNat_ofNat, Nat.shiftRight_zero]
    omega
  rw [bytesOfEntry, entryBytes, hhigh, hlow]

/-- The words of a success are those at the indices of its entries (43_wordlayer.md R126). -/
theorem encodeWords_of_success {p : Params} (wl : Wordlist p) {e data : Bytes} (he : e.length ≤ maxOperand)
    (h : encodeResponse p e.length e = successResponse data) :
    encodeWords p wl e = .ok ((entriesOf (data.length / 2) data).map fun x => wl.word (entryIndex x)) := by
  simp only [encodeWords, if_pos he, messageResponse_encodeMessage p he, h, entriesOf, List.map_map]
  rfl

/-- The words of an entropy: one for each window of its CombinedBitStream (43_wordlayer.md R126, R129). -/
def entropyWords {p : Params} (wl : Wordlist p) (e : Bytes) : List Bytes :=
  (List.range (3 * e.length / 4)).map fun k => wl.word (BitVec.ofNat 11 (windowIndex (combinedStream p e) k))

@[simp] theorem entropyWords_length {p : Params} (wl : Wordlist p) (e : Bytes) :
    (entropyWords wl e).length = 3 * e.length / 4 := by
  rw [entropyWords, List.length_map, List.length_range]

theorem le_maxOperand_of_entLength {l : Nat} (hl : l ∈ Config.entLengths) : l ≤ maxOperand := by
  simp only [Config.entLengths, List.mem_cons, List.not_mem_nil, or_false] at hl
  unfold maxOperand
  omega

theorem encodeWords_legal {p : Params} (wl : Wordlist p) {e : Bytes} (hl : e.length ∈ Config.entLengths) :
    encodeWords p wl e = .ok (entropyWords wl e) := by
  rw [encodeWords_of_success wl (le_maxOperand_of_entLength hl) (encodeResponse_legal p hl e),
    flatMap_length_const 2 _ _ (fun _ _ => rfl), List.length_range, Nat.mul_div_cancel_left _ (by decide), entriesOf_entryBytes,
    List.map_map, entropyWords]
  simp only [Function.comp_def, entryIndex_idxOfWindow]

/-- The entries sent to DECODE for the words of an entropy are those that ENCODE returned. -/
theorem entriesPayload_entropyWords {p : Params} (wl : Wordlist p) {e : Bytes} (hl : e.length ∈ Config.entLengths) :
    entriesPayload wl (entropyWords wl e) = (encodeResponse p e.length e).data := by
  rw [encodeResponse_legal p hl, successResponse, entriesPayload, entropyWords, List.map_map, List.flatMap_map,
    List.flatMap_def, List.flatMap_def]
  refine congrArg List.flatten (List.map_congr_left fun k _ => ?_)
  rw [Function.comp_apply, entryOfWord_hit wl (lookupWord_word wl _), bytesOfEntry_ofNat (windowIndex_lt _ k)]

theorem entropyWords_utf8 {p : Params} (wl : Wordlist p) (e : Bytes) : (entropyWords wl e).all p.utf8ok = true := by
  rw [entropyWords, List.all_map, List.all_eq_true]
  exact fun _ _ => wl.utf8 _

theorem decodeWords_entropyWords {p : Params} (wl : Wordlist p) {e : Bytes} (hl : e.length ∈ Config.entLengths) :
    decodeWords p wl (entropyWords wl e) = .ok e := by
  have he : e.length ≤ maxOperand := le_maxOperand_of_entLength hl
  refine decodeWords_of_success (entropyWords_utf8 wl e) (by rw [entropyWords_length]; omega) ?_
  rw [entriesPayload_entropyWords wl hl, entropyWords_length]
  exact decodeOfEncodeIsTheEntropy p e.length e hl rfl

/-- Settles O54: the lookups of the words give their indices back, so DECODE gets the entries that ENCODE returned. -/
theorem decodeWordsOfEncodeWords : Obligations.DecodeWordsOfEncodeWords :=
  fun _ wl e hl => ⟨entropyWords wl e, encodeWords_legal wl hl, entropyWords_length wl e, decodeWords_entropyWords wl hl⟩

/-! ## Deriving and the flows (43_wordlayer.md R127, R128) -/

/-- Settles O57: within the bounds the message is legal, and DERIVE asks for well-formed text alone. -/
theorem deriveWordsDoesNotValidate : Obligations.DeriveWordsDoesNotValidate := by
  intro p ws pp hp hpw hpp hutf8 hutf8'
  obtain ⟨⟨hpwMax, hppMax⟩, -⟩ : (p.pwMax ≤ 16383 ∧ p.ppMax ≤ 16383) ∧ p.utf8ok [] = true := by
    simpa [Params.wellFormed] using hp
  have hpwLen : (sentence ws).length ≤ maxOperand := Nat.le_trans hpw hpwMax
  have hppLen : (pp.getD []).length ≤ maxOperand := Nat.le_trans hpp hppMax
  have hresponse : deriveResponse p (sentence ws) (pp.getD []) =
      successResponse (stretch p (sentence ws) (saltOf (pp.getD []))).toList := by
    rw [deriveResponse, hutf8, hutf8']
    rfl
  simp only [deriveWords, if_pos (And.intro hpwLen hppLen), messageResponse_deriveMessage hpwLen hppLen hpw hpp, hresponse]
  rfl

/-- Settles O60: the words of a legal entropy decode, so recovery goes on to derive; an illegal one has no words. -/
theorem generationThenRecovery : Obligations.GenerationThenRecovery := by
  intro p wl
  constructor
  · intro e hl
    have hencode : encodeWords p wl e = .ok (entropyWords wl e) := encodeWords_legal wl hl
    refine ⟨entropyWords wl e, hencode, ?_, fun pp => ⟨?_, ?_⟩⟩
    · rw [generate, hencode]
    · rw [generate, hencode]
    · rw [recover, decodeWords_entropyWords wl hl]
  · intro e he hl request
    rw [generate, encodeWords_illegal wl he hl]

end Sys2Proof.Machine

/-! PROOFS. Failure entry, the host's steps and what the host observes (60_exceptions.md R147, R149, R156 to R158; 30_encoding.md
R72). -/

namespace Sys2Proof.Machine

open Sys2Proof

/-! ## Failure entry and safety (60_exceptions.md R149, R156) -/

/-- Settles O11: `raiseError_eq_reset` is the failure entry, and the codes are those of R140. -/
theorem failureEntryLeavesOnlyTheStatus : Obligations.FailureEntryLeavesOnlyTheStatus :=
  ⟨raiseError_eq_reset, rfl, rfl, rfl, rfl, rfl, rfl, rfl⟩

/-- Settles O48: the ranges of the counters leave no state of the sequencer without a step. -/
theorem noFaultInReachableStates : Obligations.NoFaultInReachableStates := fun _ h => step_answers h

/-! ## The host's next input (60_exceptions.md R158) -/

/-- Settles O59: an input waits when it is not enabled. -/
theorem nextInputIsTheFirstThatDoesNotWait : Obligations.NextInputIsTheFirstThatDoesNotWait := by
  constructor
  · intro s pre rest x hscript hpre hx
    refine nextInput_append hscript (fun y hy => waits_iff.mp (hpre y hy)) ?_
    simpa [waits_iff] using hx
  · exact fun s h => nextInput_eq_none.mpr fun y hy => waits_iff.mp (h y hy)

/-! ## Waiting and taking (60_exceptions.md R147) -/

/-- In the host's two states no command has the step unless a message is presented (10_state.md R21). -/
theorem commandAt_of_not_presented {s : State} (hs : s.st = .resp ∨ s.st = .idle) (hp : presented s = none) :
    commandAt s = none := by
  rcases hs with hs | hs <;> simp [commandAt, hs, hp]

/-- In the host's two states a step without an interaction lets a quiet input pass, and does nothing else. -/
theorem step_of_no_interaction {s : State} (hs : s.st = .resp ∨ s.st = .idle)
    (hx : nextInput s = none ∨ nextInput s = some .quiet) : step s = .next (passQuiet s) := by
  have hreset : nextInput s ≠ some .reset := by rcases hx with hx | hx <;> simp [hx]
  have hp : presented s = none := by rcases hx with hx | hx <;> simp [presented, hx]
  rw [step_of_no_command hreset (commandAt_of_not_presented hs hp)]
  rcases hostStep_cases Config.params s with ⟨-, ht, -⟩ | ⟨m, -, hm, -⟩ | ⟨e, -⟩
  · simp [takeReady_iff.mp ht] at hx
  · simp [hp] at hm
  · rw [e]

/-- Settles O16: the step lets a quiet input pass, if there is one. -/
theorem hostStatesWaitUnchanged : Obligations.HostStatesWaitUnchanged := by
  refine fun s hs => ⟨fun hx => ?_, fun hx => ?_⟩
  · rw [step_of_no_interaction hs (.inl hx), passQuiet, hx]
  · rw [step_of_no_interaction hs (.inr hx), passQuiet, hx]
    rfl

/-- Outside IDLE a message is owed its response (60_exceptions.md R157). -/
theorem exists_issued {s : State} (h : Inv s) (hs : s.st ≠ .idle) : ∃ m, s.issued = some m :=
  Option.ne_none_iff_exists'.mp (issued_ne_none h hs)

/-- A take delivers the pair of the message owed and the response registers (60_exceptions.md R157). -/
theorem observe_of_issued {s : State} {m : Message} (hm : s.issued = some m) :
    observe s = s.obs ++ [(m, responseOf s)] := by
  simp [observe, hm]

/-- Settles O14: the step is `take`. -/
theorem takeDeliversTheResponse : Obligations.TakeDeliversTheResponse := by
  intro s m hs htake hm
  rw [step_take hs htake, take, observe_of_issued hm]
  rfl

/-- Settles O15: in RESP a response is owed, and the working registers are already zero. -/
theorem takeLeavesTheResetState : Obligations.TakeLeavesTheResetState := by
  intro s h hs htake
  obtain ⟨m, hm⟩ := exists_issued h (by simp [hs])
  refine ⟨m, hm, ?_⟩
  rw [step_take hs htake, take_eq_reset h hs, observe_of_issued hm]
  rfl

/-- Settles O47: a step adds at most the pending response, and the data invariants say which one it is. -/
theorem stepKeepsObservationsCorrect : Obligations.StepKeepsObservationsCorrect := by
  intro s t _ hd hobs ht x hx
  rcases onlyTakeIsObserved s t ht with e | ⟨hs, m, -, hm, e⟩ <;> rw [e] at hx
  · exact hobs x hx
  · rcases List.mem_append.mp hx with hx | hx
    · exact hobs x hx
    · obtain rfl := List.mem_singleton.mp hx
      exact hd.pending hs m hm

end Sys2Proof.Machine

/-! PROOFS. The observation of a run is the command-level function of its messages (60_exceptions.md R157; 20_memory.md R54;
30_encoding.md R72): every step keeps what the host is promised to observe, and brings the run nearer to its end. -/

namespace Sys2Proof.Machine

open Sys2Proof

/-! ## The host's script -/

theorem length_laterInputs {s : State} {x : HostInput} (h : nextInput s = some x) :
    s.script.length = (laterInputs s).length + 1 := by
  obtain ⟨-, pre, rest, hscript, hlater, -⟩ := nextInput_eq_some.mp h
  rw [hscript, hlater, List.length_append, List.length_append, List.length_cons, Nat.add_assoc]

theorem length_passQuiet_le (s : State) : (passQuiet s).script.length ≤ s.script.length := by
  rcases passQuiet_cases s with ⟨-, e⟩ | ⟨hq, e⟩
  · exact Nat.le_of_eq (congrArg (fun u => u.script.length) e)
  · rw [e, length_laterInputs hq]
    exact Nat.le_succ _

theorem nextInput_ne_reset {s : State} (h : ResetFree s.script) : nextInput s ≠ some .reset :=
  fun hr => h _ (mem_of_nextInput hr) rfl

theorem count_take_passQuiet (s : State) : (passQuiet s).script.count .take = s.script.count .take := by
  rcases passQuiet_cases s with ⟨-, e⟩ | ⟨hq, e⟩
  · exact congrArg (fun u => u.script.count .take) e
  · rw [e, count_laterInputs hq, if_neg (by decide), Nat.add_zero]

/-- In IDLE a message waits for nothing: when the host has no next input, it has no message (30_encoding.md R72). -/
theorem messagesOf_of_idle {s : State} (hs : s.st = .idle) (hx : nextInput s = none) : messagesOf s.script = [] := by
  refine List.filterMap_eq_nil_iff.mpr fun y hy => ?_
  have hy := nextInput_eq_none.mp hx y hy
  cases y <;> simp_all [enabled, offered]

/-- In RESP a take waits for nothing (60_exceptions.md R147). -/
theorem nextInput_ne_none_of_take {s : State} (hs : s.st = .resp) (ht : .take ∈ s.script) : nextInput s ≠ none := fun hx => by
  have hy := nextInput_eq_none.mp hx _ ht
  simp [enabled, hs] at hy

/-! ## The host's side of a step (60_exceptions.md R158) -/

/-- The issue step uses the message up (30_encoding.md R73). -/
theorem issue_script (p : Params) (m : Message) (s : State) : (issue p m s).script = laterInputs s := by
  obtain ⟨-, -, hscript⟩ := issue_accepts p m s
  exact hscript

/-- Without a reset a step accepts a message, makes a take, or lets at most a quiet input pass. -/
theorem step_host_cases {s t : State} (hr : nextInput s ≠ some .reset) (h : step s = .next t) :
    (∃ m, nextInput s = some (.issue m) ∧ t = issue Config.params m s) ∨
    (s.st = .resp ∧ nextInput s = some .take ∧ t = take s) ∨
      (t.script = (passQuiet s).script ∧ t.issued = s.issued ∧ t.obs = s.obs) := by
  rcases step_cases h with ⟨hreset, -⟩ | ⟨-, i, hi, he⟩ | ⟨-, -, rfl⟩
  · exact absurd (resetAsserted_iff.mp hreset) hr
  · by_cases hs : s.st = .idle
    · rcases commandAt_cases hi with ⟨-, m, hm, -⟩ | ⟨hst, -⟩ | ⟨hst, -⟩ | ⟨hst, -⟩
      · have hm := presented_eq_some.mp hm
        exact .inl ⟨m, hm, Host.Outcome.next.inj (h.symm.trans (step_presented hm))⟩
      all_goals simp [hs] at hst
    · obtain ⟨hscript, hissued⟩ := exec_keeps_host (by simpa using hs) he
      exact .inr (.inr ⟨hscript, hissued.trans (passQuiet_issued s), (exec_obs he).trans (passQuiet_obs s)⟩)
  · rcases hostStep_cases Config.params s with ⟨hs, ht, e⟩ | ⟨m, -, hm, e⟩ | ⟨e, -⟩
    · exact .inr (.inl ⟨hs, takeReady_iff.mp ht, e⟩)
    · exact .inl ⟨m, presented_eq_some.mp hm, e⟩
    · exact .inr (.inr (by simp [e]))

/-! ## What the host is promised -/

/-- The messages that are not answered yet: the one that is owed its response, then those the script presents. -/
def unanswered (s : State) : List Message := s.issued.toList ++ messagesOf s.script

/-- The observation the host will have when every message is answered by its command-level function (60_exceptions.md R157). -/
def promised (s : State) : List (Message × Response) :=
  s.obs ++ (unanswered s).map fun m => (m, messageResponse Config.params m)

/-- A step that lets at most a quiet input pass leaves every message where it is. -/
theorem unanswered_of_passQuiet {s t : State} (hscript : t.script = (passQuiet s).script) (hissued : t.issued = s.issued) :
    unanswered t = unanswered s := by
  rw [unanswered, unanswered, hscript, hissued, messagesOf_passQuiet]

/-- The issue step moves the first message of the script to the one owed (30_encoding.md R73). -/
theorem unanswered_issue {s : State} {m : Message} (h : Inv s) (hm : nextInput s = some (.issue m)) :
    unanswered (issue Config.params m s) = unanswered s := by
  obtain ⟨-, hissued, hscript⟩ := issue_accepts Config.params m s
  have hnone : s.issued = none := h.owed.mpr (idle_of_presented (presented_eq_some.mpr hm))
  rw [unanswered, unanswered, hissued, hscript, hnone, messagesOf_laterInputs hm]
  rfl

/-- A take answers the message owed (60_exceptions.md R147). -/
theorem unanswered_take {s : State} {m : Message} (htake : nextInput s = some .take) (hm : s.issued = some m) :
    unanswered s = m :: unanswered (take s) := by
  rw [unanswered, unanswered, hm, messagesOf_laterInputs htake]
  rfl

/-- Every step but a reset keeps the promise: a take turns the message owed into its pair, all others leave messages and pairs. -/
theorem promised_of_step {s t : State} (h : Inv s) (hd : DataInv Config.params s) (hr : nextInput s ≠ some .reset)
    (ht : step s = .next t) : promised t = promised s := by
  rcases step_host_cases hr ht with ⟨m, hm, rfl⟩ | ⟨hs, htake, rfl⟩ | ⟨hscript, hissued, hobs⟩
  · rw [promised, promised, unanswered_issue h hm, issue_obs]
  · obtain ⟨m, hm⟩ := exists_issued h (by simp [hs])
    rw [promised, promised, unanswered_take htake hm, take_obs, observe_of_issued hm, hd.pending hs m hm]
    simp
  · rw [promised, promised, unanswered_of_passQuiet hscript hissued, hobs]

/-- Every step but a reset keeps enough takes for the messages: the one take it may use up answers a message. -/
theorem takes_of_step {s t : State} (h : Inv s) (hr : nextInput s ≠ some .reset) (ht : step s = .next t)
    (hle : (unanswered s).length ≤ s.script.count .take) : (unanswered t).length ≤ t.script.count .take := by
  rcases step_host_cases hr ht with ⟨m, hm, rfl⟩ | ⟨hs, htake, rfl⟩ | ⟨hscript, hissued, -⟩
  · rw [unanswered_issue h hm, issue_script]
    simpa [count_laterInputs hm] using hle
  · obtain ⟨m, hm⟩ := exists_issued h (by simp [hs])
    rw [unanswered_take htake hm, count_laterInputs htake] at hle
    simpa using hle
  · rwa [unanswered_of_passQuiet hscript hissued, hscript, count_take_passQuiet]

theorem resetFree_of_step {s t : State} (hfree : ResetFree s.script) (ht : step s = .next t) : ResetFree t.script := by
  have hlater : ResetFree (laterInputs s) := fun x hx => hfree x (mem_of_laterInputs hx)
  rcases step_host_cases (nextInput_ne_reset hfree) ht with ⟨m, -, rfl⟩ | ⟨-, -, rfl⟩ | ⟨hscript, -, -⟩
  · exact issue_script Config.params m s ▸ hlater
  · exact hlater
  · exact hscript ▸ resetFree_passQuiet hfree

/-! ## Runs to the end of the script -/

/-- The run is on its way to observing `final`: no reset will interrupt it, there is a take for every message, and `final` is what
the host is promised. -/
structure OnCourse (final : List (Message × Response)) (s : State) : Prop where
  inv : Inv s
  data : DataInv Config.params s
  resetFree : ResetFree s.script
  takes : (unanswered s).length ≤ s.script.count .take
  promised_eq : promised s = final

theorem OnCourse.keep {final : List (Message × Response)} {s t : State} (h : OnCourse final s) (ht : step s = .next t) :
    OnCourse final t where
  inv := stepKeepsInvariants s t h.inv ht
  data := stepKeepsDataInvariants s t h.inv h.data ht
  resetFree := resetFree_of_step h.resetFree ht
  takes := takes_of_step h.inv (nextInput_ne_reset h.resetFree) ht h.takes
  promised_eq := (promised_of_step h.inv h.data (nextInput_ne_reset h.resetFree) ht).trans h.promised_eq

/-- In RESP the take that the message owed is promised is still to come. -/
theorem OnCourse.nextInput_of_resp {final : List (Message × Response)} {s : State} (h : OnCourse final s) (hs : s.st = .resp) :
    nextInput s ≠ none := by
  obtain ⟨m, hm⟩ := exists_issued h.inv (by simp [hs])
  have htakes := h.takes
  simp only [unanswered, hm, Option.toList_some, List.length_append, List.length_singleton] at htakes
  exact nextInput_ne_none_of_take hs (List.count_pos_iff.mp (by omega))

/-- Less is left of the run: fewer inputs still to come or, of as many, fewer micro-steps of the command in progress. -/
def Nearer (t s : State) : Prop :=
  Prod.Lex (· < ·) (· < ·) (t.script.length, stepsLeft Config.params t) (s.script.length, stepsLeft Config.params s)

/-- A step in one of the host's two states uses up the host's next input, whichever it is. -/
theorem script_of_host_step {s t : State} {x : HostInput} (hs : s.st = .resp ∨ s.st = .idle) (hr : nextInput s ≠ some .reset)
    (hx : nextInput s = some x) (ht : step s = .next t) : t.script = laterInputs s := by
  cases x with
  | quiet =>
    obtain rfl := Host.Outcome.next.inj (ht.symm.trans (step_of_no_interaction hs (.inr hx)))
    simp [passQuiet, hx, advanceHost]
  | issue m =>
    obtain rfl := Host.Outcome.next.inj (ht.symm.trans (step_presented hx))
    exact issue_script Config.params m s
  | take =>
    have hresp : s.st = .resp := by simpa [enabled] using (nextInput_eq_some.mp hx).1
    obtain rfl := Host.Outcome.next.inj (ht.symm.trans (step_take hresp hx))
    rfl
  | reset => exact absurd hx hr

/-- In a working state a step is a micro-step of the command in progress, and uses up at most a quiet input. -/
theorem OnCourse.nearer_of_busy {final : List (Message × Response)} {s t : State} (h : OnCourse final s) (hs : Busy s)
    (ht : step s = .next t) : Nearer t s := by
  obtain ⟨hidle, hresp⟩ := hs
  obtain ⟨m, hm⟩ := exists_issued h.inv hidle
  have hanswering : Answering m s.obs s := ⟨h.inv, h.data, h.resetFree, hidle, hm, rfl⟩
  obtain ⟨u, hu, -, hsteps⟩ := hanswering.step hresp
  obtain rfl := Host.Outcome.next.inj (ht.symm.trans hu)
  have hlen : t.script.length ≤ s.script.length := by
    rcases step_host_cases (nextInput_ne_reset h.resetFree) ht with ⟨m, hm, -⟩ | ⟨hs, -⟩ | ⟨hscript, -⟩
    · exact absurd (idle_of_presented (presented_eq_some.mpr hm)) hidle
    · exact absurd hs hresp
    · exact hscript ▸ length_passQuiet_le s
  rcases Nat.lt_or_eq_of_le hlen with hlt | heq
  · exact .left _ _ hlt
  · rw [Nearer, heq]
    exact .right _ (by omega)

/-- Until IDLE with no input left to make, the run goes on, and every step brings it nearer to its end. -/
theorem OnCourse.step {final : List (Message × Response)} {s : State} (h : OnCourse final s)
    (hend : ¬ (s.st = .idle ∧ nextInput s = none)) : ∃ t, Machine.step s = .next t ∧ OnCourse final t ∧ Nearer t s := by
  obtain ⟨t, ht⟩ := step_answers h.inv
  refine ⟨t, ht, h.keep ht, ?_⟩
  by_cases hs : s.st = .resp ∨ s.st = .idle
  · obtain ⟨x, hx⟩ : ∃ x, nextInput s = some x := Option.ne_none_iff_exists'.mp fun hx =>
      hs.elim (fun hresp => h.nextInput_of_resp hresp hx) fun hidle => hend ⟨hidle, hx⟩
    refine .left _ _ ?_
    rw [script_of_host_step hs (nextInput_ne_reset h.resetFree) hx ht, length_laterInputs hx]
    exact Nat.lt_succ_self _
  · obtain ⟨hresp, hidle⟩ := not_or.mp hs
    exact h.nearer_of_busy ⟨hidle, hresp⟩ ht

/-- Every run on its course ends in IDLE with no input left to make. -/
theorem OnCourse.run {final : List (Message × Response)} {s : State} (h : OnCourse final s) :
    ∃ (n : Nat) (t : State), Host.Core.run core n s = .next t ∧ OnCourse final t ∧ t.st = .idle ∧ nextInput t = none := by
  by_cases hend : s.st = .idle ∧ nextInput s = none
  · exact ⟨0, s, run_zero s, h, hend⟩
  · obtain ⟨u, hu, hcourse, hnearer⟩ := h.step hend
    obtain ⟨n, t, ht, hdone⟩ := hcourse.run
    exact ⟨n + 1, t, (run_succ n s u hu).trans ht, hdone⟩
termination_by (s.script.length, stepsLeft Config.params s)
decreasing_by exact hnearer

/-- In IDLE, where no response is owed, the unanswered messages are those of the script. -/
theorem unanswered_of_idle {s : State} (h : Inv s) (hs : s.st = .idle) : unanswered s = messagesOf s.script := by
  rw [unanswered, h.owed.mpr hs]
  rfl

/-- In IDLE with no input left to make, the host has observed what it was promised. -/
theorem OnCourse.obs_of_end {final : List (Message × Response)} {s : State} (h : OnCourse final s) (hs : s.st = .idle)
    (hx : nextInput s = none) : s.obs = final := by
  rw [← h.promised_eq, promised, unanswered_of_idle h.inv hs, messagesOf_of_idle hs hx, List.map_nil, List.append_nil]

/-- Settles O52: the run is on its course to the pairs of the script's messages; it ends in IDLE with no message left,
where the invariants leave the reset state. -/
theorem observationIsTheCommandLevelFunction : Obligations.ObservationIsTheCommandLevelFunction := by
  intro s h hs hfree htakes
  have hmessages := unanswered_of_idle h hs
  have hcourse : OnCourse (promised s) s := ⟨h, dataInv_of_start (.inl hs), hfree, hmessages ▸ htakes, rfl⟩
  obtain ⟨n, t, hrun, hend, hidle, hx⟩ := hcourse.run
  have hobs : t.obs = s.obs ++ (messagesOf s.script).map fun m => (m, messageResponse Config.params m) := by
    rw [hend.obs_of_end hidle hx, promised, hmessages]
  exact ⟨n, t, hrun, messagesOf_of_idle hidle hx, hobs ▸ eq_reset_of_idle hend.inv hidle⟩

end Sys2Proof.Machine

/-! PROOFS. Reset (70_reset_and_hazards.md R160, R161), the step counts of R170, and that every command reaches RESP. -/

namespace Sys2Proof.Machine

open Sys2Proof

/-! ## Reset -/

/-- A reset that is the host's next input is performed in every state (70_reset_and_hazards.md R160). -/
theorem step_reset {s : State} (h : nextInput s = some .reset) : step s = .next (hostReset s) := by
  simp [step, resetAsserted_iff.mpr h]

/-- Settles O17: a reset is always enabled, so behind inputs that wait it is the host's next input, and the step is
`hostReset`. -/
theorem resetWorksInEveryState : Obligations.ResetWorksInEveryState := by
  refine ⟨fun s h => step_reset h, fun s pre rest hscript hpre => ?_⟩
  obtain ⟨hnext, hlater⟩ := nextInput_append hscript (fun y hy => waits_iff.mp (hpre y hy)) rfl
  rw [step_reset hnext, hostReset, hlater]

/-- Settles O18: every register array of the reset state is a constant vector, every other register is its value itself. -/
theorem resetValues : Obligations.ResetValues :=
  ⟨rfl, rfl, rfl, rfl, rfl, rfl, fun _ h => Vector.getElem_replicate h, rfl, rfl, rfl, rfl,
    fun _ h => Vector.getElem_replicate h, fun _ h => Vector.getElem_replicate h, fun _ h => Vector.getElem_replicate h,
    fun _ h => Vector.getElem_replicate h, rfl, rfl, rfl, rfl, rfl, fun _ h => Vector.getElem_replicate h⟩

/-! ## The step counts of the table (70_reset_and_hazards.md R170) -/

theorem messageSteps_of_illegal {p : Params} {m : Message} (h : framingLegal p m = false) : messageSteps p m = 0 := by
  simp [messageSteps, h]

theorem messageSteps_of_legal {p : Params} {m : Message} {i : Instr} (h : framingLegal p m = true)
    (hi : decodeWord m.cw = .ok i) : messageSteps p m = instrSteps p m.payload i := by
  simp [messageSteps, h, hi]

theorem instrSteps_encode_illegal (p : Params) (pl : Bytes) {a : Operand} (ha : a.toNat ∉ Config.entLengths) :
    instrSteps p pl (.encode a) = 1 := if_neg ha

theorem instrSteps_decode_illegal (p : Params) (pl : Bytes) {a : Operand} (ha : a.toNat ∉ Config.wordCounts) :
    instrSteps p pl (.decode a) = 1 := if_neg ha

theorem instrSteps_decode_legal (p : Params) (pl : Bytes) {a : Operand} (ha : a.toNat ∈ Config.wordCounts) :
    instrSteps p pl (.decode a) = 2 + lastPosition a.toNat pl := by
  rw [instrSteps_decode, if_pos ha]

/-- Settles O50: the count of a framing-legal message is that of its command; DECODE's is 2 more than the position at which it
ends. -/
theorem stepCountsOfTheTable : Obligations.StepCountsOfTheTable := by
  refine fun p m => ⟨messageSteps_of_illegal, fun a h hi => ?_, fun a h hi => ?_, fun a b h hi => ?_⟩ <;>
    rw [messageSteps_of_legal h hi]
  · refine ⟨instrSteps_encode_illegal p m.payload, ?_, ?_, ?_, ?_, ?_⟩ <;> rintro rfl <;> rfl
  · refine ⟨instrSteps_decode_illegal p m.payload, fun k ha hk hmiss hbefore => ?_, fun ha hnone => ?_⟩
    · rw [instrSteps_decode_legal p m.payload ha, lastPosition_of_miss hk hmiss hbefore]
    · rw [instrSteps_decode_legal p m.payload ha, lastPosition_of_no_miss hnone]
  · simp [instrSteps]

/-! ## Every command reaches RESP

`stepsLeft` is exact under the data invariants. The register invariants alone do not tie IDX to the payload and so do not say at
which position DEC_GATHER ends: the bound counts every position up to the 24 words of the longest mnemonic. -/

/-- An upper bound of the micro-steps to RESP, from the registers alone (70_reset_and_hazards.md R170). -/
def stepBound (s : State) : Nat :=
  match s.st with
  | .idle => 0
  | .encCheck => 27
  | .encHash => 26
  | .encChunk => 25 - s.pos
  | .decCheck => 26
  | .decGather => 25 - s.pos
  | .kdfCheck => 2050
  | .kdfFirst => 2049
  | .kdfIter => 2049 - s.iter
  | .resp => 0

theorem stepBound_le (s : State) : stepBound s ≤ 2050 := by
  unfold stepBound
  split <;> omega

@[simp] theorem stepBound_respond (k : Status) (info : BitVec 8) (data : Bytes) (s : State) :
    stepBound (respond k info data s) = 0 := rfl

/-- The bound does not look at the host's side. -/
@[simp] theorem stepBound_passQuiet (s : State) : stepBound (passQuiet s) = stepBound s := by
  rcases passQuiet_cases s with ⟨-, e⟩ | ⟨-, e⟩ <;> rw [e]
  rfl

/-- A working state has a micro-step to come, at least the one that responds. -/
theorem stepBound_pos {s : State} (h : Inv s) (hs : Busy s) : 0 < stepBound s := by
  obtain ⟨hidle, hresp⟩ := hs
  have hpos := h.pos_le
  have hcnt := h.cnt_le
  have hiter := h.iter_le
  cases hst : s.st
  case idle => exact absurd hst hidle
  case resp => exact absurd hst hresp
  all_goals
    simp only [stepBound, hst]
    omega

theorem stepBound_encodeStep {p : Params} {a : Operand} {s t : State} (h : Inv s)
    (hs : s.st = .encCheck ∨ s.st = .encHash ∨ s.st = .encChunk) (ht : encodeStep p a s = .next t) :
    stepBound t < stepBound s := by
  have hcnt := h.cnt_le
  have hbusy := stepBound_pos h (running_encode hs).1
  rcases encodeStep_cases ht with
    ⟨hi, -⟩ | ⟨hst, rfl⟩ | ⟨hst, rfl⟩ | ⟨hst, hpos, rfl⟩ | ⟨hst, hpos, rfl⟩ | ⟨-, h1, h2, h3, -⟩
  · simp [hi] at hs
  · rcases encCheck_cases s with ⟨-, e⟩ | ⟨-, e⟩ <;> simp [e, stepBound, hst]
  · rcases encHash_cases p s with ⟨-, e⟩ | ⟨-, e⟩ <;> simp [e, stepBound, hst]
  · simp only [encChunk, stepBound, hst]
    omega
  · simpa [encDone] using hbusy
  · simp [h1, h2, h3] at hs

theorem stepBound_decodeStep {p : Params} {a : Operand} {s t : State} (h : Inv s)
    (hs : s.st = .decCheck ∨ s.st = .decGather) (ht : decodeStep p a s = .next t) : stepBound t < stepBound s := by
  have hcnt := h.cnt_le
  have hbusy := stepBound_pos h (running_decode hs).1
  rcases decodeStep_cases ht with ⟨hi, -⟩ | ⟨hst, rfl⟩ | ⟨hst, hpos, rfl⟩ | ⟨hst, hpos, rfl⟩ | ⟨-, h1, h2, -⟩
  · simp [hi] at hs
  · rcases decCheck_cases s with ⟨-, e⟩ | ⟨-, e⟩ <;> simp [e, stepBound, hst]
  · rcases decGather_cases s with ⟨-, e⟩ | ⟨-, e⟩
    · simp only [e, stepBound, hst]
      omega
    · simpa [e] using hbusy
  · rcases decVerify_cases p s with ⟨-, e⟩ | ⟨-, e⟩ <;> simpa [e] using hbusy
  · simp [h1, h2] at hs

theorem stepBound_deriveStep {p : Params} {a b : Operand} {s t : State}
    (hs : s.st = .kdfCheck ∨ s.st = .kdfFirst ∨ s.st = .kdfIter) (ht : deriveStep p a b s = .next t) :
    stepBound t < stepBound s := by
  rcases deriveStep_cases ht with
    ⟨hi, -⟩ | ⟨hst, rfl⟩ | ⟨hst, rfl⟩ | ⟨hst, hiter, rfl⟩ | ⟨hst, hiter, rfl⟩ | ⟨-, h1, h2, h3, -⟩
  · simp [hi] at hs
  · rcases kdfCheck_cases p s with ⟨-, e⟩ | ⟨-, e⟩ <;> simp [e, stepBound, hst]
  · simp [kdfFirst, stepBound, hst]
  · simp only [kdfIter, stepBound, hst]
    omega
  · simp [kdfDone, stepBound, hst, hiter]
  · simp [h1, h2, h3] at hs

/-- In a working state a step without a reset is a micro-step of the command in progress (10_state.md R21). -/
theorem exec_of_busy {s t : State} (hs : Busy s) (hr : nextInput s ≠ some .reset) (ht : step s = .next t) :
    ∃ i, commandAt s = some i ∧ exec i (passQuiet s) = .next t := by
  obtain ⟨hidle, hresp⟩ := hs
  obtain ⟨i, hi⟩ : ∃ i, commandAt s = some i := Option.ne_none_iff_exists'.mp fun hn =>
    (idle_or_resp_of_commandAt hn).elim hidle hresp
  exact ⟨i, hi, (step_of_commandAt hr hi).symm.trans ht⟩

/-- A micro-step brings the command nearer to RESP. -/
theorem stepBound_of_busy {s t : State} (h : Inv s) (hs : Busy s) (hr : nextInput s ≠ some .reset)
    (ht : step s = .next t) : stepBound t < stepBound s := by
  obtain ⟨i, hi, hexec⟩ := exec_of_busy hs hr ht
  have hinv := inv_passQuiet h
  rw [← stepBound_passQuiet s]
  rcases commandAt_cases hi with ⟨hst, -⟩ | ⟨hst, rfl⟩ | ⟨hst, rfl⟩ | ⟨hst, rfl⟩
  · exact absurd hst hs.1
  · exact stepBound_encodeStep hinv (by simpa using hst) hexec
  · exact stepBound_decodeStep hinv (by simpa using hst) hexec
  · exact stepBound_deriveStep (by simpa using hst) hexec

/-- No step but a reset leads from a working state to IDLE (10_state.md R21). -/
theorem ne_idle_of_busy {s t : State} (hs : Busy s) (hr : nextInput s ≠ some .reset) (ht : step s = .next t) :
    t.st ≠ .idle := by
  obtain ⟨i, hi, hexec⟩ := exec_of_busy hs hr ht
  obtain ⟨hidle, hresp⟩ := hs
  exact ne_idle_of_transition (exec_transition hi hexec) hresp hidle

/-- Outside IDLE a run without a reset reaches RESP within the bound: each step on the way keeps the invariants and lowers it. -/
theorem reaches_resp {s : State} (h : Inv s) (hs : s.st ≠ .idle) (hfree : ResetFree s.script) :
    ∃ (n : Nat) (t : State), n ≤ stepBound s ∧ Host.Core.run core n s = .next t ∧ t.st = .resp := by
  by_cases hresp : s.st = .resp
  · exact ⟨0, s, Nat.zero_le _, run_zero s, hresp⟩
  · have hr := nextInput_ne_reset hfree
    obtain ⟨u, hu⟩ := step_answers h
    have hbound := stepBound_of_busy h ⟨hs, hresp⟩ hr hu
    obtain ⟨n, t, hn, ht, hdone⟩ := reaches_resp (stepKeepsInvariants s u h hu) (ne_idle_of_busy ⟨hs, hresp⟩ hr hu)
      (resetFree_of_step hfree hu)
    exact ⟨n + 1, t, Nat.lt_of_le_of_lt hn hbound, (run_succ n s u hu).trans ht, hdone⟩
termination_by stepBound s

/-- Settles O51: RESP is reached within the bound of the state, and no bound is above KDF_CHECK's 2050. -/
theorem everyCommandReachesResp : Obligations.EveryCommandReachesResp := by
  intro s h hs hfree
  obtain ⟨n, t, hn, hrun, hresp⟩ := reaches_resp h hs.1 hfree
  exact ⟨n, t, Nat.le_trans hn (stepBound_le s), hrun, hresp⟩

end Sys2Proof.Machine
